-- ==== Sys2Proof/Word.lean ====
section
/-! DEFINITION. The two word types of PNE (00_scope.md R10): every value is unsigned. -/

namespace Sys2Proof

/-- A `u8` of 00_scope.md R10: a register address, a parameter byte, a byte of `FB` or `TX`. -/
abbrev Byte := BitVec 8

/-- A `u32` of 00_scope.md R10: one relative step of a grayscale curve (10_state.md R21). -/
abbrev Word32 := BitVec 32

/-- Fifteen relative steps, one for each of GS1 to GS15 (10_state.md R21: "15 of u32"). -/
abbrev Curve := Vector Word32 15

end Sys2Proof
end

