-- ==== Sys2Proof/Config.lean ====
section
/-! DEFINITION. What one variant of PNE fixes (`CFG` and the open parameters of 00_scope.md R8 and R9), the configuration
that `State.reset` is constructed with, and the free values: constants without a body, which no proof can evaluate. -/

namespace Sys2Proof

/-- One register frame `(reg, params)`: format REGFRAME of 30_encoding.md R84. -/
structure Frame where
  reg : Byte
  params : List Byte
  deriving DecidableEq, Repr

/-- A non-empty list of frames: what one step of the power-up sequence sends (44_lifecycle.md R194). -/
structure Frames where
  first : Frame
  more : List Frame
  deriving DecidableEq, Repr

/-- The framebuffer's native format, which selects the encoder mode (00_scope.md R8). -/
inductive SrcFmt where
  | gray4
  | color16
  deriving DecidableEq, Repr

/-- The rotation flag takes "0 or 180 degrees only" (44_lifecycle.md R195): no other value can be written. -/
inductive Rotation where
  | deg0
  | deg180
  deriving DecidableEq, Repr

/-- `COLOR16_NIBBLE`: which nibble of the luma byte is sent (43_pixel_encoder.md R169). -/
inductive NibbleChoice where
  | high
  | low
  deriving DecidableEq, Repr

/-- `INIT_GRAYSCALE_STEP`: what step 3 of `INIT` sends (44_lifecycle.md R192); `frames` carries `INIT_SEQ[3]`. -/
inductive GrayscaleStep where
  | programCurve
  | frames (seq3 : Frames)
  deriving DecidableEq, Repr

/-- `INIT_SEQ` of 44_lifecycle.md R193 and R194: the frames of the steps that are open parameters. Step 7 has one list for
each rotation (R195); steps 2, 3 and 13 are not here. -/
structure InitSeq where
  unlock : Frames
  clockDivider : Frames
  muxRatio : Frames
  startLineOffset : Frames
  remap0 : Frames
  remap180 : Frames
  externalSupply : Frames
  contrastEnhancement : Frames
  phasePrecharge : Frames
  vcomh : Frames
  normalDisplay : Frames
  deriving DecidableEq, Repr

/-- The configuration of one instance, set at construction and never written after (00_scope.md R8, 10_state.md R28), with
the open parameters of 00_scope.md R9. `rowPad` is what a framebuffer row holds beyond `WIDTH` pixels, in bytes for
GRAY4 and in 16-bit pixels for COLOR16, so that `STRIDE` is never less than its default (R9: "never less"; log entry 20). -/
structure Cfg where
  srcFmt : SrcFmt
  hasPrecharge : Bool
  rotate : Rotation
  curve : Curve
  width : Nat
  height : Nat
  rowPad : Nat
  color16Nibble : NibbleChoice
  regGammaEnd : Byte
  regSetColumn : Byte
  regSetRow : Byte
  windowTrailer : List Frame
  regDisplayOff : Byte
  regDisplayOn : Byte
  regPrecharge : Byte
  initSeq : InitSeq
  grayscaleStep : GrayscaleStep
  dcLevelCmd : Bool
  dcLevelData : Bool
  deriving DecidableEq, Repr

/-- The answer of the bus to one burst: `ok` or `fail` (40_command_protocol.md R118); `never` is the stalled bus of
60_exceptions.md R233, which does not answer at all (log entry 7). -/
inductive BusAnswer where
  | ok
  | fail
  | never
  deriving DecidableEq, Repr, Inhabited

/-! ## Free values (log entries 6, 8, 11, 12 and 13): nothing constrains them -/

/-- The bus's answer to burst number `n` where the environment has not fixed it in advance (R118: "a free input"). -/
opaque Config.busAnswer : Nat → BusAnswer

/-- How many bytes of a burst that was not answered `ok` reached the controller (10_state.md R38), by burst number. -/
opaque Config.deliveredCount : Nat → Nat

/-- A byte of `TX` that holds no written value (10_state.md R33), by epoch and address. -/
opaque Config.txByte : Nat → Nat → Byte

/-- A byte of the host's framebuffer that the state does not list (10_state.md R39), by epoch and address. -/
opaque Config.fbByte : Nat → Nat → Byte

/-- Whether a byte the host overwrites during the encode step is read new (20_memory.md R58), by draw and address. -/
opaque Config.raceTakesNew : Nat → Nat → Bool

/-! ## The configuration of `State.reset` (log entry 9) -/

/-- A one-frame list with one parameter: the shape of the placeholder steps of 95_test_vectors.md part 0. -/
def Config.placeholder (reg param : Byte) : Frames := ⟨⟨reg, [param]⟩, []⟩

/-- The placeholder power-up frames of 95_test_vectors.md part 0 ("placeholder, not a real register"). -/
def Config.placeholderInitSeq : InitSeq where
  unlock := Config.placeholder 0xE1 1
  clockDivider := Config.placeholder 0xE4 4
  muxRatio := Config.placeholder 0xE5 5
  startLineOffset := Config.placeholder 0xE6 6
  remap0 := Config.placeholder 0xE7 0x00
  remap180 := Config.placeholder 0xE7 0xB4
  externalSupply := Config.placeholder 0xE8 8
  contrastEnhancement := Config.placeholder 0xE9 9
  phasePrecharge := Config.placeholder 0xEA 10
  vcomh := Config.placeholder 0xEB 11
  normalDisplay := Config.placeholder 0xEC 12

/-- The configuration `State.reset` is constructed with: test configuration T1 of 95_test_vectors.md part 0.
DESIGN CHOICE and PRESUMED, log entry 9: the spec leaves it to the host, and no claim may rest on it. -/
def Config.resetCfg : Cfg where
  srcFmt := .gray4
  hasPrecharge := true
  rotate := .deg0
  curve := #v[1, 1, 1, 1, 1, 2, 2, 3, 3, 4, 4, 5, 5, 6, 6]
  width := 128
  height := 64
  rowPad := 0
  color16Nibble := .high
  regGammaEnd := 0x00
  regSetColumn := 0x15
  regSetRow := 0x75
  windowTrailer := []
  regDisplayOff := 0xAE
  regDisplayOn := 0xAF
  regPrecharge := 0xBB
  initSeq := Config.placeholderInitSeq
  grayscaleStep := .programCurve
  dcLevelCmd := false
  dcLevelData := true

end Sys2Proof
end

