-- ==== Sys2Proof/Syntax.lean ====
section
/-! DEFINITION. The instructions of PNE: one constructor for each row of spec/opcode_table.json. The seven host operations
and the nine reserved codes are requests of the host (30_encoding.md R80, R81, R88); the frames and the data burst are the
micro-operations the host operations are built from (40_command_protocol.md R112, R115; log entry 3). -/

namespace Sys2Proof

/-- One row of the opcode table each. Operands are those of 30_encoding.md R82 and R86; a frame's constant parameters
(28 and 91) and everything a frame takes from `CFG` are no operands. -/
inductive Instr where
  -- host operations (HOSTOP)
  | init
  | setWindow (xs ys xe ye : Byte)
  | programGamma (curve : Curve)
  | programPrecharge (level : Option Byte)
  | blank (on : Bool)
  | flush (offset len : Nat)
  | destroy
  -- reserved operation codes (HOSTOP)
  | reserved0
  | reserved8
  | reserved9
  | reservedA
  | reservedB
  | reservedC
  | reservedD
  | reservedE
  | reservedF
  -- the generic frame and the named frames (REGFRAME)
  | send (reg : Byte) (params : List Byte)
  | regGamma (levels : Vector Byte 15)
  | regGammaEnd
  | regSetColumn
  | regSetRow (ys ye : Byte)
  | windowTrailerFrame
  | regPrecharge (level : Byte)
  | regDisplayOff
  | regDisplayOn
  -- the thirteen steps of the power-up sequence (REGFRAME)
  | initStep01
  | initStep02
  | initStep03
  | initStep04
  | initStep05
  | initStep06
  | initStep07
  | initStep08
  | initStep09
  | initStep10
  | initStep11
  | initStep12
  | initStep13
  -- the pixel payload (DATABURST)
  | dataBurst (nOut : Nat)
  deriving DecidableEq, Repr

end Sys2Proof
end

