-- ==== Sys2Proof/WellFormed.lean ====
section
/-! DEFINITION. Which instructions the encoding has words for (log entry 2). Everything else about operands is checked by
the operations themselves, which answer an error. -/

namespace Sys2Proof

/-- `offset`, `len` and `n_out` are naturals that the request record holds in 32 bits (10_state.md R21: "a model may take
32 bits"). A level of frame REG_GAMMA is "u8 in 0..180" and the level of frame REG_PRECHARGE is "0x00..0x1F, bits[7:5] = 0"
(the table's rows, 30_encoding.md R86). -/
def Instr.wf : Instr → Bool
  | .flush offset len => decide (offset < 2 ^ 32) && decide (len < 2 ^ 32)
  | .dataBurst nOut => decide (nOut < 2 ^ 32)
  | .regGamma levels => levels.toList.all fun l => decide (l.toNat ≤ 180)
  | .regPrecharge level => decide (level.toNat ≤ 0x1F)
  | .init | .setWindow .. | .programGamma _ | .programPrecharge _ | .blank _ | .destroy => true
  | .reserved0 | .reserved8 | .reserved9 | .reservedA | .reservedB | .reservedC | .reservedD | .reservedE
  | .reservedF => true
  | .send .. | .regGammaEnd | .regSetColumn | .regSetRow .. | .windowTrailerFrame | .regDisplayOff
  | .regDisplayOn => true
  | .initStep01 | .initStep02 | .initStep03 | .initStep04 | .initStep05 | .initStep06 | .initStep07
  | .initStep08 | .initStep09 | .initStep10 | .initStep11 | .initStep12 | .initStep13 => true

/-- An instruction the encoding has words for. -/
abbrev WellFormed (i : Instr) : Prop := i.wf = true

end Sys2Proof
end

