-- ==== Sys2Proof/Decode.lean ====
section
/-! DEFINITION. From a request record to an instruction, and back. The spec gives the operation codes (30_encoding.md R81),
the operands with their widths and order (R82) and the frames' register numbers (R87), and no binary form of the record
(R80); the bytes of the record are the model's (log entries 2 and 3). -/

namespace Sys2Proof

/-- Where a request is presented: the host's port for HOSTOP records, and one port for each kind of micro-operation of the
other two formats (log entry 3). -/
inductive Port where
  | host
  | frame
  | send
  | initStep
  | data
  deriving DecidableEq, Repr

/-- A request as presented to PNE: the bytes of one record on one port. -/
structure Request where
  port : Port
  bytes : List Byte
  deriving DecidableEq, Repr

/-- Why a record is no request. None of these can come from a host that follows 30_encoding.md R80, whose requests are
typed. A reserved operation code is itself no such reason, since R88 answers it; operand bytes behind one are (`operandLength`,
DESIGN CHOICE, log entry 27). -/
inductive DecodeError where
  /-- The record holds no byte. -/
  | emptyRecord
  /-- Bits 7:4 of the first byte are set: `op` is a 4-bit field (R81). -/
  | opFieldTooWide
  /-- The record holds more or fewer operand bytes than the operation has. -/
  | operandLength
  /-- A one-bit operand whose byte is neither 0 nor 1. -/
  | flagBits
  /-- A register byte that is no row of the opcode table. -/
  | noSuchFrame
  /-- A step number outside 1 to 13 (44_lifecycle.md R193). -/
  | noSuchStep
  /-- An operand outside the range of its row (`Instr.wf`). -/
  | illFormed
  deriving DecidableEq, Repr

/-! ## Multi-byte operands -/

/-- The four bytes of a 32-bit operand, least significant first (log entry 2). -/
def le32 (n : Nat) : List Byte :=
  [BitVec.ofNat 8 n, BitVec.ofNat 8 (n / 2 ^ 8), BitVec.ofNat 8 (n / 2 ^ 16), BitVec.ofNat 8 (n / 2 ^ 24)]

/-- The number that four bytes hold, least significant first. -/
def ofLe32 (b0 b1 b2 b3 : Byte) : Nat :=
  b0.toNat + 2 ^ 8 * b1.toNat + 2 ^ 16 * b2.toNat + 2 ^ 24 * b3.toNat

/-- The 32-bit operands held in a list of bytes; `none` where its length is no multiple of four. -/
def words32 : List Byte → Option (List Word32)
  | [] => some []
  | b0 :: b1 :: b2 :: b3 :: rest => (words32 rest).map (BitVec.ofNat 32 (ofLe32 b0 b1 b2 b3) :: ·)
  | _ => none

/-- A list of exactly `n` elements as a vector. -/
def vectorOf? {α : Type} (n : Nat) (l : List α) : Option (Vector α n) :=
  if h : l.length = n then some ⟨l.toArray, by simpa using h⟩ else none

/-! ## The decoder -/

/-- An operation without operands. -/
def decodeNullary (i : Instr) (args : List Byte) : Except DecodeError Instr :=
  match args with
  | [] => .ok i
  | _ => .error .operandLength

/-- A one-bit operand, held in a byte. -/
def decodeFlag (b : Byte) : Except DecodeError Bool :=
  if b = 0 then .ok false else if b = 1 then .ok true else .error .flagBits

/-- `PROGRAM_GAMMA`: "fifteen 32-bit fields `curve[0]` to `curve[14]`" (30_encoding.md R82). -/
def decodeGamma (args : List Byte) : Except DecodeError Instr :=
  match (words32 args).bind (vectorOf? 15) with
  | some curve => .ok (.programGamma curve)
  | none => .error .operandLength

/-- `PROGRAM_PRECHARGE`: "a presence bit `level_present` and `level[7:0]`" (30_encoding.md R82). A record of another shape is
refused on every variant, before `has_precharge` is read: R89 does not say how many operand bytes stand behind the code 0x4
where it is as reserved (DESIGN CHOICE, log entry 27). -/
def decodePrecharge (args : List Byte) : Except DecodeError Instr :=
  match args with
  | [present, level] =>
    match decodeFlag present with
    | .ok true => .ok (.programPrecharge (some level))
    | .ok false => .ok (.programPrecharge none)
    | .error e => .error e
  | _ => .error .operandLength

/-- `BLANK`: "one bit `on`" (30_encoding.md R82). -/
def decodeBlank (args : List Byte) : Except DecodeError Instr :=
  match args with
  | [on] =>
    match decodeFlag on with
    | .ok b => .ok (.blank b)
    | .error e => .error e
  | _ => .error .operandLength

/-- A HOSTOP record by its operation code (30_encoding.md R81, R88). R81 gives the reserved codes no operand list: the model's
record of one holds the code alone, and operand bytes behind it are refused (DESIGN CHOICE, log entry 27). -/
def decodeHost (op : Byte) (args : List Byte) : Except DecodeError Instr :=
  match op.toNat with
  | 0x0 => decodeNullary .reserved0 args
  | 0x1 => decodeNullary .init args
  | 0x2 =>
    match args with
    | [xs, ys, xe, ye] => .ok (.setWindow xs ys xe ye)
    | _ => .error .operandLength
  | 0x3 => decodeGamma args
  | 0x4 => decodePrecharge args
  | 0x5 => decodeBlank args
  | 0x6 =>
    match args with
    | [a0, a1, a2, a3, l0, l1, l2, l3] => .ok (.flush (ofLe32 a0 a1 a2 a3) (ofLe32 l0 l1 l2 l3))
    | _ => .error .operandLength
  | 0x7 => decodeNullary .destroy args
  | 0x8 => decodeNullary .reserved8 args
  | 0x9 => decodeNullary .reserved9 args
  | 0xA => decodeNullary .reservedA args
  | 0xB => decodeNullary .reservedB args
  | 0xC => decodeNullary .reservedC args
  | 0xD => decodeNullary .reservedD args
  | 0xE => decodeNullary .reservedE args
  | 0xF => decodeNullary .reservedF args
  | _ => .error .opFieldTooWide

/-- A named frame by the register number its row prints (30_encoding.md R87); the number put on the bus is that of `CFG`
(log entry 3). -/
def decodeFrame (reg : Byte) (args : List Byte) : Except DecodeError Instr :=
  match reg.toNat with
  | 0xB8 =>
    match vectorOf? 15 args with
    | some levels => .ok (.regGamma levels)
    | none => .error .operandLength
  | 0x00 => decodeNullary .regGammaEnd args
  | 0x15 => decodeNullary .regSetColumn args
  | 0x75 =>
    match args with
    | [ys, ye] => .ok (.regSetRow ys ye)
    | _ => .error .operandLength
  | 0x5C => decodeNullary .windowTrailerFrame args
  | 0xBB =>
    match args with
    | [level] => .ok (.regPrecharge level)
    | _ => .error .operandLength
  | 0xAE => decodeNullary .regDisplayOff args
  | 0xAF => decodeNullary .regDisplayOn args
  | _ => .error .noSuchFrame

/-- A step of the power-up sequence by its number (44_lifecycle.md R193: "This spec numbers them 1 to 13"). -/
def decodeInitStep (step : Byte) (args : List Byte) : Except DecodeError Instr :=
  match step.toNat with
  | 1 => decodeNullary .initStep01 args
  | 2 => decodeNullary .initStep02 args
  | 3 => decodeNullary .initStep03 args
  | 4 => decodeNullary .initStep04 args
  | 5 => decodeNullary .initStep05 args
  | 6 => decodeNullary .initStep06 args
  | 7 => decodeNullary .initStep07 args
  | 8 => decodeNullary .initStep08 args
  | 9 => decodeNullary .initStep09 args
  | 10 => decodeNullary .initStep10 args
  | 11 => decodeNullary .initStep11 args
  | 12 => decodeNullary .initStep12 args
  | 13 => decodeNullary .initStep13 args
  | _ => .error .noSuchStep

/-- The micro-operation `DATA_BURST(n_out)` (40_command_protocol.md R115). -/
def decodeData (b0 : Byte) (args : List Byte) : Except DecodeError Instr :=
  match args with
  | [b1, b2, b3] => .ok (.dataBurst (ofLe32 b0 b1 b2 b3))
  | _ => .error .operandLength

/-- The record by its port, before the ranges of its operands are checked. -/
def decodePort (port : Port) (b : Byte) (args : List Byte) : Except DecodeError Instr :=
  match port with
  | .host => decodeHost b args
  | .frame => decodeFrame b args
  | .send => .ok (.send b args)
  | .initStep => decodeInitStep b args
  | .data => decodeData b args

/-- Only a well-formed instruction comes out of the decoder. -/
def checked (r : Except DecodeError Instr) : Except DecodeError Instr :=
  match r with
  | .ok i => if i.wf then .ok i else .error .illFormed
  | .error e => .error e

/-- The decoder: total on any record, rejecting by name. -/
def decode (r : Request) : Except DecodeError Instr :=
  match r.bytes with
  | [] => .error .emptyRecord
  | b :: args => checked (decodePort r.port b args)

/-! ## The encoder -/

/-- A one-bit operand as a byte. -/
def flagByte (b : Bool) : Byte := if b then 1 else 0

/-- The record of an instruction, written from the tables of 30_encoding.md R81, R82 and R87 and 44_lifecycle.md R193. -/
def encode (i : Instr) : Request :=
  match i with
  | .init => ⟨.host, [0x1]⟩
  | .setWindow xs ys xe ye => ⟨.host, [0x2, xs, ys, xe, ye]⟩
  | .programGamma curve => ⟨.host, 0x3 :: curve.toList.flatMap fun w => le32 w.toNat⟩
  | .programPrecharge (some level) => ⟨.host, [0x4, 1, level]⟩
  | .programPrecharge none => ⟨.host, [0x4, 0, 0]⟩
  | .blank on => ⟨.host, [0x5, flagByte on]⟩
  | .flush offset len => ⟨.host, 0x6 :: (le32 offset ++ le32 len)⟩
  | .destroy => ⟨.host, [0x7]⟩
  | .reserved0 => ⟨.host, [0x0]⟩
  | .reserved8 => ⟨.host, [0x8]⟩
  | .reserved9 => ⟨.host, [0x9]⟩
  | .reservedA => ⟨.host, [0xA]⟩
  | .reservedB => ⟨.host, [0xB]⟩
  | .reservedC => ⟨.host, [0xC]⟩
  | .reservedD => ⟨.host, [0xD]⟩
  | .reservedE => ⟨.host, [0xE]⟩
  | .reservedF => ⟨.host, [0xF]⟩
  | .send reg params => ⟨.send, reg :: params⟩
  | .regGamma levels => ⟨.frame, 0xB8 :: levels.toList⟩
  | .regGammaEnd => ⟨.frame, [0x00]⟩
  | .regSetColumn => ⟨.frame, [0x15]⟩
  | .regSetRow ys ye => ⟨.frame, [0x75, ys, ye]⟩
  | .windowTrailerFrame => ⟨.frame, [0x5C]⟩
  | .regPrecharge level => ⟨.frame, [0xBB, level]⟩
  | .regDisplayOff => ⟨.frame, [0xAE]⟩
  | .regDisplayOn => ⟨.frame, [0xAF]⟩
  | .initStep01 => ⟨.initStep, [1]⟩
  | .initStep02 => ⟨.initStep, [2]⟩
  | .initStep03 => ⟨.initStep, [3]⟩
  | .initStep04 => ⟨.initStep, [4]⟩
  | .initStep05 => ⟨.initStep, [5]⟩
  | .initStep06 => ⟨.initStep, [6]⟩
  | .initStep07 => ⟨.initStep, [7]⟩
  | .initStep08 => ⟨.initStep, [8]⟩
  | .initStep09 => ⟨.initStep, [9]⟩
  | .initStep10 => ⟨.initStep, [10]⟩
  | .initStep11 => ⟨.initStep, [11]⟩
  | .initStep12 => ⟨.initStep, [12]⟩
  | .initStep13 => ⟨.initStep, [13]⟩
  | .dataBurst nOut => ⟨.data, le32 nOut⟩

/-! ## Words of the opcode table as records (log entry 4) -/

/-- The bytes of a table word, the first in bits 7:0. -/
def tableBytes (nbits w : Nat) : List Byte :=
  (List.range ((nbits + 7) / 8)).map fun k => BitVec.ofNat 8 (w / 256 ^ k)

/-- The port of a table word, by its value: the three formats use the same bits, and a table word does not say which format
it is of. A word below 16 is read as an operation code. -/
def tablePort (b : Nat) : Port :=
  if b < 16 then .host
  else if b = 0xB8 ∨ b = 0x15 ∨ b = 0x75 ∨ b = 0x5C ∨ b = 0xBB ∨ b = 0xAE ∨ b = 0xAF then .frame
  else .send

/-- How many operand bytes follow the first byte `b` of a record on a port. -/
def operandCount (port : Port) (b : Nat) : Nat :=
  match port with
  | .host => if b = 2 then 4 else if b = 3 then 60 else if b = 4 then 2 else if b = 5 then 1 else if b = 6 then 8 else 0
  | .frame => if b = 0xB8 then 15 else if b = 0x75 then 2 else if b = 0xBB then 1 else 0
  | .send => 0
  | .initStep => 0
  | .data => 3

/-- The record of a table word: its bytes, then operand bytes of zero. -/
def tableRequest (nbits w : Nat) : Request :=
  let b := w % 256
  let port := tablePort b
  ⟨port, (tableBytes nbits w ++ List.replicate 64 0).take (1 + operandCount port b)⟩

/-- The instruction the decoder reads from a table word; `none` where it refuses. -/
def decodeTableWord (nbits w : Nat) : Option Instr :=
  match decode (tableRequest nbits w) with
  | .ok i => some i
  | .error _ => none

end Sys2Proof
end

