-- ==== Sys2Proof/Machine/State.lean ====
section
/-! DEFINITION. The state of one PNE instance (10_state.md R20), the reasons a step stops, and the state after reset
(10_state.md R39). -/

namespace Sys2Proof.Machine

/-- Bytes by address: strictly rising addresses, and an address that is not listed holds no value (log entries 11, 12). -/
abbrev Memory := List Host.Cell

/-- The canonical form: addresses strictly rising, so that equal memories are equal data. -/
abbrev Memory.wf (m : Memory) : Prop := m.Pairwise fun p q => p.1 < q.1

/-- The five values of `life` (10_state.md R24, 44_lifecycle.md R190). -/
inductive Life where
  | uninitialized
  | initializing
  | on
  | blanked
  | destroyed
  deriving DecidableEq, Repr

/-- The command/data select line's two driven values (10_state.md R26). -/
inductive Select where
  | cmd
  | data
  deriving DecidableEq, Repr

/-- The window PNE last programmed (10_state.md R30). -/
structure Window where
  colStart : Byte
  colEnd : Byte
  rowStart : Byte
  rowEnd : Byte
  deriving DecidableEq, Repr

/-- Which test of the curve failed (60_exceptions.md R217). -/
inductive CurveCause where
  | zeroStep
  | sumExceeds
  deriving DecidableEq, Repr

/-- The four error kinds (60_exceptions.md R215). -/
inductive Err where
  | busTransferFailed
  | invalidCurve (index : Nat) (value : Word32) (cause : CurveCause)
  | bufferUnavailable
  | invalidParameter
  deriving DecidableEq, Repr

/-- The result of an operation (10_state.md R27): `Ok` or `Err(kind, info)`. -/
inductive Response where
  | ok
  | err (e : Err)
  deriving DecidableEq, Repr

/-- One event of the trace (10_state.md R38); `answer` is `never` for the burst a stalled bus left (log entry 7). -/
structure Burst where
  dc : Select
  bytes : List Byte
  answer : BusAnswer
  deriving DecidableEq, Repr

/-- The working registers (10_state.md R22) that a stalled operation can hold: the accumulator and the level store after the
curve's loop, and the output count after the encode step (log entry 19). -/
structure Working where
  acc : Option Nat
  lvl : List Byte
  nOut : Option Nat
  deriving DecidableEq, Repr

/-- "A working register holds no value at the start of an operation" (10_state.md R22). -/
def Working.empty : Working := ⟨none, [], none⟩

/-- The operation in progress: the operands it latched (10_state.md R21) and its working registers. -/
structure InProgress where
  instr : Instr
  work : Working
  deriving DecidableEq, Repr

/-- What the host and the platform do to PNE beside requests (log entry 16). -/
inductive Event where
  /-- The host attaches a framebuffer of a length it declares (10_state.md R34, 20_memory.md R52). -/
  | attachFb (len : Nat) (cells : List Host.Cell)
  /-- The host detaches the framebuffer. -/
  | detachFb
  /-- The host writes a byte of `FB` between operations (20_memory.md R62 (c)). -/
  | hostWrite (addr : Nat) (byte : Byte)
  /-- The host writes a byte of `FB` during the encode step of the next `FLUSH` (20_memory.md R58). -/
  | hostWriteDuringFlush (addr : Nat) (byte : Byte)
  /-- The platform acquires the bus (70_reset_and_hazards.md R253). -/
  | acquireBus
  /-- The bus is no longer acquired and idle (40_command_protocol.md R111). -/
  | releaseBus
  deriving DecidableEq, Repr

/-- One input at PNE's boundary. -/
inductive Input where
  | request (r : Request)
  | event (e : Event)
  deriving DecidableEq, Repr

/-- The state of one instance: what 10_state.md R20 lists, and the model's own fields (log entries 6, 11 to 16). -/
structure State where
  /-- The configuration, never written (R28). -/
  cfg : Cfg
  /-- The lifecycle state (R24). -/
  life : Life
  /-- The scratch buffer is allocated (R33). -/
  txValid : Bool
  /-- The written bytes of the scratch buffer (R33). -/
  tx : Memory
  /-- Indexes the free bytes of `TX` (log entry 11). -/
  txEpoch : Nat
  /-- The select line; `none` is "unknown" (R26, R39). -/
  dc : Option Select
  /-- The record of the window; `none` is "unknown" (R30). -/
  win : Option Window
  /-- The operation in progress, with its operands and working registers; `busy` is `op.isSome` (R37, R21, R22). -/
  op : Option InProgress
  /-- A framebuffer is attached: an input of the host (R34). -/
  fbPresent : Bool
  /-- `FB_LEN`, the length the host declares (20_memory.md R52). -/
  fbLen : Nat
  /-- The bytes of the framebuffer that the state knows (R32). -/
  fb : Memory
  /-- Indexes the free bytes of `FB` (log entry 12). -/
  fbEpoch : Nat
  /-- Bytes the host writes during the encode step of the next `FLUSH` (20_memory.md R58, log entry 13). -/
  fbRace : Memory
  /-- Indexes the free old-or-new choices (log entry 13). -/
  raceDraw : Nat
  /-- The bus is acquired and idle: an input of the platform (40_command_protocol.md R111). -/
  busReady : Bool
  /-- The answers of the bus that the environment has fixed, by burst number (R118, log entry 6). -/
  busScript : List BusAnswer
  /-- How many bursts the bus has been asked for (log entry 6). -/
  asked : Nat
  /-- The bursts emitted since reset, oldest first (R38). -/
  trace : List Burst
  /-- What the host received from the last operation (R27, log entry 14). -/
  response : Option Response
  /-- The inputs waiting at PNE's boundary, oldest first (log entry 16). -/
  inbox : List Input
  deriving DecidableEq, Repr

/-- Why the machine stops with a fault: an access to a byte that does not exist. PNE's own error kinds are no faults of this
type: they are results, in `State.response` (60_exceptions.md R222). -/
inductive Fault where
  /-- Raised by DATA_BURST run on its own when the scratch buffer is not allocated (10_state.md R33). Safe: the machine stops
  where the spec gives nothing (log entry 17). -/
  | txAbsent
  /-- Raised by DATA_BURST run on its own with more bytes than `TX` has (10_state.md R33). Safe (log entry 17). -/
  | txOutOfRange (nOut : Nat)
  /-- Raised by a host write outside `FB` (20_memory.md R50). Safe: it is an event, not an instruction (log entry 16). -/
  | fbOutOfRange (addr : Nat)
  deriving DecidableEq, Repr

/-- Why a request is given no meaning (60_exceptions.md R226). Each is safe: the spec defines no result and no state. -/
inductive Refusal where
  /-- Raised by an arm of `exec` that has no meaning yet. Safe. No arm of this model is one. -/
  | notModelled (mnemonic : String)
  /-- Raised by every instruction while another operation is in progress (10_state.md R37). Safe. -/
  | requestWhileBusy
  /-- Raised by an operation outside its lifecycle states (44_lifecycle.md R199). Safe. -/
  | notAccepted (life : Life)
  /-- Raised by an operation that reaches a SEND or DATA_BURST while the bus is not acquired and idle
  (40_command_protocol.md R111). Safe. -/
  | busNotAcquired
  /-- Raised by a step whose record is no request (30_encoding.md R80, log entry 2). Safe. -/
  | malformedRecord (e : DecodeError)
  deriving DecidableEq, Repr

/-- The default length of the framebuffer for a configuration (20_memory.md R52). -/
def defaultFbLen (cfg : Cfg) : Nat :=
  match cfg.srcFmt with
  | .gray4 => cfg.width * cfg.height / 2
  | .color16 => cfg.width * cfg.height * 2

/-- Reset is the construction of the instance with a configuration (70_reset_and_hazards.md R250, 10_state.md R39). The
inputs of the host and the platform are at the values of log entries 6, 12, 13, 15 and 16. -/
def State.constructed (cfg : Cfg) : State where
  cfg := cfg
  life := .uninitialized
  txValid := false
  tx := []
  txEpoch := 0
  dc := none
  win := none
  op := none
  fbPresent := false
  fbLen := defaultFbLen cfg
  fb := []
  fbEpoch := 0
  fbRace := []
  raceDraw := 0
  busReady := true
  busScript := []
  asked := 0
  trace := []
  response := none
  inbox := []

/-- The machine right after reset, constructed with the configuration of log entry 9. -/
def State.reset : State := State.constructed Config.resetCfg

end Sys2Proof.Machine
end

