-- ==== Sys2Proof/Machine/Memory.lean ====
section
/-! DEFINITION. The named operations over the byte memories `FB` and `TX` (00_scope.md R11, 20_memory.md R57): every access
is one byte, and a block write is its bytes in address order. -/

namespace Sys2Proof.Machine

/-- The byte at an address; `none` where nothing is listed. -/
def Memory.read? (m : Memory) (a : Nat) : Option Byte :=
  m.lookup a

/-- The cells of a block of bytes placed at an address. -/
def cellsAt : Nat → List Byte → Memory
  | _, [] => []
  | a, b :: bs => (a, b) :: cellsAt (a + 1) bs

/-- `MemWrite` of 00_scope.md R11: the bytes of the list at `a`, `a + 1`, and so on. -/
def Memory.writeBytes (m : Memory) (a : Nat) (bs : List Byte) : Memory :=
  m.filter (fun c => decide (c.1 < a)) ++ cellsAt a bs ++ m.filter (fun c => decide (a + bs.length ≤ c.1))

/-- The write of one byte. -/
def Memory.write (m : Memory) (a : Nat) (b : Byte) : Memory :=
  m.writeBytes a [b]

/-- The bytes of a second memory written over a first. -/
def Memory.overlay (m later : Memory) : Memory :=
  later.foldl (fun m c => m.write c.1 c.2) m

/-- The cells of a list that lie below a length, in canonical form. -/
def Memory.ofCells (len : Nat) (cells : List Host.Cell) : Memory :=
  Memory.overlay [] (cells.filter fun c => decide (c.1 < len))

/-! ## The two address spaces (10_state.md R32) -/

/-- `TX[a]`: a byte that was not written is unspecified, a free value (10_state.md R33, log entry 11). -/
def State.txByte (s : State) (a : Nat) : Byte :=
  (s.tx.read? a).getD (Config.txByte s.txEpoch a)

/-- `MemRead(TX:0, n)` (00_scope.md R11): the first `n` bytes of `TX` in address order. -/
def State.txBytes (s : State) (n : Nat) : List Byte :=
  (List.range n).map s.txByte

/-- `FB[a]`: a byte the state does not list is the host's, a free value (log entry 12). -/
def State.fbByte (s : State) (a : Nat) : Byte :=
  (s.fb.read? a).getD (Config.fbByte s.fbEpoch a)

/-- `FB[a]` as the encode step reads it: where the host writes that byte meanwhile, "each byte PNE reads may be the old or
the new value" (20_memory.md R58), a free choice (log entry 13). -/
def State.fbSample (s : State) (a : Nat) : Byte :=
  match s.fbRace.read? a with
  | none => s.fbByte a
  | some new => if Config.raceTakesNew s.raceDraw a then new else s.fbByte a

/-- The encoder's output written to `TX` from its beginning (20_memory.md R59). -/
def State.storeTx (s : State) (bs : List Byte) : State :=
  { s with tx := s.tx.writeBytes 0 bs }

/-- The end of the encode step: the host's writes of meanwhile have landed, and `FB` is no longer borrowed (R58). -/
def State.endBorrow (s : State) : State :=
  { s with fb := s.fb.overlay s.fbRace, fbRace := [], raceDraw := s.raceDraw + 1 }

/-- The contents of `TX` become unspecified (10_state.md R33, 44_lifecycle.md R198). -/
def State.forgetTx (s : State) : State :=
  { s with tx := [], txEpoch := s.txEpoch + 1 }

end Sys2Proof.Machine
end

