-- ==== Sys2Proof/Machine/Operands.lean ====
section
/-! DEFINITION. Operand forms and operand assembly (30_encoding.md R86): the derived sizes, nibble doubling, the curve's
levels, the frames of each operation, the pixels of both formats. -/

namespace Sys2Proof.Machine

/-! ## Derived sizes -/

/-- `TXBUF_SIZE`: one byte per panel pixel (10_state.md R33). -/
def txbufSize (cfg : Cfg) : Nat := cfg.width * cfg.height

/-- `STRIDE`, the bytes of one framebuffer row: the default `WIDTH/2` or `2*WIDTH`, "never less" (00_scope.md R9), and the
row's padding. A COLOR16 row is padded by whole pixels, since R170 has every pixel at an even address (log entry 20). An odd
`WIDTH` is halved downwards, and a `STRIDE` of 0 is not excluded (DESIGN CHOICE, log entry 25). -/
def stride (cfg : Cfg) : Nat :=
  match cfg.srcFmt with
  | .gray4 => cfg.width / 2 + cfg.rowPad
  | .color16 => 2 * (cfg.width + cfg.rowPad)

/-! ## Nibble doubling (00_scope.md R14, 43_pixel_encoder.md R167) -/

/-- `dbl_lo(b) = (b & 0x0F) | ((b & 0x0F) << 4)`. -/
def dblLo (b : Byte) : Byte := (b &&& 0x0F) ||| ((b &&& 0x0F) <<< 4)

/-- `dbl_hi(b) = (b & 0xF0) | ((b & 0xF0) >> 4)`. -/
def dblHi (b : Byte) : Byte := (b &&& 0xF0) ||| ((b &&& 0xF0) >>> 4)

/-! ## The curve (41_gamma.md R131) -/

/-- The loop of `GammaLevels` from index `i` with the accumulator `acc` (41_gamma.md R131): the remaining levels, or the
first failing index. The accumulator is a natural number, so the sum is exact (R134). -/
def gammaLoop (i acc : Nat) (steps : List Word32) : Except Err (List Byte) :=
  match steps with
  | [] => .ok []
  | c :: rest =>
    if i ≠ 0 ∧ c.toNat < 1 then .error (.invalidCurve i c .zeroStep)
    else
      let sum := if i = 0 then c.toNat else acc + c.toNat
      if sum > 180 then .error (.invalidCurve i c .sumExceeds)
      else
        match gammaLoop (i + 1) sum rest with
        | .ok lvls => .ok (BitVec.ofNat 8 sum :: lvls)
        | .error e => .error e

/-- `GammaLevels(curve)` of 41_gamma.md R131: the fifteen absolute levels, or `InvalidCurve`. -/
def gammaLevels (curve : Curve) : Except Err (List Byte) :=
  gammaLoop 0 0 curve.toList

/-! ## Frames (30_encoding.md R86, R87) -/

/-- The frame REG_GAMMA: register 0xB8 and its parameters, GS1 first (41_gamma.md R132). -/
def frameGamma (levels : List Byte) : Frame := ⟨0xB8, levels⟩

/-- The frame REG_GAMMA_END, "a terminating command" (41_gamma.md R132). -/
def frameGammaEnd (cfg : Cfg) : Frame := ⟨cfg.regGammaEnd, []⟩

/-- The frame REG_SET_COLUMN: "the constants 28 and 91" (30_encoding.md R86, 42_window.md R151). -/
def frameSetColumn (cfg : Cfg) : Frame := ⟨cfg.regSetColumn, [28, 91]⟩

/-- The frame REG_SET_ROW: `ys` and `ye`, verbatim (30_encoding.md R86, 42_window.md R152). -/
def frameSetRow (cfg : Cfg) (ys ye : Byte) : Frame := ⟨cfg.regSetRow, [ys, ye]⟩

/-- The frame REG_PRECHARGE: the level as it is (41_gamma.md R137). -/
def framePrecharge (cfg : Cfg) (level : Byte) : Frame := ⟨cfg.regPrecharge, [level]⟩

/-- The frame REG_DISPLAY_OFF (44_lifecycle.md R197). -/
def frameDisplayOff (cfg : Cfg) : Frame := ⟨cfg.regDisplayOff, []⟩

/-- The frame REG_DISPLAY_ON (44_lifecycle.md R197). -/
def frameDisplayOn (cfg : Cfg) : Frame := ⟨cfg.regDisplayOn, []⟩

/-- The frames of one list of `INIT_SEQ`, in list order (44_lifecycle.md R192). -/
def Frames.toList (fs : Frames) : List Frame := fs.first :: fs.more

/-- The frames of step 7, chosen by the rotation (44_lifecycle.md R195). -/
def remapFrames (cfg : Cfg) : List Frame :=
  match cfg.rotate with
  | .deg0 => Frames.toList cfg.initSeq.remap0
  | .deg180 => Frames.toList cfg.initSeq.remap180

/-- The frames of `SET_WINDOW` in order: column, row, trailer (42_window.md R150). -/
def windowFrames (cfg : Cfg) (ys ye : Byte) : List Frame :=
  [frameSetColumn cfg, frameSetRow cfg ys ye] ++ cfg.windowTrailer

/-- The frames of `GammaProgram` after a curve was found valid (41_gamma.md R132). -/
def gammaFrames (cfg : Cfg) (levels : List Byte) : List Frame :=
  [frameGamma levels, frameGammaEnd cfg]

/-- The frame of `BLANK on` (44_lifecycle.md R197). -/
def blankFrame (cfg : Cfg) (on : Bool) : Frame :=
  if on then frameDisplayOff cfg else frameDisplayOn cfg

/-! ## Pixels -/

/-- `EncodeGray4` from source address `a` for `n` source bytes (43_pixel_encoder.md R168): the left pixel's byte, then the
right pixel's, for each. -/
def encodeGray4 (s : State) (a n : Nat) : List Byte :=
  match n with
  | 0 => []
  | n + 1 => dblLo (s.fbSample a) :: dblHi (s.fbSample a) :: encodeGray4 s (a + 1) n

/-- The output byte of the 16-bit pixel at byte address `a`: one nibble of the byte at the odd address, doubled
(20_memory.md R53, 43_pixel_encoder.md R169). -/
def encodePixel (s : State) (a : Nat) : Byte :=
  match s.cfg.color16Nibble with
  | .high => dblHi (s.fbSample (a + 1))
  | .low => dblLo (s.fbSample (a + 1))

/-- One row of `EncodeColor16`: `w` pixels from byte address `a` (43_pixel_encoder.md R170). -/
def encodeRow (s : State) (a w : Nat) : List Byte :=
  match w with
  | 0 => []
  | w + 1 => encodePixel s a :: encodeRow s (a + 2) w

/-- `EncodeColor16`: `h` rows of `w` pixels from byte address `a`, one row every `step` bytes (43_pixel_encoder.md R170). -/
def encodeColor16 (s : State) (a step w h : Nat) : List Byte :=
  match h with
  | 0 => []
  | h + 1 => encodeRow s a w ++ encodeColor16 s (a + step) step w h

/-- Step 3 of `FLUSH`: the output bytes of the span in the mode of `CFG.src_fmt` (43_pixel_encoder.md R165). -/
def encodeSpan (s : State) (offset len : Nat) : List Byte :=
  match s.cfg.srcFmt with
  | .gray4 => encodeGray4 s offset len
  | .color16 => encodeColor16 s offset (stride s.cfg) s.cfg.width (len / stride s.cfg)

/-- `n_out`, the number of output bytes of a span (43_pixel_encoder.md R171). Where `STRIDE` is 0 the quotient is 0 (DESIGN
CHOICE, log entry 25). -/
def spanOutput (cfg : Cfg) (len : Nat) : Nat :=
  match cfg.srcFmt with
  | .gray4 => 2 * len
  | .color16 => cfg.width * (len / stride cfg)

/-- The 4-bit pixel at column `px`, row `py` of a GRAY4 framebuffer, as the host stored it (20_memory.md R51). -/
def gray4Pixel (s : State) (px py : Nat) : BitVec 4 :=
  let b := s.fbByte (py * stride s.cfg + px / 2)
  if px % 2 = 0 then b.extractLsb' 0 4 else b.extractLsb' 4 4

/-- The luma byte of the pixel at column `px`, row `py` of a COLOR16 framebuffer (20_memory.md R53, 43_pixel_encoder.md
R170): the byte at the odd address. -/
def color16Luma (s : State) (px py : Nat) : Byte :=
  s.fbByte (py * stride s.cfg + 2 * px + 1)

end Sys2Proof.Machine
end

