-- ==== Sys2Proof/Machine/Flags.lean ====
section
/-! DEFINITION. The flag-like state and the tests over it: `busy` (10_state.md R37), the level of the select line (R26), the
presence and span tests of `FLUSH` (43_pixel_encoder.md R165), and the acceptance table (44_lifecycle.md R199). -/

namespace Sys2Proof.Machine

/-- `busy`: an operation is in progress (10_state.md R37). -/
def State.busy (s : State) : Bool := s.op.isSome

/-- The electrical level of the select line under `DC_LEVEL_CMD` and `DC_LEVEL_DATA`; unknown while `dc` is (R26, R9). -/
def State.dcLevel (s : State) : Option Bool :=
  s.dc.map fun c =>
    match c with
    | .cmd => s.cfg.dcLevelCmd
    | .data => s.cfg.dcLevelData

/-- `On` or `Blanked`: where SET_WINDOW, PROGRAM_GAMMA, PROGRAM_PRECHARGE and BLANK are accepted (44_lifecycle.md R199). -/
def Life.working (l : Life) : Bool :=
  match l with
  | .on | .blanked => true
  | .uninitialized | .initializing | .destroyed => false

/-- `INIT` is "accepted only in `Uninitialized`" (44_lifecycle.md R192). -/
def Life.takesInit (l : Life) : Bool :=
  match l with
  | .uninitialized => true
  | .initializing | .on | .blanked | .destroyed => false

/-- `DESTROY` is "accepted in `On`, `Blanked` and `Uninitialized`" (44_lifecycle.md R198). -/
def Life.takesDestroy (l : Life) : Bool :=
  match l with
  | .uninitialized | .on | .blanked => true
  | .initializing | .destroyed => false

/-- Where a micro-operation run on its own is accepted (log entry 5): everywhere but in `Destroyed`, "no further operations
are valid" (44_lifecycle.md R190). -/
def Life.takesMicro (l : Life) : Bool :=
  match l with
  | .destroyed => false
  | .uninitialized | .initializing | .on | .blanked => true

/-- Step 1 of `FLUSH`: both buffers are there (43_pixel_encoder.md R173). -/
def State.buffersPresent (s : State) : Bool := s.txValid && s.fbPresent

/-- Step 2 of `FLUSH`: the span lies in the framebuffer, its output fits `TX`, and in COLOR16 mode it starts on a pixel and
is a whole number of rows (43_pixel_encoder.md R165, R166). 00_scope.md R10 gives `mod` and `div` only for a divisor above 0:
where `STRIDE` is 0, only the empty span is a whole number of rows (DESIGN CHOICE, log entry 25). -/
def State.spanOk (s : State) (offset len : Nat) : Bool :=
  decide (offset + len ≤ s.fbLen) &&
    match s.cfg.srcFmt with
    | .gray4 => decide (2 * len ≤ txbufSize s.cfg)
    | .color16 =>
      decide (offset % 2 = 0) && decide (len % stride s.cfg = 0) &&
        decide (s.cfg.width * (len / stride s.cfg) ≤ txbufSize s.cfg)

/-- The level of `PROGRAM_PRECHARGE` is legal: "range 0x00–0x1F" (41_gamma.md R137). -/
def prechargeLegal (level : Byte) : Bool := decide (level.toNat ≤ 0x1F)

/-- The numeric status of a response (30_encoding.md R83). -/
def Response.code (r : Response) : Nat :=
  match r with
  | .ok => 0
  | .err .busTransferFailed => 1
  | .err (.invalidCurve ..) => 2
  | .err .bufferUnavailable => 3
  | .err .invalidParameter => 4

end Sys2Proof.Machine
end

