-- ==== Sys2Proof/Machine/Ops.lean ====
section
/-! DEFINITION. The shared operations: starting an operation, the bus primitives and the command protocol layer
(00_scope.md R12, 40_command_protocol.md R112, R115), raising an error and delivering the result (60_exceptions.md R222). -/

namespace Sys2Proof.Machine

/-- Where the body of an operation stands: it goes on, it has raised an error (00_scope.md R13), or it waits for ever for a
bus that does not answer (60_exceptions.md R233). -/
inductive Status where
  | running
  | raised (e : Err)
  | stalled
  deriving DecidableEq, Repr

/-- The state an operation's body has reached, and where the body stands. -/
structure Run where
  st : State
  status : Status
  deriving DecidableEq, Repr

/-- The body goes on from a state. -/
def Run.go (s : State) : Run := ⟨s, .running⟩

/-- The next statement of a body: it runs only where the body still goes on, since "`raise` ends the operation at that
statement" (00_scope.md R13). -/
def Run.andThen (r : Run) (f : State → Run) : Run :=
  match r.status with
  | .running => f r.st
  | .raised _ => r
  | .stalled => r

/-- `raise E(info)` (00_scope.md R13): taking an error ends the body; what was written stays written. -/
def raise (e : Err) (s : State) : Run := ⟨s, .raised e⟩

/-! ## The bus primitives (00_scope.md R12) -/

/-- The bus's answer to burst number `n`: what the environment has fixed, else a free value (40_command_protocol.md R118,
log entry 6). -/
def State.answerTo (s : State) (n : Nat) : BusAnswer :=
  s.busScript.getD n (Config.busAnswer n)

/-- `SetDC(c)`: drives the select line (00_scope.md R12). -/
def setDC (c : Select) (s : State) : Run := Run.go { s with dc := some c }

/-- What the body does with the answer to a burst: `fail` raises `BusTransferFailed` (40_command_protocol.md R112), and a
bus that never answers leaves the operation waiting (60_exceptions.md R233, log entry 7). -/
def statusOf (a : BusAnswer) : Status :=
  match a with
  | .ok => .running
  | .fail => .raised .busTransferFailed
  | .never => .stalled

/-- `BusWrite(bytes)` at select level `c`, and the test of its answer: one event is appended to the trace
(00_scope.md R12, 10_state.md R38). -/
def busWrite (c : Select) (bytes : List Byte) (s : State) : Run :=
  let a := s.answerTo s.asked
  ⟨{ s with trace := s.trace ++ [⟨c, bytes, a⟩], asked := s.asked + 1 }, statusOf a⟩

/-! ## The command protocol layer -/

/-- `SEND(reg, params)` (40_command_protocol.md R112). -/
def send (reg : Byte) (params : List Byte) (s : State) : Run :=
  ((setDC .cmd s).andThen (busWrite .cmd [reg])).andThen fun s =>
    match params with
    | [] => Run.go s
    | _ :: _ => (setDC .data s).andThen (busWrite .data params)

/-- The frames of a list, in list order: "for each (reg, params) ..., in list order: SEND(reg, params)" (42_window.md R150,
44_lifecycle.md R192). -/
def sendFrames (fs : List Frame) (s : State) : Run :=
  match fs with
  | [] => Run.go s
  | f :: rest => (send f.reg f.params s).andThen (sendFrames rest)

/-- `DATA_BURST(n_out)` (40_command_protocol.md R115). -/
def sendTx (nOut : Nat) (s : State) : Run :=
  (setDC .data s).andThen fun s =>
    if nOut > 0 then busWrite .data (s.txBytes nOut) s else Run.go s

/-! ## Working registers (10_state.md R22) -/

/-- A change of the working registers of the operation in progress. -/
def State.work (s : State) (f : Working → Working) : State :=
  { s with op := s.op.map fun p => { p with work := f p.work } }

/-- The curve's loop has ended: the levels are stored and the accumulator holds the last of them (41_gamma.md R131). -/
def State.storeLevels (s : State) (levels : List Byte) : State :=
  s.work fun w => { w with lvl := levels, acc := levels.getLast?.map BitVec.toNat }

/-- The encode step has ended: `n_out` holds its output count (43_pixel_encoder.md R165). -/
def State.storeCount (s : State) (n : Nat) : State :=
  s.work fun w => { w with nOut := some n }

/-! ## Start and end of an operation -/

/-- The state in which an operation's body starts: the operands are latched (10_state.md R21), no working register holds a
value (R22), and the host has received no result yet. -/
def State.latch (s : State) (i : Instr) : State := { s with op := some ⟨i, Working.empty⟩, response := none }

/-- The start of an operation: "an operation starts only when `busy = false`" (10_state.md R23), and a request that arrives
while it is true is refused (R37). -/
def start (i : Instr) (s : State) (body : State → Host.Outcome State Fault Refusal) :
    Host.Outcome State Fault Refusal :=
  if s.busy then .refused .requestWhileBusy else body (s.latch i)

/-- The lifecycle test: a request not accepted in the current state is refused (44_lifecycle.md R199, 60_exceptions.md
R226). -/
def needLife (accepts : Life → Bool) (s : State) (body : Host.Outcome State Fault Refusal) :
    Host.Outcome State Fault Refusal :=
  if accepts s.life then body else .refused (.notAccepted s.life)

/-- "bus is acquired and idle" (40_command_protocol.md R111): a SEND or DATA_BURST issued when it is not is refused. -/
def needBus (s : State) (body : Host.Outcome State Fault Refusal) : Host.Outcome State Fault Refusal :=
  if s.busReady then body else .refused .busNotAcquired

/-- The bus test of an operation that comes to a SEND only in some cases. -/
def needBusIf (sends : Bool) (s : State) (body : Host.Outcome State Fault Refusal) : Host.Outcome State Fault Refusal :=
  if sends then needBus s body else body

/-- The state after delivery of the result, in place of a trap entry and its return (60_exceptions.md R222, R224): `busy`
becomes false and the host receives `Ok` or `Err`; an operation that waits for the bus never returns and stays busy (R233). -/
def Run.delivered (r : Run) : State :=
  match r.status with
  | .running => { r.st with op := none, response := some .ok }
  | .raised e => { r.st with op := none, response := some (.err e) }
  | .stalled => r.st

/-- The end of a host operation. -/
def deliver (r : Run) : Host.Outcome State Fault Refusal := .next r.delivered

/-- The state after a micro-operation run on its own: it "falls through to the caller on success" (40_command_protocol.md
R112), so that no result is delivered then; an error ends it as `delivered` does (log entry 5). -/
def Run.fallen (r : Run) : State :=
  match r.status with
  | .running => { r.st with op := none }
  | .raised e => { r.st with op := none, response := some (.err e) }
  | .stalled => r.st

/-- The end of a micro-operation run on its own. -/
def fallThrough (r : Run) : Host.Outcome State Fault Refusal := .next r.fallen

/-- The micro-operations that come to a SEND in every case. -/
def always (_ : State) : Bool := true

/-- A micro-operation run on its own (log entry 5); `sends` says whether it comes to a SEND at all. -/
def micro (i : Instr) (s : State) (sends : State → Bool) (body : State → Run) : Host.Outcome State Fault Refusal :=
  start i s fun s => needLife Life.takesMicro s (needBusIf (sends s) s (fallThrough (body s)))

/-- An operation that names nothing: "`Err(InvalidParameter)`, sends nothing, reads and writes no memory, and changes no
state" (30_encoding.md R88). -/
def answerInvalid (i : Instr) (s : State) : Host.Outcome State Fault Refusal :=
  start i s fun s => deliver (raise .invalidParameter s)

end Sys2Proof.Machine
end

