-- ==== Sys2Proof/Machine/Gamma.lean ====
section
/-! DEFINITION. The grayscale curve programmer and the precharge level (41_gamma.md R130 to R137). -/

namespace Sys2Proof.Machine

/-- `GammaProgram(curve)` (41_gamma.md R132): nothing is sent unless the whole curve is valid (R133). -/
def gammaProgram (curve : Curve) (s : State) : Run :=
  match gammaLevels curve with
  | .error e => raise e s
  | .ok levels => sendFrames (gammaFrames s.cfg levels) (s.storeLevels levels)

/-- The curve is valid, so that `GammaProgram` comes to a SEND. -/
def curveOk (curve : Curve) : Bool :=
  match gammaLevels curve with
  | .ok _ => true
  | .error _ => false

/-- `PROGRAM_GAMMA curve` (41_gamma.md R130). The bus must be ready only where a SEND is reached (60_exceptions.md R221). -/
def execProgramGamma (curve : Curve) (s : State) : Host.Outcome State Fault Refusal :=
  start (.programGamma curve) s fun s =>
    needLife Life.working s
      (needBusIf (curveOk curve) s (deliver (gammaProgram curve s)))

/-- `PROGRAM_PRECHARGE level` (41_gamma.md R137). On a variant without the operation the code decodes to nothing, which
comes before the lifecycle test (30_encoding.md R89, 60_exceptions.md R221). -/
def execProgramPrecharge (level : Option Byte) (s : State) : Host.Outcome State Fault Refusal :=
  start (.programPrecharge level) s fun s =>
    if s.cfg.hasPrecharge then
      needLife Life.working s
        (match level with
        | none => deliver (raise .invalidParameter s)
        | some l =>
          if prechargeLegal l then needBus s (deliver (sendFrames [framePrecharge s.cfg l] s))
          else deliver (raise .invalidParameter s))
    else deliver (raise .invalidParameter s)

end Sys2Proof.Machine
end

