-- ==== Sys2Proof/Machine/Lifecycle.lean ====
section
/-! DEFINITION. The display lifecycle (44_lifecycle.md R190 to R200): the power-up sequence and its thirteen steps, blank
and unblank, the end of the instance's life. -/

namespace Sys2Proof.Machine

/-! ## The thirteen steps of the power-up sequence (44_lifecycle.md R193) -/

/-- Step 1, "unlock": `INIT_SEQ[1]`. -/
def stepUnlock (s : State) : Run := sendFrames (Frames.toList s.cfg.initSeq.unlock) s

/-- Step 2, "disable output": `SEND(REG_DISPLAY_OFF, [])`. -/
def stepDisableOutput (s : State) : Run := sendFrames [frameDisplayOff s.cfg] s

/-- Step 3, "set grayscale mode": `GammaProgram(CFG.curve)`, or `INIT_SEQ[3]` (44_lifecycle.md R192). -/
def stepGrayscale (s : State) : Run :=
  match s.cfg.grayscaleStep with
  | .programCurve => gammaProgram s.cfg.curve s
  | .frames seq3 => sendFrames (Frames.toList seq3) s

/-- Step 3 comes to a SEND: unless it programs a curve that is not valid. -/
def grayscaleSends (s : State) : Bool :=
  match s.cfg.grayscaleStep with
  | .programCurve => curveOk s.cfg.curve
  | .frames _ => true

/-- Step 4, "set clock divider": `INIT_SEQ[4]`. -/
def stepClockDivider (s : State) : Run := sendFrames (Frames.toList s.cfg.initSeq.clockDivider) s

/-- Step 5, "set multiplexer ratio": `INIT_SEQ[5]`. -/
def stepMuxRatio (s : State) : Run := sendFrames (Frames.toList s.cfg.initSeq.muxRatio) s

/-- Step 6, "set start line/offset": `INIT_SEQ[6]`. -/
def stepStartLineOffset (s : State) : Run := sendFrames (Frames.toList s.cfg.initSeq.startLineOffset) s

/-- Step 7, "set remap orientation conditioned on a 180° rotation flag": `INIT_SEQ[7]` (44_lifecycle.md R195). -/
def stepRemap (s : State) : Run := sendFrames (remapFrames s.cfg) s

/-- Step 8, "select external supply": `INIT_SEQ[8]`. -/
def stepExternalSupply (s : State) : Run := sendFrames (Frames.toList s.cfg.initSeq.externalSupply) s

/-- Step 9, "set contrast and enhancement registers": `INIT_SEQ[9]`. -/
def stepContrast (s : State) : Run := sendFrames (Frames.toList s.cfg.initSeq.contrastEnhancement) s

/-- Step 10, "set phase length and pre-charge timing": `INIT_SEQ[10]`. -/
def stepPhasePrecharge (s : State) : Run := sendFrames (Frames.toList s.cfg.initSeq.phasePrecharge) s

/-- Step 11, "set VCOMH": `INIT_SEQ[11]`. -/
def stepVcomh (s : State) : Run := sendFrames (Frames.toList s.cfg.initSeq.vcomh) s

/-- Step 12, "select normal (non-inverted) display": `INIT_SEQ[12]`. -/
def stepNormalDisplay (s : State) : Run := sendFrames (Frames.toList s.cfg.initSeq.normalDisplay) s

/-- Step 13, "enable output": `SEND(REG_DISPLAY_ON, [])`. -/
def stepEnableOutput (s : State) : Run := sendFrames [frameDisplayOn s.cfg] s

/-- The steps of a list, in list order. -/
def runSteps (steps : List (State → Run)) (s : State) : Run :=
  match steps with
  | [] => Run.go s
  | f :: rest => (f s).andThen (runSteps rest)

/-- The thirteen steps "in this order" (44_lifecycle.md R192, R193). -/
def initSteps : List (State → Run) :=
  [stepUnlock, stepDisableOutput, stepGrayscale, stepClockDivider, stepMuxRatio, stepStartLineOffset, stepRemap,
    stepExternalSupply, stepContrast, stepPhasePrecharge, stepVcomh, stepNormalDisplay, stepEnableOutput]

/-- The start of `INIT`: `life` is `Initializing` and the window is unknown (44_lifecycle.md R192). -/
def State.beginInit (s : State) : State := { s with life := .initializing, win := none }

/-- What `INIT` does after its sequence: allocation and `On` on success (44_lifecycle.md R196), back to `Uninitialized` on a
raise (R200); a stalled `INIT` stays in `Initializing`. -/
def initEnd (r : Run) : Run :=
  match r.status with
  | .running => Run.go { r.st.forgetTx with txValid := true, life := .on }
  | .raised e => raise e { r.st with life := .uninitialized, txValid := false }
  | .stalled => r

/-- `INIT` (44_lifecycle.md R192). -/
def execInit (s : State) : Host.Outcome State Fault Refusal :=
  start .init s fun s =>
    needLife Life.takesInit s
      (needBus s (deliver (initEnd (runSteps initSteps s.beginInit))))

/-- The body of `BLANK` (44_lifecycle.md R197): `life` is written only when the frame was answered. -/
def blankBody (on : Bool) (s : State) : Run :=
  (sendFrames [blankFrame s.cfg on] s).andThen fun s =>
    Run.go { s with life := if on then .blanked else .on }

/-- `BLANK on` (44_lifecycle.md R197). -/
def execBlank (on : Bool) (s : State) : Host.Outcome State Fault Refusal :=
  start (.blank on) s fun s => needLife Life.working s (needBus s (deliver (blankBody on s)))

/-- `DESTROY` (44_lifecycle.md R198): nothing is sent, and the contents of `TX` become unspecified. -/
def execDestroy (s : State) : Host.Outcome State Fault Refusal :=
  start .destroy s fun s =>
    needLife Life.takesDestroy s
      (deliver (Run.go { s.forgetTx with txValid := false, life := .destroyed }))

/-! ## The rows of the power-up steps, each run on its own (log entry 5) -/

/-- INIT_STEP_01_UNLOCK. -/
def execInitStep01 (s : State) : Host.Outcome State Fault Refusal := micro .initStep01 s always stepUnlock

/-- INIT_STEP_02_DISABLE_OUTPUT. -/
def execInitStep02 (s : State) : Host.Outcome State Fault Refusal := micro .initStep02 s always stepDisableOutput

/-- INIT_STEP_03_SET_GRAYSCALE_MODE. An invalid curve is found before any SEND (41_gamma.md R132, R133). -/
def execInitStep03 (s : State) : Host.Outcome State Fault Refusal :=
  micro .initStep03 s grayscaleSends stepGrayscale

/-- INIT_STEP_04_CLOCK_DIVIDER. -/
def execInitStep04 (s : State) : Host.Outcome State Fault Refusal := micro .initStep04 s always stepClockDivider

/-- INIT_STEP_05_MUX_RATIO. -/
def execInitStep05 (s : State) : Host.Outcome State Fault Refusal := micro .initStep05 s always stepMuxRatio

/-- INIT_STEP_06_START_LINE_OFFSET. -/
def execInitStep06 (s : State) : Host.Outcome State Fault Refusal := micro .initStep06 s always stepStartLineOffset

/-- INIT_STEP_07_REMAP. -/
def execInitStep07 (s : State) : Host.Outcome State Fault Refusal := micro .initStep07 s always stepRemap

/-- INIT_STEP_08_EXTERNAL_SUPPLY. -/
def execInitStep08 (s : State) : Host.Outcome State Fault Refusal := micro .initStep08 s always stepExternalSupply

/-- INIT_STEP_09_CONTRAST_ENHANCEMENT. -/
def execInitStep09 (s : State) : Host.Outcome State Fault Refusal := micro .initStep09 s always stepContrast

/-- INIT_STEP_10_PHASE_PRECHARGE_TIMING. -/
def execInitStep10 (s : State) : Host.Outcome State Fault Refusal := micro .initStep10 s always stepPhasePrecharge

/-- INIT_STEP_11_VCOMH. -/
def execInitStep11 (s : State) : Host.Outcome State Fault Refusal := micro .initStep11 s always stepVcomh

/-- INIT_STEP_12_NORMAL_DISPLAY. -/
def execInitStep12 (s : State) : Host.Outcome State Fault Refusal := micro .initStep12 s always stepNormalDisplay

/-- INIT_STEP_13_ENABLE_OUTPUT. -/
def execInitStep13 (s : State) : Host.Outcome State Fault Refusal := micro .initStep13 s always stepEnableOutput

end Sys2Proof.Machine
end

