-- ==== Sys2Proof/Machine/Pixel.lean ====
section
/-! DEFINITION. The pixel plane encoder (43_pixel_encoder.md R165 to R177). -/

namespace Sys2Proof.Machine

/-- Step 3 of `FLUSH`: the whole span is encoded into `TX` from its beginning, with no bus activity (43_pixel_encoder.md
R165, R174). -/
def encodeStep (offset len : Nat) (s : State) : State :=
  ((s.storeTx (encodeSpan s offset len)).storeCount (spanOutput s.cfg len)).endBorrow

/-- Steps 3 and 4 of `FLUSH`: encode everything, then transmit `TX[0]` to `TX[n_out-1]` (43_pixel_encoder.md R172). -/
def flushBody (offset len : Nat) (s : State) : Run :=
  sendTx (spanOutput s.cfg len) (encodeStep offset len s)

/-- `FLUSH offset, len` (43_pixel_encoder.md R165): presence, then the span, then the bus; defined in every lifecycle
state. -/
def execFlush (offset len : Nat) (s : State) : Host.Outcome State Fault Refusal :=
  start (.flush offset len) s fun s =>
    if s.buffersPresent then
      if s.spanOk offset len then needBus s (deliver (flushBody offset len s))
      else deliver (raise .invalidParameter s)
    else deliver (raise .bufferUnavailable s)

/-- The micro-operation `DATA_BURST(n_out)` run on its own (40_command_protocol.md R115). A byte of `TX` exists only while
the buffer is allocated and below `TXBUF_SIZE` (10_state.md R33; log entry 17). -/
def execDataBurst (nOut : Nat) (s : State) : Host.Outcome State Fault Refusal :=
  start (.dataBurst nOut) s fun s =>
    needLife Life.takesMicro s
      (if nOut > 0 ∧ s.txValid = false then .fault .txAbsent
      else if nOut > txbufSize s.cfg then .fault (.txOutOfRange nOut)
      else needBus s (fallThrough (sendTx nOut s)))

end Sys2Proof.Machine
end

