-- ==== Sys2Proof/Machine/Protocol.lean ====
section
/-! DEFINITION. The rows of the command protocol layer run on their own (log entry 5): the generic frame and the named
frames (40_command_protocol.md R112, 30_encoding.md R87), and the reserved operation codes (R88). -/

namespace Sys2Proof.Machine

/-- `SEND(reg, params)` (40_command_protocol.md R112). -/
def execSend (reg : Byte) (params : List Byte) (s : State) : Host.Outcome State Fault Refusal :=
  micro (.send reg params) s always (send reg params)

/-- The frame REG_GAMMA (41_gamma.md R132). -/
def execRegGamma (levels : Vector Byte 15) (s : State) : Host.Outcome State Fault Refusal :=
  micro (.regGamma levels) s always (sendFrames [frameGamma levels.toList])

/-- The frame REG_GAMMA_END (41_gamma.md R132). -/
def execRegGammaEnd (s : State) : Host.Outcome State Fault Refusal :=
  micro .regGammaEnd s always (sendFrames [frameGammaEnd s.cfg])

/-- The frame REG_SET_COLUMN (42_window.md R151). -/
def execRegSetColumn (s : State) : Host.Outcome State Fault Refusal :=
  micro .regSetColumn s always (sendFrames [frameSetColumn s.cfg])

/-- The frame REG_SET_ROW (42_window.md R152). -/
def execRegSetRow (ys ye : Byte) (s : State) : Host.Outcome State Fault Refusal :=
  micro (.regSetRow ys ye) s always (sendFrames [frameSetRow s.cfg ys ye])

/-- WINDOW_TRAILER comes to a SEND: unless its list is empty. -/
def trailerSends (s : State) : Bool := !s.cfg.windowTrailer.isEmpty

/-- The frames of WINDOW_TRAILER, in list order; none where the list is empty (42_window.md R153, log entry 21). -/
def execWindowTrailerFrame (s : State) : Host.Outcome State Fault Refusal :=
  micro .windowTrailerFrame s trailerSends (sendFrames s.cfg.windowTrailer)

/-- The frame REG_PRECHARGE (41_gamma.md R137). -/
def execRegPrecharge (level : Byte) (s : State) : Host.Outcome State Fault Refusal :=
  micro (.regPrecharge level) s always (sendFrames [framePrecharge s.cfg level])

/-- The frame REG_DISPLAY_OFF (44_lifecycle.md R197). -/
def execRegDisplayOff (s : State) : Host.Outcome State Fault Refusal :=
  micro .regDisplayOff s always (sendFrames [frameDisplayOff s.cfg])

/-- The frame REG_DISPLAY_ON (44_lifecycle.md R197). -/
def execRegDisplayOn (s : State) : Host.Outcome State Fault Refusal :=
  micro .regDisplayOn s always (sendFrames [frameDisplayOn s.cfg])

/-! ## Reserved operation codes (30_encoding.md R88) -/

/-- Operation code 0x0. -/
def execReserved0 (s : State) : Host.Outcome State Fault Refusal := answerInvalid .reserved0 s

/-- Operation code 0x8. -/
def execReserved8 (s : State) : Host.Outcome State Fault Refusal := answerInvalid .reserved8 s

/-- Operation code 0x9. -/
def execReserved9 (s : State) : Host.Outcome State Fault Refusal := answerInvalid .reserved9 s

/-- Operation code 0xA. -/
def execReservedA (s : State) : Host.Outcome State Fault Refusal := answerInvalid .reservedA s

/-- Operation code 0xB. -/
def execReservedB (s : State) : Host.Outcome State Fault Refusal := answerInvalid .reservedB s

/-- Operation code 0xC. -/
def execReservedC (s : State) : Host.Outcome State Fault Refusal := answerInvalid .reservedC s

/-- Operation code 0xD. -/
def execReservedD (s : State) : Host.Outcome State Fault Refusal := answerInvalid .reservedD s

/-- Operation code 0xE. -/
def execReservedE (s : State) : Host.Outcome State Fault Refusal := answerInvalid .reservedE s

/-- Operation code 0xF. -/
def execReservedF (s : State) : Host.Outcome State Fault Refusal := answerInvalid .reservedF s

end Sys2Proof.Machine
end

