-- ==== Sys2Proof/Machine/Windowing.lean ====
section
/-! DEFINITION. The addressing window controller (42_window.md R150 to R155). -/

namespace Sys2Proof.Machine

/-- The record of the window becomes unknown (42_window.md R150). -/
def State.forgetWin (s : State) : State := { s with win := none }

/-- The record of the window after the frames were sent: columns 28 and 91, rows as requested (42_window.md R150). -/
def State.setWin (s : State) (ys ye : Byte) : State := { s with win := some ⟨28, 91, ys, ye⟩ }

/-- The body of `SET_WINDOW` (42_window.md R150): the record of the window is unknown until the last frame has been
answered. The columns are 28 and 91 whatever `xs` and `xe` are (R151), the rows are verbatim (R152). -/
def windowBody (ys ye : Byte) (s : State) : Run :=
  (sendFrames (windowFrames s.cfg ys ye) s.forgetWin).andThen fun s => Run.go (s.setWin ys ye)

/-- `SET_WINDOW xs, ys, xe, ye` (42_window.md R150). -/
def execSetWindow (xs ys xe ye : Byte) (s : State) : Host.Outcome State Fault Refusal :=
  start (.setWindow xs ys xe ye) s fun s =>
    needLife Life.working s (needBus s (deliver (windowBody ys ye s)))

end Sys2Proof.Machine
end

