-- ==== Sys2Proof/Machine/Dispatch.lean ====
section
/-! DEFINITION. One arm per instruction: each calls its own meaning. -/

namespace Sys2Proof.Machine

def exec (i : Instr) (s : State) : Host.Outcome State Fault Refusal :=
  match i with
  | .init => Sys2Proof.Machine.execInit s
  | .setWindow xs ys xe ye => Sys2Proof.Machine.execSetWindow xs ys xe ye s
  | .programGamma curve => Sys2Proof.Machine.execProgramGamma curve s
  | .programPrecharge level => Sys2Proof.Machine.execProgramPrecharge level s
  | .blank on => Sys2Proof.Machine.execBlank on s
  | .flush offset len => Sys2Proof.Machine.execFlush offset len s
  | .destroy => Sys2Proof.Machine.execDestroy s
  | .reserved0 => Sys2Proof.Machine.execReserved0 s
  | .reserved8 => Sys2Proof.Machine.execReserved8 s
  | .reserved9 => Sys2Proof.Machine.execReserved9 s
  | .reservedA => Sys2Proof.Machine.execReservedA s
  | .reservedB => Sys2Proof.Machine.execReservedB s
  | .reservedC => Sys2Proof.Machine.execReservedC s
  | .reservedD => Sys2Proof.Machine.execReservedD s
  | .reservedE => Sys2Proof.Machine.execReservedE s
  | .reservedF => Sys2Proof.Machine.execReservedF s
  | .send reg params => Sys2Proof.Machine.execSend reg params s
  | .regGamma levels => Sys2Proof.Machine.execRegGamma levels s
  | .regGammaEnd => Sys2Proof.Machine.execRegGammaEnd s
  | .regSetColumn => Sys2Proof.Machine.execRegSetColumn s
  | .regSetRow ys ye => Sys2Proof.Machine.execRegSetRow ys ye s
  | .windowTrailerFrame => Sys2Proof.Machine.execWindowTrailerFrame s
  | .regPrecharge level => Sys2Proof.Machine.execRegPrecharge level s
  | .regDisplayOff => Sys2Proof.Machine.execRegDisplayOff s
  | .regDisplayOn => Sys2Proof.Machine.execRegDisplayOn s
  | .initStep01 => Sys2Proof.Machine.execInitStep01 s
  | .initStep02 => Sys2Proof.Machine.execInitStep02 s
  | .initStep03 => Sys2Proof.Machine.execInitStep03 s
  | .initStep04 => Sys2Proof.Machine.execInitStep04 s
  | .initStep05 => Sys2Proof.Machine.execInitStep05 s
  | .initStep06 => Sys2Proof.Machine.execInitStep06 s
  | .initStep07 => Sys2Proof.Machine.execInitStep07 s
  | .initStep08 => Sys2Proof.Machine.execInitStep08 s
  | .initStep09 => Sys2Proof.Machine.execInitStep09 s
  | .initStep10 => Sys2Proof.Machine.execInitStep10 s
  | .initStep11 => Sys2Proof.Machine.execInitStep11 s
  | .initStep12 => Sys2Proof.Machine.execInitStep12 s
  | .initStep13 => Sys2Proof.Machine.execInitStep13 s
  | .dataBurst nOut => Sys2Proof.Machine.execDataBurst nOut s

end Sys2Proof.Machine
end

