-- ==== Sys2Proof/Machine/Boundary.lean ====
section
/-! DEFINITION. PNE's boundary: what the host and the platform do beside requests (log entry 16), what of a burst reaches the
controller (10_state.md R38), and the host's pseudo-operation REDRAW (30_encoding.md R93). -/

namespace Sys2Proof.Machine

/-- One event of the host or the platform (log entry 16). A host write outside the framebuffer has no address. -/
def applyEvent (e : Event) (s : State) : Host.Outcome State Fault Refusal :=
  match e with
  | .attachFb len cells =>
    .next
      { s with
        fbPresent := true, fbLen := len, fb := Memory.ofCells len cells, fbEpoch := s.fbEpoch + 1, fbRace := [] }
  | .detachFb => .next { s with fbPresent := false }
  | .hostWrite a b => if a < s.fbLen then .next { s with fb := s.fb.write a b } else .fault (.fbOutOfRange a)
  | .hostWriteDuringFlush a b =>
    if a < s.fbLen then .next { s with fbRace := s.fbRace.write a b } else .fault (.fbOutOfRange a)
  | .acquireBus => .next { s with busReady := true }
  | .releaseBus => .next { s with busReady := false }

/-- A request as the fetch finds it: decoded, then run (30_encoding.md R80). -/
def applyRequest (r : Request) (s : State) : Host.Outcome State Fault Refusal :=
  match decode r with
  | .ok i => exec i s
  | .error e => .refused (.malformedRecord e)

/-- The bytes of burst number `n` of a trace that reached the controller: all of them where it was answered `ok`, else an
unspecified prefix, "including none or all" (10_state.md R38, log entry 8). -/
def Burst.delivered (n : Nat) (b : Burst) : List Byte :=
  match b.answer with
  | .ok => b.bytes
  | .fail | .never => b.bytes.take (Config.deliveredCount n)

/-- The bytes that reached the controller, each with its select level, in trace order (20_memory.md R63), for the bursts of
a trace from number `n` on. -/
def wireFrom (n : Nat) (trace : List Burst) : List (Select × Byte) :=
  match trace with
  | [] => []
  | b :: rest => (b.delivered n).map (fun x => (b.dc, x)) ++ wireFrom (n + 1) rest

/-- The request `SET_WINDOW 0, ys, WIDTH-1, ye` of REDRAW (30_encoding.md R93); `WIDTH-1` in eight bits, and 0 where `WIDTH` is
0 (DESIGN CHOICE, log entry 26). -/
def redrawWindow (cfg : Cfg) (ys ye : Byte) : Instr := .setWindow 0 ys (BitVec.ofNat 8 (cfg.width - 1)) ye

/-- The request `FLUSH ys*STRIDE, (ye-ys+1)*STRIDE` of REDRAW (30_encoding.md R93). Where `ys > ye` that length is no length of
rows and R93 does not say what the host issues: the model's subtraction stops at 0, so that an empty FLUSH follows (DESIGN
CHOICE, log entry 26). -/
def redrawFlush (cfg : Cfg) (ys ye : Byte) : Instr :=
  .flush (ys.toNat * stride cfg) ((ye.toNat + 1 - ys.toNat) * stride cfg)

/-- `REDRAW ys, ye` as the host issues it: "the second is issued only when the first returned `Ok`" (30_encoding.md R93). -/
def redraw (ys ye : Byte) (s : State) : Host.Outcome State Fault Refusal :=
  match exec (redrawWindow s.cfg ys ye) s with
  | .next t => if t.response = some .ok then exec (redrawFlush s.cfg ys ye) t else .next t
  | .fault f => .fault f
  | .refused r => .refused r

end Sys2Proof.Machine
end

