-- ==== Sys2Proof/Machine/Step.lean ====
section
/-! DEFINITION. One step of the machine: the next input at PNE's boundary (log entries 1 and 16). -/

namespace Sys2Proof.Machine

/-- One step takes the oldest input and runs it whole. With no input PNE rests: "it never acts except inside a host
operation" (60_exceptions.md R220). -/
def step (s : State) : Host.Outcome State Fault Refusal :=
  match s.inbox with
  | [] => .next s
  | .request r :: rest => applyRequest r { s with inbox := rest }
  | .event e :: rest => applyEvent e { s with inbox := rest }

/-- The state with the record of a table word as the next input (log entries 4 and 22). -/
def State.withFetchWord (s : State) (nbits w : Nat) : State :=
  { s with inbox := .request (tableRequest nbits w) :: s.inbox }

end Sys2Proof.Machine
end

