-- ==== Sys2Proof/Safety.lean ====
section
/-! DEFINITION. The terms claims are made in: the bursts an operation plans and those it issues, what the host's and the
platform's inputs are, the machine's invariant, and what a safe run is. -/

namespace Sys2Proof.Machine

/-! ## Planned and issued bursts -/

/-- A burst before the bus answers it: its select level and its bytes. -/
abbrev Planned := Select × List Byte

/-- The bursts of one frame (30_encoding.md R84): the register byte at CMD, then the parameters, if any, at DATA. -/
def framePlan (f : Frame) : List Planned :=
  match f.params with
  | [] => [(.cmd, [f.reg])]
  | _ :: _ => [(.cmd, [f.reg]), (.data, f.params)]

/-- The bursts of a list of frames, in order. -/
def planOf (fs : List Frame) : List Planned := fs.flatMap framePlan

/-- The bursts of a plan when every one is answered `ok`. -/
def okBursts (plan : List Planned) : List Burst := plan.map fun p => ⟨p.1, p.2, .ok⟩

/-- The bursts of a plan that are issued from burst number `n` on: the plan ends at the first burst that is not answered `ok`
(40_command_protocol.md R112, 60_exceptions.md R216). -/
def issued (answerTo : Nat → BusAnswer) (n : Nat) (plan : List Planned) : List Burst :=
  match plan with
  | [] => []
  | p :: rest =>
    ⟨p.1, p.2, answerTo n⟩ ::
      (match answerTo n with
      | .ok => issued answerTo (n + 1) rest
      | .fail | .never => [])

/-- Where a body stands after the bursts it issued: as the answer to the last of them leaves it. -/
def statusAfter (bs : List Burst) : Status :=
  match bs.getLast? with
  | none => .running
  | some b => statusOf b.answer

/-- The select line after the bursts of a plan that were issued: at the level of the last, or as it was. -/
def selectAfter (before : Option Select) (bs : List Burst) : Option Select :=
  match bs.getLast? with
  | none => before
  | some b => some b.dc

/-- A plan run from a state: the closed form of what a list of frames does. -/
def State.emit (s : State) (plan : List Planned) : Run :=
  let bs := issued s.answerTo s.asked plan
  ⟨{ s with trace := s.trace ++ bs, asked := s.asked + bs.length, dc := selectAfter s.dc bs }, statusAfter bs⟩

/-- The next `n` bursts will be answered `ok`. -/
abbrev State.NextOk (s : State) (n : Nat) : Prop := ∀ k, k < n → s.answerTo (s.asked + k) = .ok

/-- `BUS_ANSWERS` of 00_scope.md R9 for the bursts asked for between two states: each is answered `ok` or `fail`. -/
def State.BusAnswers (s t : State) : Prop := ∀ n, s.asked ≤ n → n < t.asked → s.answerTo n ≠ .never

/-! ## The frames of an operation -/

/-- What step 3 of `INIT` sends, or the error it raises (44_lifecycle.md R192). -/
def grayscaleFrames (cfg : Cfg) : Except Err (List Frame) :=
  match cfg.grayscaleStep with
  | .programCurve =>
    match gammaLevels cfg.curve with
    | .ok levels => .ok (gammaFrames cfg levels)
    | .error e => .error e
  | .frames seq3 => .ok (Frames.toList seq3)

/-- The frames of steps 1 and 2 of `INIT` (44_lifecycle.md R193). -/
def initHead (cfg : Cfg) : List Frame :=
  Frames.toList cfg.initSeq.unlock ++ [frameDisplayOff cfg]

/-- The frames of steps 4 to 13 of `INIT` (44_lifecycle.md R193). -/
def initTail (cfg : Cfg) : List Frame :=
  Frames.toList cfg.initSeq.clockDivider ++ Frames.toList cfg.initSeq.muxRatio ++
    Frames.toList cfg.initSeq.startLineOffset ++ remapFrames cfg ++ Frames.toList cfg.initSeq.externalSupply ++
    Frames.toList cfg.initSeq.contrastEnhancement ++ Frames.toList cfg.initSeq.phasePrecharge ++
    Frames.toList cfg.initSeq.vcomh ++ Frames.toList cfg.initSeq.normalDisplay ++ [frameDisplayOn cfg]

/-- Every frame `INIT` sends when nothing stops it, with the frames of step 3 given. -/
def initFrames (cfg : Cfg) (gray : List Frame) : List Frame := initHead cfg ++ gray ++ initTail cfg

/-- The frames an instruction sends, in order, while the bus answers `ok`; none for the instructions that send no frame.
Where a curve is invalid, the frames before it. -/
def framesOf (cfg : Cfg) (i : Instr) : List Frame :=
  match i with
  | .init =>
    match grayscaleFrames cfg with
    | .ok gray => initFrames cfg gray
    | .error _ => initHead cfg
  | .setWindow _ ys _ ye => windowFrames cfg ys ye
  | .programGamma curve =>
    match gammaLevels curve with
    | .ok levels => gammaFrames cfg levels
    | .error _ => []
  | .programPrecharge (some level) => if cfg.hasPrecharge && prechargeLegal level then [framePrecharge cfg level] else []
  | .programPrecharge none => []
  | .blank on => [blankFrame cfg on]
  | .send reg params => [⟨reg, params⟩]
  | .regGamma levels => [frameGamma levels.toList]
  | .regGammaEnd => [frameGammaEnd cfg]
  | .regSetColumn => [frameSetColumn cfg]
  | .regSetRow ys ye => [frameSetRow cfg ys ye]
  | .windowTrailerFrame => cfg.windowTrailer
  | .regPrecharge level => [framePrecharge cfg level]
  | .regDisplayOff => [frameDisplayOff cfg]
  | .regDisplayOn => [frameDisplayOn cfg]
  | .initStep01 => Frames.toList cfg.initSeq.unlock
  | .initStep02 => [frameDisplayOff cfg]
  | .initStep03 =>
    match grayscaleFrames cfg with
    | .ok gray => gray
    | .error _ => []
  | .initStep04 => Frames.toList cfg.initSeq.clockDivider
  | .initStep05 => Frames.toList cfg.initSeq.muxRatio
  | .initStep06 => Frames.toList cfg.initSeq.startLineOffset
  | .initStep07 => remapFrames cfg
  | .initStep08 => Frames.toList cfg.initSeq.externalSupply
  | .initStep09 => Frames.toList cfg.initSeq.contrastEnhancement
  | .initStep10 => Frames.toList cfg.initSeq.phasePrecharge
  | .initStep11 => Frames.toList cfg.initSeq.vcomh
  | .initStep12 => Frames.toList cfg.initSeq.normalDisplay
  | .initStep13 => [frameDisplayOn cfg]
  | .flush .. | .dataBurst _ | .destroy => []
  | .reserved0 | .reserved8 | .reserved9 | .reservedA | .reservedB | .reservedC | .reservedD | .reservedE
  | .reservedF => []

/-- The register numbers PNE may put on the bus (30_encoding.md R87). -/
def knownRegisters (cfg : Cfg) : List Byte :=
  [0xB8, cfg.regGammaEnd, cfg.regSetColumn, cfg.regSetRow, cfg.regPrecharge, cfg.regDisplayOff, cfg.regDisplayOn] ++
    (cfg.windowTrailer ++ initHead cfg ++ initTail cfg ++
      (match cfg.grayscaleStep with
      | .programCurve => []
      | .frames seq3 => Frames.toList seq3)).map Frame.reg

/-- The requests of the host: what is presented in format HOSTOP (30_encoding.md R80). -/
def isHostOp (i : Instr) : Bool :=
  match (encode i).port with
  | .host => true
  | .frame | .send | .initStep | .data => false

/-- The sum of the steps of a curve up to and including index `i`: the absolute level of GS(`i+1`) (41_gamma.md R135). -/
def prefixSum (curve : Curve) (i : Nat) : Nat := ((curve.toList.take (i + 1)).map BitVec.toNat).sum

/-- The valid curves (41_gamma.md R135): the first step "unconstrained", the remaining at least 1, every prefix sum at most
180. -/
def ValidCurve (curve : Curve) : Prop :=
  (∀ i, (h : i < 15) → 0 < i → 1 ≤ curve[i].toNat) ∧ ∀ i, i < 15 → prefixSum curve i ≤ 180

/-- The absolute levels of a curve as parameter bytes (30_encoding.md R86). -/
def levelBytes (curve : Curve) : List Byte := (List.range 15).map fun i => BitVec.ofNat 8 (prefixSum curve i)

/-! ## What an operation leaves alone -/

/-- The configuration, the framebuffer and the inputs of the host and the platform are unchanged, every byte of `FB`
included. -/
structure InputsKept (s t : State) : Prop where
  cfg : t.cfg = s.cfg
  fbPresent : t.fbPresent = s.fbPresent
  fbLen : t.fbLen = s.fbLen
  fb : t.fb = s.fb
  fbEpoch : t.fbEpoch = s.fbEpoch
  fbRace : t.fbRace = s.fbRace
  raceDraw : t.raceDraw = s.raceDraw
  busReady : t.busReady = s.busReady
  busScript : t.busScript = s.busScript
  inbox : t.inbox = s.inbox

/-- The scratch buffer is unchanged: its allocation and every byte of it. -/
structure ScratchKept (s t : State) : Prop where
  txValid : t.txValid = s.txValid
  tx : t.tx = s.tx
  txEpoch : t.txEpoch = s.txEpoch

/-- The bus has not been used: no burst, no answer, the select line not driven. -/
structure BusUntouched (s t : State) : Prop where
  trace : t.trace = s.trace
  asked : t.asked = s.asked
  dc : t.dc = s.dc

/-- PNE is at rest and the bus is acquired and idle: "an operation starts only when `busy = false`" (10_state.md R23), and
the precondition of 40_command_protocol.md R111. -/
structure State.Ready (s : State) : Prop where
  idle : s.op = none
  bus : s.busReady = true

/-- The host writes nothing during the encode step: the premise "FB stable" of 93_implementation_defined.md U14. -/
abbrev State.FbStable (s : State) : Prop := s.fbRace = []

/-! ## The invariant -/

/-- What holds in every state a run reaches. -/
structure State.Inv (s : State) : Prop where
  /-- The memories keep their canonical form. -/
  txForm : s.tx.wf
  fbForm : s.fb.wf
  raceForm : s.fbRace.wf
  /-- Every listed byte exists. -/
  txInside : ∀ c ∈ s.tx, c.1 < txbufSize s.cfg
  fbInside : ∀ c ∈ s.fb, c.1 < s.fbLen
  raceInside : ∀ c ∈ s.fbRace, c.1 < s.fbLen
  /-- The scratch buffer is allocated exactly in `On` and `Blanked` (10_state.md R33, 43_pixel_encoder.md R173). -/
  allocated : s.txValid = s.life.working
  /-- A known window has the fixed columns, and none is known before `INIT` succeeded (10_state.md R30). -/
  windowColumns : ∀ w, s.win = some w → w.colStart = 28 ∧ w.colEnd = 91
  windowKnown : s.life = .uninitialized ∨ s.life = .initializing → s.win = none
  /-- The framing of the trace (40_command_protocol.md R116). -/
  framing : ∀ b ∈ s.trace, b.bytes ≠ [] ∧ (b.dc = .cmd → b.bytes.length = 1)
  /-- Every burst is answered once the operation has returned (10_state.md R36). -/
  answered : s.op = none → ∀ b ∈ s.trace, b.answer ≠ .never
  /-- An operation in progress between steps waits for its last burst (60_exceptions.md R233). -/
  waiting :
    s.op ≠ none → ∃ before b, s.trace = before ++ [b] ∧ b.answer = .never ∧ ∀ x ∈ before, x.answer ≠ .never
  /-- "`Initializing` holds only while `INIT` runs" (10_state.md R24). -/
  initializing : s.life = .initializing → ∃ w, s.op = some ⟨.init, w⟩
  /-- The select line is driven once a burst was sent (10_state.md R26). -/
  driven : s.trace ≠ [] → s.dc ≠ none

/-! ## Outcomes -/

/-- The next state of an outcome, if it has one. -/
def nextOf (o : Host.Outcome State Fault Refusal) : Option State :=
  match o with
  | .next s => some s
  | .fault _ => none
  | .refused _ => none

/-- A safe outcome: the machine did not touch a byte that does not exist. -/
def Safe (o : Host.Outcome State Fault Refusal) : Prop :=
  match o with
  | .next _ => True
  | .fault _ => False
  | .refused _ => True

end Sys2Proof.Machine
end

