-- ==== Sys2Proof/Certificates/Slice0/Obligations.lean ====
section
/-! DEFINITION. The statements for the provers. Where a statement rests on a choice of the model its docstring names the log
entry; where it rests on a decision of the spec it names the decision. -/

open Sys2Proof Sys2Proof.Machine

/-! ## Encoding and the step -/

/-- Nine records written out from 30_encoding.md R81, R82 and R87 and 44_lifecycle.md R193 decode to the instructions they
stand for, and the record 0x10 on the host's port is refused: `op` has four bits. The operation codes are the spec's decision
D2, the byte layout is log entries 2 and 3. -/
def Obligations.SampleRecordsDecode : Prop :=
  decode ⟨.host, [0x01]⟩ = .ok .init ∧
  decode ⟨.host, [0x02, 0x00, 0x02, 0x7F, 0x03]⟩ = .ok (.setWindow 0 2 127 3) ∧
  decode ⟨.host, [0x04, 0x01, 0x1F]⟩ = .ok (.programPrecharge (some 0x1F)) ∧
  decode ⟨.host, [0x05, 0x01]⟩ = .ok (.blank true) ∧
  decode ⟨.host, [0x06, 0x80, 0x00, 0x00, 0x00, 0x00, 0x01, 0x00, 0x00]⟩ = .ok (.flush 128 256) ∧
  decode ⟨.host, [0x07]⟩ = .ok .destroy ∧
  decode ⟨.host, [0x0F]⟩ = .ok .reservedF ∧
  decode ⟨.host, [0x10]⟩ = .error .opFieldTooWide ∧
  decode ⟨.frame, [0x75, 0x02, 0x03]⟩ = .ok (.regSetRow 2 3) ∧
  decode ⟨.initStep, [0x0D]⟩ = .ok .initStep13

/-- Decoding the record of a well-formed instruction gives it back, with every operand at every value the record admits
(log entries 2 and 3). -/
def Obligations.DecodeEncodeAgree : Prop :=
  ∀ i : Instr, WellFormed i → decode (encode i) = .ok i

/-- Every record that decodes is the encoding of the instruction it decodes to, so no bit of a record is dropped; the one
exception is the level byte of an absent precharge level (log entry 2). -/
def Obligations.DecodedRecordIsEncoding : Prop :=
  ∀ (r : Request) (i : Instr), decode r = .ok i → i ≠ .programPrecharge none → r = encode i

/-- A step whose next input is a record that decodes to `i` is `exec i` at the state without that input (log entries 1 and
16); where the record does not decode, the step is refused with the decoder's reason (log entries 2 and 27). -/
def Obligations.StepRunsDecodedRequest : Prop :=
  ∀ (s : State) (r : Request) (rest : List Input), s.inbox = .request r :: rest →
    (∀ i, decode r = .ok i → step s = exec i { s with inbox := rest }) ∧
    ∀ e, decode r = .error e → step s = .refused (.malformedRecord e)

/-- "It never acts except inside a host operation" (60_exceptions.md R220): an event of the host or the platform changes
nothing of PNE, and without an input nothing changes (log entry 16). -/
def Obligations.NothingActsWithoutRequest : Prop :=
  (∀ s : State, s.inbox = [] → step s = .next s) ∧
  ∀ (s t : State) (e : Event) (rest : List Input), s.inbox = .event e :: rest → step s = .next t →
    t.cfg = s.cfg ∧ t.life = s.life ∧ t.txValid = s.txValid ∧ t.tx = s.tx ∧ t.txEpoch = s.txEpoch ∧ t.dc = s.dc ∧
      t.win = s.win ∧ t.op = s.op ∧ t.trace = s.trace ∧ t.asked = s.asked ∧ t.response = s.response ∧ t.inbox = rest

/-! ## Reset, the invariant, the whole machine -/

/-- What construction leaves (10_state.md R39): the configuration as given, `Uninitialized`, no scratch buffer, not busy, an
empty trace, and `dc`, `win` and every byte of `TX` unknown. The values the source does not state are decision D42. -/
def Obligations.ConstructedStateValues : Prop :=
  ∀ cfg : Cfg,
    (State.constructed cfg).cfg = cfg ∧ (State.constructed cfg).life = .uninitialized ∧
    (State.constructed cfg).txValid = false ∧ (State.constructed cfg).busy = false ∧
    (State.constructed cfg).trace = [] ∧ (State.constructed cfg).dc = none ∧ (State.constructed cfg).win = none ∧
    (∀ a, (State.constructed cfg).tx.read? a = none) ∧ State.reset = State.constructed Config.resetCfg

/-- The invariant holds right after construction with any configuration. -/
def Obligations.InvariantHoldsAtReset : Prop :=
  (∀ cfg : Cfg, (State.constructed cfg).Inv) ∧ State.reset.Inv

/-- Every step keeps the invariant, whatever the input, the configuration and the answers of the bus. -/
def Obligations.StepKeepsInvariant : Prop :=
  ∀ s t : State, s.Inv → step s = .next t → t.Inv

/-- "`DESTROY` is not reset. From `Destroyed` no operation leads back to `Uninitialized`" (70_reset_and_hazards.md R252), and
no operation changes the configuration; "only a new instance (reset) does" lead there. -/
def Obligations.DestroyedIsFinal : Prop :=
  (∀ cfg : Cfg, (State.constructed cfg).life = .uninitialized) ∧
  (∀ s t : State, exec .destroy s = .next t → t.life = .destroyed) ∧
  (∀ (i : Instr) (s t : State), s.life = .destroyed → exec i s = .next t → t.life = .destroyed) ∧
  ∀ (i : Instr) (s t : State), exec i s = .next t → t.cfg = s.cfg

/-- The transitions of 44_lifecycle.md R191, and 10_state.md R25: every instruction but INIT, BLANK and DESTROY keeps `life`,
and those make the listed transitions by the result they deliver (decisions D31, D35, D36 and D37). A stalled INIT stays in
`Initializing` (log entry 7). -/
def Obligations.LifecycleTransitions : Prop :=
  (∀ (i : Instr) (s t : State), i ≠ .init → (∀ on, i ≠ .blank on) → i ≠ .destroy → exec i s = .next t →
    t.life = s.life) ∧
  (∀ s t : State, exec .init s = .next t → s.life = .uninitialized ∧
    ((t.response = some .ok ∧ t.life = .on) ∨ ((∃ e, t.response = some (.err e)) ∧ t.life = .uninitialized) ∨
      (t.response = none ∧ t.op ≠ none ∧ t.life = .initializing))) ∧
  (∀ (on : Bool) (s t : State), exec (.blank on) s = .next t → (s.life = .on ∨ s.life = .blanked) ∧
    ((t.response = some .ok ∧ t.life = if on then .blanked else .on) ∨
      (t.response ≠ some .ok ∧ t.life = s.life))) ∧
  ∀ s t : State, exec .destroy s = .next t →
    (s.life = .uninitialized ∨ s.life = .on ∨ s.life = .blanked) ∧ t.response = some .ok ∧ t.life = .destroyed

/-- On the bus: every instruction but FLUSH and DATA_BURST extends the trace by the bursts of its frames, in order, up to and
with the first burst that is not answered `ok`, and leaves the select line at the level of the last of them, or as it was
where there is none (40_command_protocol.md R112, R116, 60_exceptions.md R216, R223). That nothing follows a failed burst,
and the level it leaves, is decision D7; that the burst a stalled bus left stands in the trace is log entry 7; the rows run
alone, and whole lists in one row, are log entries 5 and 21. -/
def Obligations.TraceGrowsByPlannedBursts : Prop :=
  ∀ (i : Instr) (s t : State), (∀ a n, i ≠ .flush a n) → (∀ n, i ≠ .dataBurst n) → exec i s = .next t →
    t.trace = s.trace ++ issued s.answerTo s.asked (planOf (framesOf s.cfg i)) ∧
      t.dc = selectAfter s.dc (issued s.answerTo s.asked (planOf (framesOf s.cfg i)))

/-- 60_exceptions.md R216 and 40_command_protocol.md R114: a burst answered `fail` is the last of its operation, which ends
with `BusTransferFailed`; and `BusTransferFailed` is answered only then. That no burst follows a failed one is the spec's
decision D7 (log entry 23); the rows run alone are log entry 5. -/
def Obligations.FailedBurstEndsOperation : Prop :=
  ∀ (i : Instr) (s t : State), exec i s = .next t →
    ∃ bs, t.trace = s.trace ++ bs ∧ t.asked = s.asked + bs.length ∧
      (∀ before b, bs = before ++ [b] → ∀ x ∈ before, x.answer = .ok) ∧
      (t.response = some (.err .busTransferFailed) ↔ ∃ before b, bs = before ++ [b] ∧ b.answer = .fail)

/-- 60_exceptions.md R233 and 10_state.md R37: an operation is still in progress exactly where its last burst was never
answered; it then holds the operands it latched and has delivered no result (log entry 7). -/
def Obligations.StalledBusLeavesOperationInProgress : Prop :=
  ∀ (i : Instr) (s t : State), exec i s = .next t →
    ((∃ before b, t.trace = s.trace ++ before ++ [b] ∧ b.answer = .never) ↔ t.op ≠ none) ∧
      (t.op ≠ none → (∃ w, t.op = some ⟨i, w⟩) ∧ t.response = none)

/-- 30_encoding.md R90: a host request puts no register byte on the bus but those of R87, and a data burst without one only
in FLUSH: without a FLUSH, a DATA burst follows a CMD burst, and one that was answered `ok` (40_command_protocol.md R112,
R116). That no parameter burst follows a failed register burst is the spec's decision D7 (log entry 23). -/
def Obligations.OnlyKnownRegistersSent : Prop :=
  ∀ (i : Instr) (s t : State), isHostOp i = true → exec i s = .next t →
    ∃ bs, t.trace = s.trace ++ bs ∧
      (∀ b ∈ bs, b.dc = .cmd → ∃ r ∈ knownRegisters s.cfg, b.bytes = [r]) ∧
      ((∀ a n, i ≠ .flush a n) → ∀ before b after, bs = before ++ b :: after → b.dc = .data →
        ∃ earlier c, before = earlier ++ [c] ∧ c.dc = .cmd ∧ c.answer = .ok)

/-- 10_state.md R34: no instruction writes the framebuffer, its length or its presence. Where the host writes `FB` during the
encode step of a FLUSH those writes are the host's (20_memory.md R58, decision D44): after a FLUSH that came to its encode
step they stand in `FB` and none is pending, and after one that failed before it they are still pending (log entry 13). -/
def Obligations.FramebufferNeverWritten : Prop :=
  ∀ (i : Instr) (s t : State), exec i s = .next t →
    t.fbPresent = s.fbPresent ∧ t.fbLen = s.fbLen ∧ t.fbEpoch = s.fbEpoch ∧
      (s.FbStable → t.fb = s.fb ∧ t.fbRace = s.fbRace) ∧ ((∀ a n, i ≠ .flush a n) → InputsKept s t) ∧
      ∀ offset len, i = .flush offset len →
        ((s.buffersPresent && s.spanOk offset len) = true →
          t.fb = s.fb.overlay s.fbRace ∧ t.fbRace = [] ∧ t.raceDraw = s.raceDraw + 1 ∧
            (s.fbRace.wf → ∀ x, t.fbByte x = (s.fbRace.read? x).getD (s.fbByte x))) ∧
        ((s.buffersPresent && s.spanOk offset len) = false →
          t.fb = s.fb ∧ t.fbRace = s.fbRace ∧ t.raceDraw = s.raceDraw)

/-- "`CFG.rotate` is read once, by `INIT`; changing it later has no effect on PNE" (70_reset_and_hazards.md R260): every
other request of the host does the same under either rotation. -/
def Obligations.RotationReadByInitOnly : Prop :=
  ∀ (i : Instr) (s t : State) (r : Rotation), isHostOp i = true → i ≠ .init → exec i s = .next t →
    exec i { s with cfg := { s.cfg with rotate := r } } = .next { t with cfg := { t.cfg with rotate := r } }

/-- "No fault is sticky" (60_exceptions.md R224): what an instruction does does not depend on the result the host received
before. -/
def Obligations.NoFaultIsSticky : Prop :=
  ∀ (i : Instr) (s : State) (r : Option Response), exec i { s with response := r } = exec i s

/-- 60_exceptions.md R233 (premise `BUS_ANSWERS`, decision D45) and 00_scope.md R13: where the bus answers every burst it
is asked for, every request of the host that is accepted returns, with `Ok` or one error, and PNE is then idle. -/
def Obligations.HostOperationsReturn : Prop :=
  ∀ (i : Instr) (s t : State), isHostOp i = true → exec i s = .next t → s.BusAnswers t →
    t.busy = false ∧ ∃ r, t.response = some r

/-- 10_state.md R38 (decision D8): of a burst, all its bytes reached the controller where it was answered `ok`, and any
prefix otherwise (log entry 8); and what reached it stays, in trace order (20_memory.md R63). -/
def Obligations.DeliveredBytesArePrefixes : Prop :=
  (∀ (n : Nat) (b : Burst), b.delivered n <+: b.bytes ∧ (b.answer = .ok → b.delivered n = b.bytes)) ∧
  ∀ (i : Instr) (s t : State), exec i s = .next t → wireFrom 0 s.trace <+: wireFrom 0 t.trace

/-! ## Refusals -/

/-- 10_state.md R37: while an operation is in progress every instruction is refused (decision D43). -/
def Obligations.BusyRefusesEveryRequest : Prop :=
  ∀ (i : Instr) (s : State), s.busy = true → exec i s = .refused .requestWhileBusy

/-- The cells "refuse" of 44_lifecycle.md R199 (decision D36), for a machine at rest. PROGRAM_PRECHARGE is refused on a
variant that has it; on one that has not, R89 answers. The frame, step and data-burst rows run alone are refused in
`Destroyed` (log entry 5). -/
def Obligations.AcceptanceTableRefusals : Prop :=
  ∀ s : State, s.op = none →
    (s.life ≠ .uninitialized → exec .init s = .refused (.notAccepted s.life)) ∧
    (s.life ≠ .on → s.life ≠ .blanked →
      (∀ xs ys xe ye, exec (.setWindow xs ys xe ye) s = .refused (.notAccepted s.life)) ∧
      (∀ curve, exec (.programGamma curve) s = .refused (.notAccepted s.life)) ∧
      (s.cfg.hasPrecharge = true → ∀ level, exec (.programPrecharge level) s = .refused (.notAccepted s.life)) ∧
      ∀ on, exec (.blank on) s = .refused (.notAccepted s.life)) ∧
    (s.life = .destroyed ∨ s.life = .initializing → exec .destroy s = .refused (.notAccepted s.life)) ∧
    (s.life = .destroyed → ∀ i, isHostOp i = false → exec i s = .refused (.notAccepted s.life))

/-- 40_command_protocol.md R111: an operation that comes to a SEND or DATA_BURST while the bus is not acquired and idle is
refused, whichever it is; so no instruction then touches the bus. R111 is about a SEND: that the whole operation is refused
before anything of it has happened is log entry 15, that this test comes last is log entry 24, the rows run alone and where
they are accepted are log entry 5, and DATA_BURST within `TX` is log entry 17. -/
def Obligations.BusNotAcquiredRefused : Prop :=
  ∀ s : State, s.op = none → s.busReady = false →
    (s.life ≠ .destroyed → ∀ i, (encode i).port = .send ∨ (encode i).port = .frame ∨ (encode i).port = .initStep →
      framesOf s.cfg i ≠ [] → exec i s = .refused .busNotAcquired) ∧
    (s.life = .uninitialized → exec .init s = .refused .busNotAcquired) ∧
    (s.life = .on ∨ s.life = .blanked →
      (∀ xs ys xe ye, exec (.setWindow xs ys xe ye) s = .refused .busNotAcquired) ∧
      (∀ curve, ValidCurve curve → exec (.programGamma curve) s = .refused .busNotAcquired) ∧
      (∀ level : Byte, s.cfg.hasPrecharge = true → level.toNat ≤ 0x1F →
        exec (.programPrecharge (some level)) s = .refused .busNotAcquired) ∧
      ∀ on, exec (.blank on) s = .refused .busNotAcquired) ∧
    (∀ offset len, s.txValid = true → s.fbPresent = true → s.spanOk offset len = true →
      exec (.flush offset len) s = .refused .busNotAcquired) ∧
    (s.life ≠ .destroyed → ∀ n, n ≤ txbufSize s.cfg → n = 0 ∨ s.txValid = true →
      exec (.dataBurst n) s = .refused .busNotAcquired) ∧
    ∀ (i : Instr) (t : State), exec i s = .next t → BusUntouched s t

/-- 30_encoding.md R88 (decision D39): a reserved operation code is answered `InvalidParameter` in every lifecycle state, and
nothing else changes. -/
def Obligations.ReservedCodesAnswerInvalidParameter : Prop :=
  ∀ (i : Instr) (s : State),
    i ∈ [.reserved0, .reserved8, .reserved9, .reservedA, .reservedB, .reservedC, .reservedD, .reservedE, .reservedF] →
    s.op = none → exec i s = .next { s with response := some (.err .invalidParameter) }

/-! ## The command protocol layer -/

/-- `SEND(reg, params)` by the answers of the bus (40_command_protocol.md R112, decisions D6 and D7): the four cases of its
pseudocode. Run on its own it delivers no result on success (log entry 5). -/
def Obligations.SendByBusAnswers : Prop :=
  ∀ (s : State) (reg : Byte) (params : List Byte), s.Ready → s.life ≠ .destroyed →
    (s.answerTo s.asked = .fail →
      exec (.send reg params) s = .next { s with
        dc := some .cmd, trace := s.trace ++ [⟨.cmd, [reg], .fail⟩], asked := s.asked + 1,
        response := some (.err .busTransferFailed) }) ∧
    (s.answerTo s.asked = .ok → params = [] →
      exec (.send reg params) s = .next { s with
        dc := some .cmd, trace := s.trace ++ [⟨.cmd, [reg], .ok⟩], asked := s.asked + 1, response := none }) ∧
    (s.answerTo s.asked = .ok → params ≠ [] → s.answerTo (s.asked + 1) = .fail →
      exec (.send reg params) s = .next { s with
        dc := some .data, trace := s.trace ++ [⟨.cmd, [reg], .ok⟩, ⟨.data, params, .fail⟩], asked := s.asked + 2,
        response := some (.err .busTransferFailed) }) ∧
    (s.answerTo s.asked = .ok → params ≠ [] → s.answerTo (s.asked + 1) = .ok →
      exec (.send reg params) s = .next { s with
        dc := some .data, trace := s.trace ++ [⟨.cmd, [reg], .ok⟩, ⟨.data, params, .ok⟩], asked := s.asked + 2,
        response := none })

/-- The named frames (30_encoding.md R86, R87; decisions D12, D13, D15, D16, D34, D38 and D47), each run on its own (log
entry 5) with its bursts answered `ok`. -/
def Obligations.NamedFramesComplete : Prop :=
  ∀ s : State, s.Ready → s.life ≠ .destroyed →
    (s.NextOk 2 → ∀ levels : Vector Byte 15, exec (.regGamma levels) s = .next { s with
      dc := some .data, asked := s.asked + 2, response := none,
      trace := s.trace ++ [⟨.cmd, [0xB8], .ok⟩, ⟨.data, levels.toList, .ok⟩] }) ∧
    (s.NextOk 1 → exec .regGammaEnd s = .next { s with
      dc := some .cmd, asked := s.asked + 1, response := none,
      trace := s.trace ++ [⟨.cmd, [s.cfg.regGammaEnd], .ok⟩] }) ∧
    (s.NextOk 2 → exec .regSetColumn s = .next { s with
      dc := some .data, asked := s.asked + 2, response := none,
      trace := s.trace ++ [⟨.cmd, [s.cfg.regSetColumn], .ok⟩, ⟨.data, [28, 91], .ok⟩] }) ∧
    (s.NextOk 2 → ∀ ys ye, exec (.regSetRow ys ye) s = .next { s with
      dc := some .data, asked := s.asked + 2, response := none,
      trace := s.trace ++ [⟨.cmd, [s.cfg.regSetRow], .ok⟩, ⟨.data, [ys, ye], .ok⟩] }) ∧
    (s.NextOk 2 → ∀ level, exec (.regPrecharge level) s = .next { s with
      dc := some .data, asked := s.asked + 2, response := none,
      trace := s.trace ++ [⟨.cmd, [s.cfg.regPrecharge], .ok⟩, ⟨.data, [level], .ok⟩] }) ∧
    (s.NextOk 1 → exec .regDisplayOff s = .next { s with
      dc := some .cmd, asked := s.asked + 1, response := none,
      trace := s.trace ++ [⟨.cmd, [s.cfg.regDisplayOff], .ok⟩] }) ∧
    (s.NextOk 1 → exec .regDisplayOn s = .next { s with
      dc := some .cmd, asked := s.asked + 1, response := none,
      trace := s.trace ++ [⟨.cmd, [s.cfg.regDisplayOn], .ok⟩] })

/-- A list of frames of the configuration run on its own (log entries 5 and 21), its bursts answered `ok`: the frames of
WINDOW_TRAILER (42_window.md R153, decision D17) and of the power-up steps (44_lifecycle.md R193 to R195, decisions D33 and
D34) go out in list order. -/
def Obligations.ConfiguredFramesComplete : Prop :=
  ∀ (s : State) (i : Instr) (fs : List Frame), s.Ready → s.life ≠ .destroyed → s.NextOk (planOf fs).length →
    (i, fs) ∈ [(.windowTrailerFrame, s.cfg.windowTrailer),
      (.initStep01, Frames.toList s.cfg.initSeq.unlock), (.initStep02, [⟨s.cfg.regDisplayOff, []⟩]),
      (.initStep04, Frames.toList s.cfg.initSeq.clockDivider), (.initStep05, Frames.toList s.cfg.initSeq.muxRatio),
      (.initStep06, Frames.toList s.cfg.initSeq.startLineOffset),
      (.initStep07, Frames.toList (if s.cfg.rotate = .deg0 then s.cfg.initSeq.remap0 else s.cfg.initSeq.remap180)),
      (.initStep08, Frames.toList s.cfg.initSeq.externalSupply),
      (.initStep09, Frames.toList s.cfg.initSeq.contrastEnhancement),
      (.initStep10, Frames.toList s.cfg.initSeq.phasePrecharge), (.initStep11, Frames.toList s.cfg.initSeq.vcomh),
      (.initStep12, Frames.toList s.cfg.initSeq.normalDisplay), (.initStep13, [⟨s.cfg.regDisplayOn, []⟩])] →
    exec i s = .next { s with
      dc := selectAfter s.dc (okBursts (planOf fs)), asked := s.asked + (planOf fs).length, response := none,
      trace := s.trace ++ okBursts (planOf fs) }

/-- Step 3 of the power-up sequence run on its own (44_lifecycle.md R192, R193, decision D32; log entry 5): the table of the
configured curve, or `INIT_SEQ[3]`; an invalid curve sends nothing and delivers the error of `GammaLevels`. -/
def Obligations.GrayscaleStepByConfiguration : Prop :=
  ∀ s : State, s.Ready → s.life ≠ .destroyed →
    (s.cfg.grayscaleStep = .programCurve → ValidCurve s.cfg.curve → s.NextOk 3 →
      exec .initStep03 s = .next { s with
        dc := some .cmd, asked := s.asked + 3, response := none,
        trace := s.trace ++ [⟨.cmd, [0xB8], .ok⟩, ⟨.data, levelBytes s.cfg.curve, .ok⟩,
          ⟨.cmd, [s.cfg.regGammaEnd], .ok⟩] }) ∧
    (s.cfg.grayscaleStep = .programCurve → ¬ ValidCurve s.cfg.curve →
      ∃ i v c, gammaLevels s.cfg.curve = .error (.invalidCurve i v c) ∧
        exec .initStep03 s = .next { s with response := some (.err (.invalidCurve i v c)) }) ∧
    ∀ seq3, s.cfg.grayscaleStep = .frames seq3 → s.NextOk (planOf (Frames.toList seq3)).length →
      exec .initStep03 s = .next { s with
        dc := selectAfter s.dc (okBursts (planOf (Frames.toList seq3)))
        asked := s.asked + (planOf (Frames.toList seq3)).length, response := none,
        trace := s.trace ++ okBursts (planOf (Frames.toList seq3)) }

/-- The frame of SEND, of the named frames, of the power-up steps and of DATA_BURST run on their own, whatever the bus
answers: only `dc`, the trace, and what the host receives may change (10_state.md R25, R26; log entry 5). -/
def Obligations.FrameRowsTouchOnlyTheBus : Prop :=
  ∀ (i : Instr) (s t : State), isHostOp i = false →
    exec i s = .next t → InputsKept s t ∧ ScratchKept s t ∧ t.life = s.life ∧ t.win = s.win

/-- `DATA_BURST(n_out)` run on its own (40_command_protocol.md R115, decisions D25 and D26; log entries 5 and 17): one burst
of the first bytes of `TX` in address order, none where there is nothing to send; where the burst fails it stands in the
trace, the select line is at DATA and the error is delivered. -/
def Obligations.DataBurstSendsScratchBytes : Prop :=
  ∀ (s : State) (n : Nat), s.Ready → s.life ≠ .destroyed → n ≤ txbufSize s.cfg →
    (n = 0 → exec (.dataBurst n) s = .next { s with dc := some .data, response := none }) ∧
    (0 < n → s.txValid = true → s.answerTo s.asked = .ok →
      ∃ bytes, bytes.length = n ∧ (∀ k, k < n → bytes[k]? = some (s.txByte k)) ∧
        exec (.dataBurst n) s = .next { s with
          dc := some .data, asked := s.asked + 1, response := none,
          trace := s.trace ++ [⟨.data, bytes, .ok⟩] }) ∧
    (0 < n → s.txValid = true → s.answerTo s.asked = .fail →
      ∃ bytes, bytes.length = n ∧ (∀ k, k < n → bytes[k]? = some (s.txByte k)) ∧
        exec (.dataBurst n) s = .next { s with
          dc := some .data, asked := s.asked + 1, response := some (.err .busTransferFailed),
          trace := s.trace ++ [⟨.data, bytes, .fail⟩] }) ∧
    (0 < n → s.txValid = false → exec (.dataBurst n) s = .fault .txAbsent) ∧
    ∀ m, s.txValid = true → txbufSize s.cfg < m → exec (.dataBurst m) s = .fault (.txOutOfRange m)

/-! ## The grayscale curve and the precharge level -/

/-- A curve is accepted exactly where it is valid, and its levels are then its prefix sums: at most 180, each above the one
before (41_gamma.md R131, R135, R136; decisions D9 and D10). -/
def Obligations.AcceptedCurvesAreTheValidOnes : Prop :=
  ∀ curve : Curve,
    (ValidCurve curve ↔ ∃ levels, gammaLevels curve = .ok levels) ∧
    ∀ levels, gammaLevels curve = .ok levels →
      levels.length = 15 ∧
      (∀ i, (h : i < levels.length) → levels[i].toNat = prefixSum curve i ∧ levels[i].toNat ≤ 180) ∧
      ∀ i, (h : i + 1 < levels.length) → levels[i].toNat < levels[i + 1].toNat

/-- The first failing index is the one reported, with its step and the test that failed (41_gamma.md R131, 60_exceptions.md
R217; decisions D10 and D11): every earlier index passes both tests. -/
def Obligations.FirstFailingIndexReported : Prop :=
  ∀ (curve : Curve) (e : Err), gammaLevels curve = .error e →
    ∃ i v c, e = .invalidCurve i v c ∧ curve.toList[i]? = some v ∧
      (∀ j, j < i → prefixSum curve j ≤ 180 ∧ (0 < j → ∀ w, curve.toList[j]? = some w → 1 ≤ w.toNat)) ∧
      (c = .zeroStep → 0 < i ∧ v = 0) ∧ (c = .sumExceeds → 180 < prefixSum curve i ∧ (0 < i → v ≠ 0))

/-- `PROGRAM_GAMMA` of a valid curve with its three bursts answered `ok` (41_gamma.md R130, R132, decisions D12 and D13): the
table, GS1 first, then the terminating command; everything else is unchanged. -/
def Obligations.ProgramGammaCompletes : Prop :=
  ∀ (s : State) (curve : Curve), s.Ready → s.life = .on ∨ s.life = .blanked → ValidCurve curve → s.NextOk 3 →
    exec (.programGamma curve) s = .next { s with
      dc := some .cmd, asked := s.asked + 3, response := some .ok,
      trace := s.trace ++ [⟨.cmd, [0xB8], .ok⟩, ⟨.data, levelBytes curve, .ok⟩, ⟨.cmd, [s.cfg.regGammaEnd], .ok⟩] }

/-- All or nothing (41_gamma.md R133): a curve with a zero step after the first, or with a prefix sum above 180, fails with
`InvalidCurve`, appends nothing to the trace, does not drive the select line and changes no persistent state, whether the
bus is there or not; and so does every `PROGRAM_GAMMA` that answers `InvalidCurve`. The error delivered is the one that
`GammaLevels` raised; what its payload says is decision D11 and another statement's, `FirstFailingIndexReported`. -/
def Obligations.InvalidCurveIsAllOrNothing : Prop :=
  (∀ (s : State) (curve : Curve), s.op = none → s.life = .on ∨ s.life = .blanked →
    ((∃ i, ∃ h : i < 15, 0 < i ∧ curve[i].toNat = 0) ∨ ∃ i, i < 15 ∧ 180 < prefixSum curve i) →
    ∃ i v c, gammaLevels curve = .error (.invalidCurve i v c) ∧
      exec (.programGamma curve) s = .next { s with response := some (.err (.invalidCurve i v c)) }) ∧
  ∀ (s t : State) (curve : Curve) (i : Nat) (v : Word32) (c : CurveCause),
    exec (.programGamma curve) s = .next t → t.response = some (.err (.invalidCurve i v c)) →
    t = { s with response := t.response }

/-- `PROGRAM_PRECHARGE level` (41_gamma.md R137, decision D38): a level of 0x00 to 0x1F is sent as it is. -/
def Obligations.ProgramPrechargeCompletes : Prop :=
  ∀ (s : State) (level : Byte), s.Ready → s.life = .on ∨ s.life = .blanked → s.cfg.hasPrecharge = true →
    level.toNat ≤ 0x1F → s.NextOk 2 →
    exec (.programPrecharge (some level)) s = .next { s with
      dc := some .data, asked := s.asked + 2, response := some .ok,
      trace := s.trace ++ [⟨.cmd, [s.cfg.regPrecharge], .ok⟩, ⟨.data, [level], .ok⟩] }

/-- The failures of `PROGRAM_PRECHARGE` before any bus activity (41_gamma.md R137, 30_encoding.md R89, 60_exceptions.md R221;
decisions D38 and D46): the operation absent in the variant, in every lifecycle state; the level absent, or above 0x1F. -/
def Obligations.PrechargeInvalidParameter : Prop :=
  ∀ (s : State) (level : Option Byte), s.op = none →
    s.cfg.hasPrecharge = false ∨
      ((s.life = .on ∨ s.life = .blanked) ∧ (level = none ∨ ∃ l, level = some l ∧ 0x1F < l.toNat)) →
    exec (.programPrecharge level) s = .next { s with response := some (.err .invalidParameter) }

/-- The frame of PROGRAM_GAMMA and PROGRAM_PRECHARGE, whatever the bus answers: "State written: none of `life`, `win`,
`tx_valid`, `TX`" (41_gamma.md R130, R137). -/
def Obligations.GammaAndPrechargeFrame : Prop :=
  ∀ (s t : State) (curve : Curve) (level : Option Byte),
    exec (.programGamma curve) s = .next t ∨ exec (.programPrecharge level) s = .next t →
    InputsKept s t ∧ ScratchKept s t ∧ t.life = s.life ∧ t.win = s.win

/-! ## The addressing window -/

/-- `SET_WINDOW` with its bursts answered `ok` (42_window.md R150 to R153, decisions D15, D16, D17, D19 and D47): the column
frame is 28, 91 whatever `xs` and `xe` are, the row frame is `ys`, `ye` verbatim, then the trailer; the window is known. -/
def Obligations.SetWindowCompletes : Prop :=
  ∀ (s : State) (xs ys xe ye : Byte), s.Ready → s.life = .on ∨ s.life = .blanked →
    s.NextOk (4 + (planOf s.cfg.windowTrailer).length) →
    exec (.setWindow xs ys xe ye) s = .next { s with
      win := some ⟨28, 91, ys, ye⟩
      dc := selectAfter (some .data) (okBursts (planOf s.cfg.windowTrailer))
      asked := s.asked + (4 + (planOf s.cfg.windowTrailer).length), response := some .ok,
      trace := s.trace ++ ([⟨.cmd, [s.cfg.regSetColumn], .ok⟩, ⟨.data, [28, 91], .ok⟩,
        ⟨.cmd, [s.cfg.regSetRow], .ok⟩, ⟨.data, [ys, ye], .ok⟩] ++ okBursts (planOf s.cfg.windowTrailer)) }

/-- SET_WINDOW, whatever the bus answers (42_window.md R150, 60_exceptions.md R223; decision D19): the window is known
exactly where the result is `Ok`; and nothing but the window, `dc`, the trace and the host's result changes. -/
def Obligations.SetWindowFrame : Prop :=
  ∀ (s t : State) (xs ys xe ye : Byte), exec (.setWindow xs ys xe ye) s = .next t →
    ((t.response = some .ok ∧ t.win = some ⟨28, 91, ys, ye⟩) ∨ (t.response ≠ some .ok ∧ t.win = none)) ∧
      InputsKept s t ∧ ScratchKept s t ∧ t.life = s.life

/-! ## The pixel encoder -/

/-- The transform of one source byte (43_pixel_encoder.md R167): each nibble stands in both halves of its own output byte,
and the two bytes of each source byte of a span are appended in turn, the left pixel's first. -/
def Obligations.NibbleDoublingReplicates : Prop :=
  (∀ b : Byte,
    dblLo b = (b &&& 0x0F) ||| ((b &&& 0x0F) <<< 4) ∧ dblHi b = (b &&& 0xF0) ||| ((b &&& 0xF0) >>> 4) ∧
    dblLo b = b.extractLsb' 0 4 ++ b.extractLsb' 0 4 ∧ dblHi b = b.extractLsb' 4 4 ++ b.extractLsb' 4 4) ∧
  ∀ (s : State) (a n : Nat), (encodeGray4 s a n).length = 2 * n ∧
    ∀ k, k < n → (encodeGray4 s a n)[2 * k]? = some (dblLo (s.fbSample (a + k))) ∧
      (encodeGray4 s a n)[2 * k + 1]? = some (dblHi (s.fbSample (a + k)))

/-- The round trip (43_pixel_encoder.md R175): taking either half of an encoded byte gives the nibble back, and the source
bytes of a GRAY4 span are recovered from its output (decision D20). -/
def Obligations.SourceRecoverableFromOutput : Prop :=
  (∀ b : Byte,
    (dblLo b).extractLsb' 4 4 = b.extractLsb' 0 4 ∧ (dblLo b).extractLsb' 0 4 = b.extractLsb' 0 4 ∧
    (dblHi b).extractLsb' 4 4 = b.extractLsb' 4 4 ∧ (dblHi b).extractLsb' 0 4 = b.extractLsb' 4 4) ∧
  ∀ (s t : State) (offset len k : Nat), s.cfg.srcFmt = .gray4 → s.FbStable → exec (.flush offset len) s = .next t →
    t.response = some .ok → k < len →
    s.fbByte (offset + k) = (t.txByte (2 * k + 1)).extractLsb' 4 4 ++ (t.txByte (2 * k)).extractLsb' 0 4

/-- GRAY4 `FLUSH` of a span inside both buffers, its burst answered `ok` (43_pixel_encoder.md R165, R168, R172, decisions D20
and D27): two bytes of `TX` per source byte, left pixel first, sent as one burst; bytes of `TX` beyond them keep what they
held; nothing else changes. An empty span sends no burst (R177, decision D25). -/
def Obligations.FlushGray4Completes : Prop :=
  ∀ (s : State) (offset len : Nat), s.Ready → s.txValid = true → s.fbPresent = true → s.cfg.srcFmt = .gray4 →
    s.FbStable → offset + len ≤ s.fbLen → 2 * len ≤ txbufSize s.cfg → (len = 0 ∨ s.answerTo s.asked = .ok) →
    ∃ (t : State) (bytes : List Byte), exec (.flush offset len) s = .next t ∧ t.response = some .ok ∧
      bytes.length = 2 * len ∧
      (∀ k, k < len → bytes[2 * k]? = some (dblLo (s.fbByte (offset + k))) ∧
        bytes[2 * k + 1]? = some (dblHi (s.fbByte (offset + k)))) ∧
      (∀ k, t.tx.read? k = if k < 2 * len then bytes[k]? else s.tx.read? k) ∧
      t.trace = s.trace ++ (if len = 0 then [] else [⟨.data, bytes, .ok⟩]) ∧ t.dc = some .data ∧ t.op = none ∧
      t.life = s.life ∧ t.win = s.win ∧ t.txValid = s.txValid ∧ t.txEpoch = s.txEpoch ∧ t.cfg = s.cfg ∧ t.fb = s.fb

/-- COLOR16 `FLUSH` of whole rows inside both buffers, its burst answered `ok` (43_pixel_encoder.md R165, R169, R170,
20_memory.md R53, decisions D21 to D23): byte `k` comes from the odd byte of pixel `k` of the span, row by row. Where
`STRIDE` is 0, the remainder and the quotient are log entry 25's. -/
def Obligations.FlushColor16Completes : Prop :=
  ∀ (s : State) (offset len : Nat), s.Ready → s.txValid = true → s.fbPresent = true → s.cfg.srcFmt = .color16 →
    s.FbStable → offset + len ≤ s.fbLen → offset % 2 = 0 → len % stride s.cfg = 0 →
    s.cfg.width * (len / stride s.cfg) ≤ txbufSize s.cfg →
    (s.cfg.width * (len / stride s.cfg) = 0 ∨ s.answerTo s.asked = .ok) →
    ∃ (t : State) (bytes : List Byte), exec (.flush offset len) s = .next t ∧ t.response = some .ok ∧
      bytes.length = s.cfg.width * (len / stride s.cfg) ∧
      (∀ y x, y < len / stride s.cfg → x < s.cfg.width →
        bytes[s.cfg.width * y + x]? = some
          (if s.cfg.color16Nibble = .high then dblHi (s.fbByte (offset + y * stride s.cfg + 2 * x + 1))
          else dblLo (s.fbByte (offset + y * stride s.cfg + 2 * x + 1)))) ∧
      (∀ k, t.tx.read? k = if k < bytes.length then bytes[k]? else s.tx.read? k) ∧
      t.trace = s.trace ++ (if bytes.length = 0 then [] else [⟨.data, bytes, .ok⟩]) ∧ t.dc = some .data ∧
      t.op = none ∧ t.life = s.life ∧ t.win = s.win ∧ t.txValid = s.txValid ∧ t.cfg = s.cfg ∧ t.fb = s.fb

/-- `FLUSH` without one of its buffers (43_pixel_encoder.md R173): `BufferUnavailable`, whatever the span and the bus are,
and nothing is read, written, driven or sent; and the scratch buffer is missing exactly in `Uninitialized` and `Destroyed`,
in every state at rest that the machine reaches. -/
def Obligations.FlushWithoutBufferUnavailable : Prop :=
  (∀ (s : State) (offset len : Nat), s.op = none → s.txValid = false ∨ s.fbPresent = false →
    exec (.flush offset len) s = .next { s with response := some (.err .bufferUnavailable) }) ∧
  ∀ s : State, s.Inv → s.op = none → (s.txValid = false ↔ s.life = .uninitialized ∨ s.life = .destroyed)

/-- The span checks of `FLUSH` (43_pixel_encoder.md R165, R166, decisions D23 and D24): each failure is `InvalidParameter`
with no memory access and no bus activity. Where `STRIDE` is 0, the remainder and the quotient are log entry 25's. -/
def Obligations.FlushBadSpanInvalidParameter : Prop :=
  ∀ (s : State) (offset len : Nat), s.op = none → s.txValid = true → s.fbPresent = true →
    s.fbLen < offset + len ∨ (s.cfg.srcFmt = .gray4 ∧ txbufSize s.cfg < 2 * len) ∨
      (s.cfg.srcFmt = .color16 ∧ (offset % 2 ≠ 0 ∨ len % stride s.cfg ≠ 0 ∨
        txbufSize s.cfg < s.cfg.width * (len / stride s.cfg))) →
    exec (.flush offset len) s = .next { s with response := some (.err .invalidParameter) }

/-- `FLUSH`, whatever the bus answers and whatever the host writes meanwhile (43_pixel_encoder.md R172, R174,
60_exceptions.md R223; decisions D20 to D27): where it comes to the bus the whole span is encoded in `TX` first, and what it
sends is one burst of exactly those bytes; it never writes `life`, `win` or the allocation, and leaves `TX` beyond the output
alone. -/
def Obligations.FlushEncodesBeforeSending : Prop :=
  ∀ (s t : State) (offset len : Nat), exec (.flush offset len) s = .next t →
    t.life = s.life ∧ t.win = s.win ∧ t.txValid = s.txValid ∧ t.txEpoch = s.txEpoch ∧ t.cfg = s.cfg ∧
    t.busReady = s.busReady ∧ t.busScript = s.busScript ∧ t.inbox = s.inbox ∧
    (BusUntouched s t ∧ t.tx = s.tx ∨
      t.dc = some .data ∧ (∀ k, k < spanOutput s.cfg len → t.tx.read? k = (encodeSpan s offset len)[k]?) ∧
      (∀ k, spanOutput s.cfg len ≤ k → t.tx.read? k = s.tx.read? k) ∧
      t.trace = s.trace ++ (if spanOutput s.cfg len = 0 then []
        else [⟨.data, encodeSpan s offset len, s.answerTo s.asked⟩]))

/-- 43_pixel_encoder.md R171 and R176: the encoder's output is one byte per panel pixel of the span, `n_out` in all, and
every output byte is one of the sixteen values with equal halves (decisions D20, D22 and D23; where `STRIDE` is 0, log entry
25). -/
def Obligations.OutputIsOneDoubledBytePerPixel : Prop :=
  ∀ (s : State) (offset len : Nat),
    (encodeSpan s offset len).length = spanOutput s.cfg len ∧
    ∀ b ∈ encodeSpan s offset len, b.extractLsb' 4 4 = b.extractLsb' 0 4

/-- 20_memory.md R50, R53 and R57: a FLUSH depends on no byte of `FB` outside its span, and in COLOR16 mode on no byte at an
even address (decisions D20, D21 and D23); two machines that differ only there send the same and come to the same state, but
for `FB` itself. -/
def Obligations.FlushReadsOnlyItsSpan : Prop :=
  ∀ (s : State) (offset len : Nat) (fb' : Memory) (t : State), s.FbStable →
    (∀ a, offset ≤ a → a < offset + len → (s.cfg.srcFmt = .color16 → a % 2 = 1) →
      ({ s with fb := fb' } : State).fbByte a = s.fbByte a) →
    exec (.flush offset len) s = .next t →
    exec (.flush offset len) { s with fb := fb' } = .next { t with fb := fb' }

/-- 20_memory.md R58: where the host writes bytes of the span during the encode step, each byte the encoder reads is the old
or the new one; the bytes the host does not write are read as they were (log entry 13). -/
def Obligations.RacedBytesAreOldOrNew : Prop :=
  ∀ (s : State) (a : Nat),
    (s.fbSample a = s.fbByte a ∨ some (s.fbSample a) = s.fbRace.read? a) ∧
    (s.fbRace.read? a = none → s.fbSample a = s.fbByte a)

/-- A full GRAY4 frame (20_memory.md R51, R60, 43_pixel_encoder.md R168): after a FLUSH of every row, pixel (`px`, `py`) is
the byte at `width * py + px` of `TX`, its nibble in both halves (decision D20). -/
def Obligations.FullFramePixelPlacement : Prop :=
  ∀ (s t : State) (px py : Nat), s.cfg.srcFmt = .gray4 → s.cfg.rowPad = 0 → s.cfg.width % 2 = 0 → s.FbStable →
    exec (.flush 0 (s.cfg.height * stride s.cfg)) s = .next t → t.response = some .ok →
    px < s.cfg.width → py < s.cfg.height →
    t.tx.read? (s.cfg.width * py + px) = some (gray4Pixel s px py ++ gray4Pixel s px py)

/-! ## The lifecycle -/

/-- `INIT` from `Uninitialized` with every burst answered `ok` (44_lifecycle.md R192, R193, R196, decisions D29 and D31 to
D34): the thirteen steps' frames in order, the scratch buffer allocated with its contents unspecified, the window unknown,
`On`. -/
def Obligations.InitCompletes : Prop :=
  ∀ (s : State) (gray : List Frame), s.Ready → s.life = .uninitialized → grayscaleFrames s.cfg = .ok gray →
    s.NextOk (planOf (initFrames s.cfg gray)).length →
    exec .init s = .next { s with
      life := .on, txValid := true, tx := [], txEpoch := s.txEpoch + 1, win := none, dc := some .cmd
      asked := s.asked + (planOf (initFrames s.cfg gray)).length, response := some .ok,
      trace := s.trace ++ okBursts (planOf (initFrames s.cfg gray)) }

/-- A failed `INIT` (44_lifecycle.md R200, 60_exceptions.md R223, decision D31): the window unknown, no scratch buffer,
`Uninitialized` again; and an invalid configured curve fails it, with the error of `GammaLevels` (decision D32), after the
frames of steps 1 and 2. -/
def Obligations.FailedInitReturnsToUninitialized : Prop :=
  (∀ (s t : State) (e : Err), exec .init s = .next t → t.response = some (.err e) →
    t.life = .uninitialized ∧ t.txValid = false ∧ t.win = none ∧ t.op = none ∧ t.tx = s.tx ∧ InputsKept s t) ∧
  ∀ (s : State) (e : Err), s.Ready → s.life = .uninitialized → grayscaleFrames s.cfg = .error e →
    s.NextOk (planOf (initHead s.cfg)).length →
    exec .init s = .next { s with
      win := none, txValid := false, dc := some .cmd, asked := s.asked + (planOf (initHead s.cfg)).length
      response := some (.err e), trace := s.trace ++ okBursts (planOf (initHead s.cfg)) }

/-- `BLANK on` by the answer of the bus (44_lifecycle.md R197, decisions D34 and D35): one frame without parameters; `life`
takes its new value only when it was answered `ok`. -/
def Obligations.BlankByBusAnswer : Prop :=
  ∀ (s : State) (on : Bool), s.Ready → s.life = .on ∨ s.life = .blanked →
    (s.answerTo s.asked = .ok → exec (.blank on) s = .next { s with
      life := if on then .blanked else .on
      dc := some .cmd, asked := s.asked + 1, response := some .ok,
      trace := s.trace ++ [⟨.cmd, [if on then s.cfg.regDisplayOff else s.cfg.regDisplayOn], .ok⟩] }) ∧
    (s.answerTo s.asked = .fail → exec (.blank on) s = .next { s with
      dc := some .cmd, asked := s.asked + 1, response := some (.err .busTransferFailed),
      trace := s.trace ++ [⟨.cmd, [if on then s.cfg.regDisplayOff else s.cfg.regDisplayOn], .fail⟩] })

/-- `DESTROY` in `On`, `Blanked` and `Uninitialized` (44_lifecycle.md R198, decision D37): the scratch buffer is released and
its contents unspecified, nothing is sent, `dc` keeps its level; it needs no bus. -/
def Obligations.DestroyReleasesTheBuffer : Prop :=
  ∀ s : State, s.op = none → s.life = .on ∨ s.life = .blanked ∨ s.life = .uninitialized →
    exec .destroy s = .next { s with
      life := .destroyed, txValid := false, tx := [], txEpoch := s.txEpoch + 1, response := some .ok }

/-- The frame of INIT, BLANK and DESTROY, whatever the bus answers (10_state.md R25, R30, R33; decisions D19, D31, D35 and
D37). -/
def Obligations.LifecycleOperationsFrame : Prop :=
  (∀ s t : State, exec .init s = .next t → InputsKept s t ∧ t.win = none) ∧
  (∀ (s t : State) (on : Bool), exec (.blank on) s = .next t → InputsKept s t ∧ ScratchKept s t ∧ t.win = s.win) ∧
  ∀ s t : State, exec .destroy s = .next t → InputsKept s t ∧ BusUntouched s t ∧ t.win = s.win

/-- The pseudo-operation REDRAW (30_encoding.md R93, 20_memory.md R60, decision D26): the window's frames and then one burst
of `width` bytes for each row of the window. In GRAY4 mode a row must hold no padding (decision D23). -/
def Obligations.RedrawSendsWindowThenRows : Prop :=
  ∀ (s : State) (ys ye : Byte), s.Ready → s.life = .on ∨ s.life = .blanked → s.txValid = true → s.fbPresent = true →
    (s.cfg.srcFmt = .gray4 → s.cfg.rowPad = 0 ∧ s.cfg.width % 2 = 0) → 0 < s.cfg.width → s.FbStable →
    ys.toNat ≤ ye.toNat → ye.toNat < s.cfg.height → (ye.toNat + 1) * stride s.cfg ≤ s.fbLen →
    s.NextOk (5 + (planOf s.cfg.windowTrailer).length) →
    ∃ (t : State) (bytes : List Byte), redraw ys ye s = .next t ∧ t.response = some .ok ∧
      bytes.length = s.cfg.width * (ye.toNat + 1 - ys.toNat) ∧ t.win = some ⟨28, 91, ys, ye⟩ ∧
      t.trace = s.trace ++ ([⟨.cmd, [s.cfg.regSetColumn], .ok⟩, ⟨.data, [28, 91], .ok⟩,
        ⟨.cmd, [s.cfg.regSetRow], .ok⟩, ⟨.data, [ys, ye], .ok⟩] ++ okBursts (planOf s.cfg.windowTrailer) ++
          [⟨.data, bytes, .ok⟩])

/-! ## Memory -/

/-- A block write puts its bytes at its addresses in order and leaves every other address alone, and keeps the canonical form
(00_scope.md R11). -/
def Obligations.BlockWriteThenRead : Prop :=
  ∀ (m : Memory) (a : Nat) (bs : List Byte),
    (∀ k, k < bs.length → (m.writeBytes a bs).read? (a + k) = bs[k]?) ∧
    (∀ x, x < a ∨ a + bs.length ≤ x → (m.writeBytes a bs).read? x = m.read? x) ∧
    (m.wf → (m.writeBytes a bs).wf)

/-! ## The host and the platform -/

/-- The events of the host and the platform, beside requests (log entry 16): a host write is visible as the host wrote it and
touches no other byte (20_memory.md R50, R62 (c)), and faults outside `FB`; a write during the next encode step is pending
(R58, log entry 13); an attached region holds the bytes it brings, below the length declared, and no other known one
(10_state.md R34, R52); the bus is acquired or not (40_command_protocol.md R111, log entry 15). -/
def Obligations.HostAndPlatformEvents : Prop :=
  ∀ (s : State) (rest : List Input),
    (∀ a b, s.inbox = .event (.hostWrite a b) :: rest →
      (a < s.fbLen → ∃ t, step s = .next t ∧ t.fbByte a = b ∧ (∀ x, x ≠ a → t.fbByte x = s.fbByte x) ∧
        t = { s with inbox := rest, fb := t.fb }) ∧
      (s.fbLen ≤ a → step s = .fault (.fbOutOfRange a))) ∧
    (∀ a b, s.inbox = .event (.hostWriteDuringFlush a b) :: rest →
      (a < s.fbLen → ∃ t, step s = .next t ∧ t.fbRace.read? a = some b ∧
        (∀ x, x ≠ a → t.fbRace.read? x = s.fbRace.read? x) ∧ t = { s with inbox := rest, fbRace := t.fbRace }) ∧
      (s.fbLen ≤ a → step s = .fault (.fbOutOfRange a))) ∧
    (∀ len cells, s.inbox = .event (.attachFb len cells) :: rest →
      ∃ t, step s = .next t ∧
        (∀ a b, (a, b) ∈ cells → a < len → (∀ b', (a, b') ∈ cells → b' = b) → t.fbByte a = b) ∧
        (∀ a, (len ≤ a ∨ ∀ b, (a, b) ∉ cells) → t.fb.read? a = none) ∧
        t = { s with
          inbox := rest, fbPresent := true, fbLen := len, fb := t.fb, fbEpoch := s.fbEpoch + 1, fbRace := [] }) ∧
    (s.inbox = .event .detachFb :: rest → step s = .next { s with inbox := rest, fbPresent := false }) ∧
    (s.inbox = .event .acquireBus :: rest → step s = .next { s with inbox := rest, busReady := true }) ∧
    (s.inbox = .event .releaseBus :: rest → step s = .next { s with inbox := rest, busReady := false })
end

