-- ==== Sys2Proof/Laws/State.lean ====
section
/-! SUPPORT. One lemma per field for each named update of the state, so that no later proof unfolds a record update. -/

namespace Sys2Proof.Machine

/-! ## `State.storeTx` -/

@[simp] theorem State.storeTx_cfg (s : State) (bs : List Byte) : (s.storeTx bs).cfg = s.cfg := rfl
@[simp] theorem State.storeTx_life (s : State) (bs : List Byte) : (s.storeTx bs).life = s.life := rfl
@[simp] theorem State.storeTx_txValid (s : State) (bs : List Byte) : (s.storeTx bs).txValid = s.txValid := rfl
@[simp] theorem State.storeTx_tx (s : State) (bs : List Byte) : (s.storeTx bs).tx = s.tx.writeBytes 0 bs := rfl
@[simp] theorem State.storeTx_txEpoch (s : State) (bs : List Byte) : (s.storeTx bs).txEpoch = s.txEpoch := rfl
@[simp] theorem State.storeTx_dc (s : State) (bs : List Byte) : (s.storeTx bs).dc = s.dc := rfl
@[simp] theorem State.storeTx_win (s : State) (bs : List Byte) : (s.storeTx bs).win = s.win := rfl
@[simp] theorem State.storeTx_op (s : State) (bs : List Byte) : (s.storeTx bs).op = s.op := rfl
@[simp] theorem State.storeTx_fbPresent (s : State) (bs : List Byte) : (s.storeTx bs).fbPresent = s.fbPresent := rfl
@[simp] theorem State.storeTx_fbLen (s : State) (bs : List Byte) : (s.storeTx bs).fbLen = s.fbLen := rfl
@[simp] theorem State.storeTx_fb (s : State) (bs : List Byte) : (s.storeTx bs).fb = s.fb := rfl
@[simp] theorem State.storeTx_fbEpoch (s : State) (bs : List Byte) : (s.storeTx bs).fbEpoch = s.fbEpoch := rfl
@[simp] theorem State.storeTx_fbRace (s : State) (bs : List Byte) : (s.storeTx bs).fbRace = s.fbRace := rfl
@[simp] theorem State.storeTx_raceDraw (s : State) (bs : List Byte) : (s.storeTx bs).raceDraw = s.raceDraw := rfl
@[simp] theorem State.storeTx_busReady (s : State) (bs : List Byte) : (s.storeTx bs).busReady = s.busReady := rfl
@[simp] theorem State.storeTx_busScript (s : State) (bs : List Byte) : (s.storeTx bs).busScript = s.busScript := rfl
@[simp] theorem State.storeTx_asked (s : State) (bs : List Byte) : (s.storeTx bs).asked = s.asked := rfl
@[simp] theorem State.storeTx_trace (s : State) (bs : List Byte) : (s.storeTx bs).trace = s.trace := rfl
@[simp] theorem State.storeTx_response (s : State) (bs : List Byte) : (s.storeTx bs).response = s.response := rfl
@[simp] theorem State.storeTx_inbox (s : State) (bs : List Byte) : (s.storeTx bs).inbox = s.inbox := rfl

/-! ## `State.endBorrow` -/

@[simp] theorem State.endBorrow_cfg (s : State) : s.endBorrow.cfg = s.cfg := rfl
@[simp] theorem State.endBorrow_life (s : State) : s.endBorrow.life = s.life := rfl
@[simp] theorem State.endBorrow_txValid (s : State) : s.endBorrow.txValid = s.txValid := rfl
@[simp] theorem State.endBorrow_tx (s : State) : s.endBorrow.tx = s.tx := rfl
@[simp] theorem State.endBorrow_txEpoch (s : State) : s.endBorrow.txEpoch = s.txEpoch := rfl
@[simp] theorem State.endBorrow_dc (s : State) : s.endBorrow.dc = s.dc := rfl
@[simp] theorem State.endBorrow_win (s : State) : s.endBorrow.win = s.win := rfl
@[simp] theorem State.endBorrow_op (s : State) : s.endBorrow.op = s.op := rfl
@[simp] theorem State.endBorrow_fbPresent (s : State) : s.endBorrow.fbPresent = s.fbPresent := rfl
@[simp] theorem State.endBorrow_fbLen (s : State) : s.endBorrow.fbLen = s.fbLen := rfl
@[simp] theorem State.endBorrow_fb (s : State) : s.endBorrow.fb = s.fb.overlay s.fbRace := rfl
@[simp] theorem State.endBorrow_fbEpoch (s : State) : s.endBorrow.fbEpoch = s.fbEpoch := rfl
@[simp] theorem State.endBorrow_fbRace (s : State) : s.endBorrow.fbRace = [] := rfl
@[simp] theorem State.endBorrow_raceDraw (s : State) : s.endBorrow.raceDraw = s.raceDraw + 1 := rfl
@[simp] theorem State.endBorrow_busReady (s : State) : s.endBorrow.busReady = s.busReady := rfl
@[simp] theorem State.endBorrow_busScript (s : State) : s.endBorrow.busScript = s.busScript := rfl
@[simp] theorem State.endBorrow_asked (s : State) : s.endBorrow.asked = s.asked := rfl
@[simp] theorem State.endBorrow_trace (s : State) : s.endBorrow.trace = s.trace := rfl
@[simp] theorem State.endBorrow_response (s : State) : s.endBorrow.response = s.response := rfl
@[simp] theorem State.endBorrow_inbox (s : State) : s.endBorrow.inbox = s.inbox := rfl

/-! ## `State.forgetTx` -/

@[simp] theorem State.forgetTx_cfg (s : State) : s.forgetTx.cfg = s.cfg := rfl
@[simp] theorem State.forgetTx_life (s : State) : s.forgetTx.life = s.life := rfl
@[simp] theorem State.forgetTx_txValid (s : State) : s.forgetTx.txValid = s.txValid := rfl
@[simp] theorem State.forgetTx_tx (s : State) : s.forgetTx.tx = [] := rfl
@[simp] theorem State.forgetTx_txEpoch (s : State) : s.forgetTx.txEpoch = s.txEpoch + 1 := rfl
@[simp] theorem State.forgetTx_dc (s : State) : s.forgetTx.dc = s.dc := rfl
@[simp] theorem State.forgetTx_win (s : State) : s.forgetTx.win = s.win := rfl
@[simp] theorem State.forgetTx_op (s : State) : s.forgetTx.op = s.op := rfl
@[simp] theorem State.forgetTx_fbPresent (s : State) : s.forgetTx.fbPresent = s.fbPresent := rfl
@[simp] theorem State.forgetTx_fbLen (s : State) : s.forgetTx.fbLen = s.fbLen := rfl
@[simp] theorem State.forgetTx_fb (s : State) : s.forgetTx.fb = s.fb := rfl
@[simp] theorem State.forgetTx_fbEpoch (s : State) : s.forgetTx.fbEpoch = s.fbEpoch := rfl
@[simp] theorem State.forgetTx_fbRace (s : State) : s.forgetTx.fbRace = s.fbRace := rfl
@[simp] theorem State.forgetTx_raceDraw (s : State) : s.forgetTx.raceDraw = s.raceDraw := rfl
@[simp] theorem State.forgetTx_busReady (s : State) : s.forgetTx.busReady = s.busReady := rfl
@[simp] theorem State.forgetTx_busScript (s : State) : s.forgetTx.busScript = s.busScript := rfl
@[simp] theorem State.forgetTx_asked (s : State) : s.forgetTx.asked = s.asked := rfl
@[simp] theorem State.forgetTx_trace (s : State) : s.forgetTx.trace = s.trace := rfl
@[simp] theorem State.forgetTx_response (s : State) : s.forgetTx.response = s.response := rfl
@[simp] theorem State.forgetTx_inbox (s : State) : s.forgetTx.inbox = s.inbox := rfl

/-! ## `State.work` -/

@[simp] theorem State.work_cfg (s : State) (f : Working → Working) : (s.work f).cfg = s.cfg := rfl
@[simp] theorem State.work_life (s : State) (f : Working → Working) : (s.work f).life = s.life := rfl
@[simp] theorem State.work_txValid (s : State) (f : Working → Working) : (s.work f).txValid = s.txValid := rfl
@[simp] theorem State.work_tx (s : State) (f : Working → Working) : (s.work f).tx = s.tx := rfl
@[simp] theorem State.work_txEpoch (s : State) (f : Working → Working) : (s.work f).txEpoch = s.txEpoch := rfl
@[simp] theorem State.work_dc (s : State) (f : Working → Working) : (s.work f).dc = s.dc := rfl
@[simp] theorem State.work_win (s : State) (f : Working → Working) : (s.work f).win = s.win := rfl
@[simp] theorem State.work_op (s : State) (f : Working → Working) : (s.work f).op = s.op.map fun p => { p with work := f p.work } := rfl
@[simp] theorem State.work_fbPresent (s : State) (f : Working → Working) : (s.work f).fbPresent = s.fbPresent := rfl
@[simp] theorem State.work_fbLen (s : State) (f : Working → Working) : (s.work f).fbLen = s.fbLen := rfl
@[simp] theorem State.work_fb (s : State) (f : Working → Working) : (s.work f).fb = s.fb := rfl
@[simp] theorem State.work_fbEpoch (s : State) (f : Working → Working) : (s.work f).fbEpoch = s.fbEpoch := rfl
@[simp] theorem State.work_fbRace (s : State) (f : Working → Working) : (s.work f).fbRace = s.fbRace := rfl
@[simp] theorem State.work_raceDraw (s : State) (f : Working → Working) : (s.work f).raceDraw = s.raceDraw := rfl
@[simp] theorem State.work_busReady (s : State) (f : Working → Working) : (s.work f).busReady = s.busReady := rfl
@[simp] theorem State.work_busScript (s : State) (f : Working → Working) : (s.work f).busScript = s.busScript := rfl
@[simp] theorem State.work_asked (s : State) (f : Working → Working) : (s.work f).asked = s.asked := rfl
@[simp] theorem State.work_trace (s : State) (f : Working → Working) : (s.work f).trace = s.trace := rfl
@[simp] theorem State.work_response (s : State) (f : Working → Working) : (s.work f).response = s.response := rfl
@[simp] theorem State.work_inbox (s : State) (f : Working → Working) : (s.work f).inbox = s.inbox := rfl

/-! ## `State.storeLevels` -/

@[simp] theorem State.storeLevels_cfg (s : State) (lv : List Byte) : (s.storeLevels lv).cfg = s.cfg := rfl
@[simp] theorem State.storeLevels_life (s : State) (lv : List Byte) : (s.storeLevels lv).life = s.life := rfl
@[simp] theorem State.storeLevels_txValid (s : State) (lv : List Byte) : (s.storeLevels lv).txValid = s.txValid := rfl
@[simp] theorem State.storeLevels_tx (s : State) (lv : List Byte) : (s.storeLevels lv).tx = s.tx := rfl
@[simp] theorem State.storeLevels_txEpoch (s : State) (lv : List Byte) : (s.storeLevels lv).txEpoch = s.txEpoch := rfl
@[simp] theorem State.storeLevels_dc (s : State) (lv : List Byte) : (s.storeLevels lv).dc = s.dc := rfl
@[simp] theorem State.storeLevels_win (s : State) (lv : List Byte) : (s.storeLevels lv).win = s.win := rfl
@[simp] theorem State.storeLevels_op (s : State) (lv : List Byte) : (s.storeLevels lv).op = (s.work fun w => { w with lvl := lv, acc := lv.getLast?.map BitVec.toNat }).op := rfl
@[simp] theorem State.storeLevels_fbPresent (s : State) (lv : List Byte) : (s.storeLevels lv).fbPresent = s.fbPresent := rfl
@[simp] theorem State.storeLevels_fbLen (s : State) (lv : List Byte) : (s.storeLevels lv).fbLen = s.fbLen := rfl
@[simp] theorem State.storeLevels_fb (s : State) (lv : List Byte) : (s.storeLevels lv).fb = s.fb := rfl
@[simp] theorem State.storeLevels_fbEpoch (s : State) (lv : List Byte) : (s.storeLevels lv).fbEpoch = s.fbEpoch := rfl
@[simp] theorem State.storeLevels_fbRace (s : State) (lv : List Byte) : (s.storeLevels lv).fbRace = s.fbRace := rfl
@[simp] theorem State.storeLevels_raceDraw (s : State) (lv : List Byte) : (s.storeLevels lv).raceDraw = s.raceDraw := rfl
@[simp] theorem State.storeLevels_busReady (s : State) (lv : List Byte) : (s.storeLevels lv).busReady = s.busReady := rfl
@[simp] theorem State.storeLevels_busScript (s : State) (lv : List Byte) : (s.storeLevels lv).busScript = s.busScript := rfl
@[simp] theorem State.storeLevels_asked (s : State) (lv : List Byte) : (s.storeLevels lv).asked = s.asked := rfl
@[simp] theorem State.storeLevels_trace (s : State) (lv : List Byte) : (s.storeLevels lv).trace = s.trace := rfl
@[simp] theorem State.storeLevels_response (s : State) (lv : List Byte) : (s.storeLevels lv).response = s.response := rfl
@[simp] theorem State.storeLevels_inbox (s : State) (lv : List Byte) : (s.storeLevels lv).inbox = s.inbox := rfl

/-! ## `State.storeCount` -/

@[simp] theorem State.storeCount_cfg (s : State) (n : Nat) : (s.storeCount n).cfg = s.cfg := rfl
@[simp] theorem State.storeCount_life (s : State) (n : Nat) : (s.storeCount n).life = s.life := rfl
@[simp] theorem State.storeCount_txValid (s : State) (n : Nat) : (s.storeCount n).txValid = s.txValid := rfl
@[simp] theorem State.storeCount_tx (s : State) (n : Nat) : (s.storeCount n).tx = s.tx := rfl
@[simp] theorem State.storeCount_txEpoch (s : State) (n : Nat) : (s.storeCount n).txEpoch = s.txEpoch := rfl
@[simp] theorem State.storeCount_dc (s : State) (n : Nat) : (s.storeCount n).dc = s.dc := rfl
@[simp] theorem State.storeCount_win (s : State) (n : Nat) : (s.storeCount n).win = s.win := rfl
@[simp] theorem State.storeCount_op (s : State) (n : Nat) : (s.storeCount n).op = (s.work fun w => { w with nOut := some n }).op := rfl
@[simp] theorem State.storeCount_fbPresent (s : State) (n : Nat) : (s.storeCount n).fbPresent = s.fbPresent := rfl
@[simp] theorem State.storeCount_fbLen (s : State) (n : Nat) : (s.storeCount n).fbLen = s.fbLen := rfl
@[simp] theorem State.storeCount_fb (s : State) (n : Nat) : (s.storeCount n).fb = s.fb := rfl
@[simp] theorem State.storeCount_fbEpoch (s : State) (n : Nat) : (s.storeCount n).fbEpoch = s.fbEpoch := rfl
@[simp] theorem State.storeCount_fbRace (s : State) (n : Nat) : (s.storeCount n).fbRace = s.fbRace := rfl
@[simp] theorem State.storeCount_raceDraw (s : State) (n : Nat) : (s.storeCount n).raceDraw = s.raceDraw := rfl
@[simp] theorem State.storeCount_busReady (s : State) (n : Nat) : (s.storeCount n).busReady = s.busReady := rfl
@[simp] theorem State.storeCount_busScript (s : State) (n : Nat) : (s.storeCount n).busScript = s.busScript := rfl
@[simp] theorem State.storeCount_asked (s : State) (n : Nat) : (s.storeCount n).asked = s.asked := rfl
@[simp] theorem State.storeCount_trace (s : State) (n : Nat) : (s.storeCount n).trace = s.trace := rfl
@[simp] theorem State.storeCount_response (s : State) (n : Nat) : (s.storeCount n).response = s.response := rfl
@[simp] theorem State.storeCount_inbox (s : State) (n : Nat) : (s.storeCount n).inbox = s.inbox := rfl

/-! ## `State.latch` -/

@[simp] theorem State.latch_cfg (s : State) (i : Instr) : (s.latch i).cfg = s.cfg := rfl
@[simp] theorem State.latch_life (s : State) (i : Instr) : (s.latch i).life = s.life := rfl
@[simp] theorem State.latch_txValid (s : State) (i : Instr) : (s.latch i).txValid = s.txValid := rfl
@[simp] theorem State.latch_tx (s : State) (i : Instr) : (s.latch i).tx = s.tx := rfl
@[simp] theorem State.latch_txEpoch (s : State) (i : Instr) : (s.latch i).txEpoch = s.txEpoch := rfl
@[simp] theorem State.latch_dc (s : State) (i : Instr) : (s.latch i).dc = s.dc := rfl
@[simp] theorem State.latch_win (s : State) (i : Instr) : (s.latch i).win = s.win := rfl
@[simp] theorem State.latch_op (s : State) (i : Instr) : (s.latch i).op = some ⟨i, Working.empty⟩ := rfl
@[simp] theorem State.latch_fbPresent (s : State) (i : Instr) : (s.latch i).fbPresent = s.fbPresent := rfl
@[simp] theorem State.latch_fbLen (s : State) (i : Instr) : (s.latch i).fbLen = s.fbLen := rfl
@[simp] theorem State.latch_fb (s : State) (i : Instr) : (s.latch i).fb = s.fb := rfl
@[simp] theorem State.latch_fbEpoch (s : State) (i : Instr) : (s.latch i).fbEpoch = s.fbEpoch := rfl
@[simp] theorem State.latch_fbRace (s : State) (i : Instr) : (s.latch i).fbRace = s.fbRace := rfl
@[simp] theorem State.latch_raceDraw (s : State) (i : Instr) : (s.latch i).raceDraw = s.raceDraw := rfl
@[simp] theorem State.latch_busReady (s : State) (i : Instr) : (s.latch i).busReady = s.busReady := rfl
@[simp] theorem State.latch_busScript (s : State) (i : Instr) : (s.latch i).busScript = s.busScript := rfl
@[simp] theorem State.latch_asked (s : State) (i : Instr) : (s.latch i).asked = s.asked := rfl
@[simp] theorem State.latch_trace (s : State) (i : Instr) : (s.latch i).trace = s.trace := rfl
@[simp] theorem State.latch_response (s : State) (i : Instr) : (s.latch i).response = none := rfl
@[simp] theorem State.latch_inbox (s : State) (i : Instr) : (s.latch i).inbox = s.inbox := rfl

/-! ## `State.beginInit` -/

@[simp] theorem State.beginInit_cfg (s : State) : s.beginInit.cfg = s.cfg := rfl
@[simp] theorem State.beginInit_life (s : State) : s.beginInit.life = .initializing := rfl
@[simp] theorem State.beginInit_txValid (s : State) : s.beginInit.txValid = s.txValid := rfl
@[simp] theorem State.beginInit_tx (s : State) : s.beginInit.tx = s.tx := rfl
@[simp] theorem State.beginInit_txEpoch (s : State) : s.beginInit.txEpoch = s.txEpoch := rfl
@[simp] theorem State.beginInit_dc (s : State) : s.beginInit.dc = s.dc := rfl
@[simp] theorem State.beginInit_win (s : State) : s.beginInit.win = none := rfl
@[simp] theorem State.beginInit_op (s : State) : s.beginInit.op = s.op := rfl
@[simp] theorem State.beginInit_fbPresent (s : State) : s.beginInit.fbPresent = s.fbPresent := rfl
@[simp] theorem State.beginInit_fbLen (s : State) : s.beginInit.fbLen = s.fbLen := rfl
@[simp] theorem State.beginInit_fb (s : State) : s.beginInit.fb = s.fb := rfl
@[simp] theorem State.beginInit_fbEpoch (s : State) : s.beginInit.fbEpoch = s.fbEpoch := rfl
@[simp] theorem State.beginInit_fbRace (s : State) : s.beginInit.fbRace = s.fbRace := rfl
@[simp] theorem State.beginInit_raceDraw (s : State) : s.beginInit.raceDraw = s.raceDraw := rfl
@[simp] theorem State.beginInit_busReady (s : State) : s.beginInit.busReady = s.busReady := rfl
@[simp] theorem State.beginInit_busScript (s : State) : s.beginInit.busScript = s.busScript := rfl
@[simp] theorem State.beginInit_asked (s : State) : s.beginInit.asked = s.asked := rfl
@[simp] theorem State.beginInit_trace (s : State) : s.beginInit.trace = s.trace := rfl
@[simp] theorem State.beginInit_response (s : State) : s.beginInit.response = s.response := rfl
@[simp] theorem State.beginInit_inbox (s : State) : s.beginInit.inbox = s.inbox := rfl

/-! ## `State.forgetWin` -/

@[simp] theorem State.forgetWin_cfg (s : State) : s.forgetWin.cfg = s.cfg := rfl
@[simp] theorem State.forgetWin_life (s : State) : s.forgetWin.life = s.life := rfl
@[simp] theorem State.forgetWin_txValid (s : State) : s.forgetWin.txValid = s.txValid := rfl
@[simp] theorem State.forgetWin_tx (s : State) : s.forgetWin.tx = s.tx := rfl
@[simp] theorem State.forgetWin_txEpoch (s : State) : s.forgetWin.txEpoch = s.txEpoch := rfl
@[simp] theorem State.forgetWin_dc (s : State) : s.forgetWin.dc = s.dc := rfl
@[simp] theorem State.forgetWin_win (s : State) : s.forgetWin.win = none := rfl
@[simp] theorem State.forgetWin_op (s : State) : s.forgetWin.op = s.op := rfl
@[simp] theorem State.forgetWin_fbPresent (s : State) : s.forgetWin.fbPresent = s.fbPresent := rfl
@[simp] theorem State.forgetWin_fbLen (s : State) : s.forgetWin.fbLen = s.fbLen := rfl
@[simp] theorem State.forgetWin_fb (s : State) : s.forgetWin.fb = s.fb := rfl
@[simp] theorem State.forgetWin_fbEpoch (s : State) : s.forgetWin.fbEpoch = s.fbEpoch := rfl
@[simp] theorem State.forgetWin_fbRace (s : State) : s.forgetWin.fbRace = s.fbRace := rfl
@[simp] theorem State.forgetWin_raceDraw (s : State) : s.forgetWin.raceDraw = s.raceDraw := rfl
@[simp] theorem State.forgetWin_busReady (s : State) : s.forgetWin.busReady = s.busReady := rfl
@[simp] theorem State.forgetWin_busScript (s : State) : s.forgetWin.busScript = s.busScript := rfl
@[simp] theorem State.forgetWin_asked (s : State) : s.forgetWin.asked = s.asked := rfl
@[simp] theorem State.forgetWin_trace (s : State) : s.forgetWin.trace = s.trace := rfl
@[simp] theorem State.forgetWin_response (s : State) : s.forgetWin.response = s.response := rfl
@[simp] theorem State.forgetWin_inbox (s : State) : s.forgetWin.inbox = s.inbox := rfl

/-! ## `State.setWin` -/

@[simp] theorem State.setWin_cfg (s : State) (ys ye : Byte) : (s.setWin ys ye).cfg = s.cfg := rfl
@[simp] theorem State.setWin_life (s : State) (ys ye : Byte) : (s.setWin ys ye).life = s.life := rfl
@[simp] theorem State.setWin_txValid (s : State) (ys ye : Byte) : (s.setWin ys ye).txValid = s.txValid := rfl
@[simp] theorem State.setWin_tx (s : State) (ys ye : Byte) : (s.setWin ys ye).tx = s.tx := rfl
@[simp] theorem State.setWin_txEpoch (s : State) (ys ye : Byte) : (s.setWin ys ye).txEpoch = s.txEpoch := rfl
@[simp] theorem State.setWin_dc (s : State) (ys ye : Byte) : (s.setWin ys ye).dc = s.dc := rfl
@[simp] theorem State.setWin_win (s : State) (ys ye : Byte) : (s.setWin ys ye).win = some ⟨28, 91, ys, ye⟩ := rfl
@[simp] theorem State.setWin_op (s : State) (ys ye : Byte) : (s.setWin ys ye).op = s.op := rfl
@[simp] theorem State.setWin_fbPresent (s : State) (ys ye : Byte) : (s.setWin ys ye).fbPresent = s.fbPresent := rfl
@[simp] theorem State.setWin_fbLen (s : State) (ys ye : Byte) : (s.setWin ys ye).fbLen = s.fbLen := rfl
@[simp] theorem State.setWin_fb (s : State) (ys ye : Byte) : (s.setWin ys ye).fb = s.fb := rfl
@[simp] theorem State.setWin_fbEpoch (s : State) (ys ye : Byte) : (s.setWin ys ye).fbEpoch = s.fbEpoch := rfl
@[simp] theorem State.setWin_fbRace (s : State) (ys ye : Byte) : (s.setWin ys ye).fbRace = s.fbRace := rfl
@[simp] theorem State.setWin_raceDraw (s : State) (ys ye : Byte) : (s.setWin ys ye).raceDraw = s.raceDraw := rfl
@[simp] theorem State.setWin_busReady (s : State) (ys ye : Byte) : (s.setWin ys ye).busReady = s.busReady := rfl
@[simp] theorem State.setWin_busScript (s : State) (ys ye : Byte) : (s.setWin ys ye).busScript = s.busScript := rfl
@[simp] theorem State.setWin_asked (s : State) (ys ye : Byte) : (s.setWin ys ye).asked = s.asked := rfl
@[simp] theorem State.setWin_trace (s : State) (ys ye : Byte) : (s.setWin ys ye).trace = s.trace := rfl
@[simp] theorem State.setWin_response (s : State) (ys ye : Byte) : (s.setWin ys ye).response = s.response := rfl
@[simp] theorem State.setWin_inbox (s : State) (ys ye : Byte) : (s.setWin ys ye).inbox = s.inbox := rfl

/-! ## `Run.delivered` and `Run.fallen` -/

@[simp] theorem Run.delivered_cfg (r : Run) : r.delivered.cfg = r.st.cfg := by
  obtain ⟨s, _ | e | _⟩ := r <;> rfl
@[simp] theorem Run.delivered_life (r : Run) : r.delivered.life = r.st.life := by
  obtain ⟨s, _ | e | _⟩ := r <;> rfl
@[simp] theorem Run.delivered_txValid (r : Run) : r.delivered.txValid = r.st.txValid := by
  obtain ⟨s, _ | e | _⟩ := r <;> rfl
@[simp] theorem Run.delivered_tx (r : Run) : r.delivered.tx = r.st.tx := by
  obtain ⟨s, _ | e | _⟩ := r <;> rfl
@[simp] theorem Run.delivered_txEpoch (r : Run) : r.delivered.txEpoch = r.st.txEpoch := by
  obtain ⟨s, _ | e | _⟩ := r <;> rfl
@[simp] theorem Run.delivered_dc (r : Run) : r.delivered.dc = r.st.dc := by
  obtain ⟨s, _ | e | _⟩ := r <;> rfl
@[simp] theorem Run.delivered_win (r : Run) : r.delivered.win = r.st.win := by
  obtain ⟨s, _ | e | _⟩ := r <;> rfl
@[simp] theorem Run.delivered_fbPresent (r : Run) : r.delivered.fbPresent = r.st.fbPresent := by
  obtain ⟨s, _ | e | _⟩ := r <;> rfl
@[simp] theorem Run.delivered_fbLen (r : Run) : r.delivered.fbLen = r.st.fbLen := by
  obtain ⟨s, _ | e | _⟩ := r <;> rfl
@[simp] theorem Run.delivered_fb (r : Run) : r.delivered.fb = r.st.fb := by
  obtain ⟨s, _ | e | _⟩ := r <;> rfl
@[simp] theorem Run.delivered_fbEpoch (r : Run) : r.delivered.fbEpoch = r.st.fbEpoch := by
  obtain ⟨s, _ | e | _⟩ := r <;> rfl
@[simp] theorem Run.delivered_fbRace (r : Run) : r.delivered.fbRace = r.st.fbRace := by
  obtain ⟨s, _ | e | _⟩ := r <;> rfl
@[simp] theorem Run.delivered_raceDraw (r : Run) : r.delivered.raceDraw = r.st.raceDraw := by
  obtain ⟨s, _ | e | _⟩ := r <;> rfl
@[simp] theorem Run.delivered_busReady (r : Run) : r.delivered.busReady = r.st.busReady := by
  obtain ⟨s, _ | e | _⟩ := r <;> rfl
@[simp] theorem Run.delivered_busScript (r : Run) : r.delivered.busScript = r.st.busScript := by
  obtain ⟨s, _ | e | _⟩ := r <;> rfl
@[simp] theorem Run.delivered_asked (r : Run) : r.delivered.asked = r.st.asked := by
  obtain ⟨s, _ | e | _⟩ := r <;> rfl
@[simp] theorem Run.delivered_trace (r : Run) : r.delivered.trace = r.st.trace := by
  obtain ⟨s, _ | e | _⟩ := r <;> rfl
@[simp] theorem Run.delivered_inbox (r : Run) : r.delivered.inbox = r.st.inbox := by
  obtain ⟨s, _ | e | _⟩ := r <;> rfl
@[simp] theorem Run.fallen_cfg (r : Run) : r.fallen.cfg = r.st.cfg := by
  obtain ⟨s, _ | e | _⟩ := r <;> rfl
@[simp] theorem Run.fallen_life (r : Run) : r.fallen.life = r.st.life := by
  obtain ⟨s, _ | e | _⟩ := r <;> rfl
@[simp] theorem Run.fallen_txValid (r : Run) : r.fallen.txValid = r.st.txValid := by
  obtain ⟨s, _ | e | _⟩ := r <;> rfl
@[simp] theorem Run.fallen_tx (r : Run) : r.fallen.tx = r.st.tx := by
  obtain ⟨s, _ | e | _⟩ := r <;> rfl
@[simp] theorem Run.fallen_txEpoch (r : Run) : r.fallen.txEpoch = r.st.txEpoch := by
  obtain ⟨s, _ | e | _⟩ := r <;> rfl
@[simp] theorem Run.fallen_dc (r : Run) : r.fallen.dc = r.st.dc := by
  obtain ⟨s, _ | e | _⟩ := r <;> rfl
@[simp] theorem Run.fallen_win (r : Run) : r.fallen.win = r.st.win := by
  obtain ⟨s, _ | e | _⟩ := r <;> rfl
@[simp] theorem Run.fallen_fbPresent (r : Run) : r.fallen.fbPresent = r.st.fbPresent := by
  obtain ⟨s, _ | e | _⟩ := r <;> rfl
@[simp] theorem Run.fallen_fbLen (r : Run) : r.fallen.fbLen = r.st.fbLen := by
  obtain ⟨s, _ | e | _⟩ := r <;> rfl
@[simp] theorem Run.fallen_fb (r : Run) : r.fallen.fb = r.st.fb := by
  obtain ⟨s, _ | e | _⟩ := r <;> rfl
@[simp] theorem Run.fallen_fbEpoch (r : Run) : r.fallen.fbEpoch = r.st.fbEpoch := by
  obtain ⟨s, _ | e | _⟩ := r <;> rfl
@[simp] theorem Run.fallen_fbRace (r : Run) : r.fallen.fbRace = r.st.fbRace := by
  obtain ⟨s, _ | e | _⟩ := r <;> rfl
@[simp] theorem Run.fallen_raceDraw (r : Run) : r.fallen.raceDraw = r.st.raceDraw := by
  obtain ⟨s, _ | e | _⟩ := r <;> rfl
@[simp] theorem Run.fallen_busReady (r : Run) : r.fallen.busReady = r.st.busReady := by
  obtain ⟨s, _ | e | _⟩ := r <;> rfl
@[simp] theorem Run.fallen_busScript (r : Run) : r.fallen.busScript = r.st.busScript := by
  obtain ⟨s, _ | e | _⟩ := r <;> rfl
@[simp] theorem Run.fallen_asked (r : Run) : r.fallen.asked = r.st.asked := by
  obtain ⟨s, _ | e | _⟩ := r <;> rfl
@[simp] theorem Run.fallen_trace (r : Run) : r.fallen.trace = r.st.trace := by
  obtain ⟨s, _ | e | _⟩ := r <;> rfl
@[simp] theorem Run.fallen_inbox (r : Run) : r.fallen.inbox = r.st.inbox := by
  obtain ⟨s, _ | e | _⟩ := r <;> rfl

end Sys2Proof.Machine
end

