-- ==== Sys2Proof/Laws/Memory.lean ====
section
/-! SUPPORT. The laws of the byte memories: reads after writes, and that every operation keeps the canonical form. -/

namespace Sys2Proof.Machine

@[simp] theorem cellsAt_length (a : Nat) (bs : List Byte) : (cellsAt a bs).length = bs.length := by
  induction bs generalizing a with
  | nil => rfl
  | cons b bs ih => simp [cellsAt, ih]

theorem mem_cellsAt {a : Nat} {bs : List Byte} {c : Host.Cell} (h : c ∈ cellsAt a bs) :
    a ≤ c.1 ∧ c.1 < a + bs.length := by
  induction bs generalizing a with
  | nil => simp [cellsAt] at h
  | cons b bs ih =>
    simp only [cellsAt, List.mem_cons] at h
    rcases h with rfl | h
    · simp
    · have := ih h; simp only [List.length_cons]; omega

theorem cellsAt_wf (a : Nat) (bs : List Byte) : (cellsAt a bs).Pairwise fun p q => p.1 < q.1 := by
  induction bs generalizing a with
  | nil => simp [cellsAt]
  | cons b bs ih =>
    refine List.Pairwise.cons (fun c hc => ?_) (ih (a + 1))
    have := mem_cellsAt hc
    show a < c.1
    omega

/-- A block write keeps the canonical form. -/
theorem Memory.writeBytes_wf {m : Memory} (h : m.wf) (a : Nat) (bs : List Byte) : (m.writeBytes a bs).wf := by
  unfold Memory.writeBytes Memory.wf
  refine List.pairwise_append.2 ⟨List.pairwise_append.2 ⟨h.filter _, cellsAt_wf a bs, ?_⟩, h.filter _, ?_⟩
  · intro c hc d hd
    have h1 := mem_cellsAt hd
    simp at hc
    omega
  · intro c hc d hd
    simp only [List.mem_append, List.mem_filter, decide_eq_true_eq] at hc hd
    rcases hc with hc | hc
    · omega
    · have := mem_cellsAt hc; omega

theorem Memory.write_wf {m : Memory} (h : m.wf) (a : Nat) (b : Byte) : (m.write a b).wf :=
  Memory.writeBytes_wf h a [b]

/-- A listed byte after a block write was listed before or lies in the block. -/
theorem Memory.mem_writeBytes {m : Memory} {a : Nat} {bs : List Byte} {c : Host.Cell} (h : c ∈ m.writeBytes a bs) :
    c ∈ m ∨ (a ≤ c.1 ∧ c.1 < a + bs.length) := by
  simp only [Memory.writeBytes, List.mem_append, List.mem_filter] at h
  rcases h with (h | h) | h
  · exact .inl h.1
  · exact .inr (mem_cellsAt h)
  · exact .inl h.1

theorem Memory.overlay_wf {m : Memory} (h : m.wf) (later : Memory) : (m.overlay later).wf := by
  unfold Memory.overlay
  induction later generalizing m with
  | nil => simpa using h
  | cons c cs ih => exact ih (Memory.write_wf h c.1 c.2)

theorem Memory.mem_overlay {m later : Memory} {c : Host.Cell} (h : c ∈ m.overlay later) :
    c ∈ m ∨ ∃ d ∈ later, d.1 = c.1 := by
  unfold Memory.overlay at h
  induction later generalizing m with
  | nil => exact .inl h
  | cons d ds ih =>
    rcases ih h with h1 | ⟨e, he, h2⟩
    · rcases Memory.mem_writeBytes h1 with h3 | h3
      · exact .inl h3
      · refine .inr ⟨d, List.mem_cons_self .., ?_⟩
        simp at h3
        omega
    · exact .inr ⟨e, List.mem_cons_of_mem _ he, h2⟩

theorem Memory.ofCells_wf (len : Nat) (cells : List Host.Cell) : (Memory.ofCells len cells).wf :=
  Memory.overlay_wf (by simp [Memory.wf]) _

theorem Memory.mem_ofCells {len : Nat} {cells : List Host.Cell} {c : Host.Cell} (h : c ∈ Memory.ofCells len cells) :
    c.1 < len := by
  rcases Memory.mem_overlay h with h | ⟨d, hd, h⟩
  · simp at h
  · simp only [List.mem_filter, decide_eq_true_eq] at hd
    omega

/-! ## Reads -/

theorem lookup_append (l r : Memory) (a : Nat) : (l ++ r).lookup a = (l.lookup a).or (r.lookup a) := by
  induction l with
  | nil => simp
  | cons c cs ih =>
    obtain ⟨x, b⟩ := c
    by_cases h : a = x
    · subst h; simp [List.lookup]
    · simp [List.lookup, beq_eq_false_iff_ne.2 h, ih]

theorem lookup_filter (m : Memory) (p : Nat → Bool) (a : Nat) :
    (m.filter fun c => p c.1).lookup a = if p a then m.lookup a else none := by
  induction m with
  | nil => simp
  | cons c cs ih =>
    obtain ⟨x, b⟩ := c
    by_cases hx : a = x
    · subst hx
      by_cases hp : p a = true
      · simp [hp]
      · rw [List.filter_cons_of_neg (by simpa using hp), ih, if_neg hp, if_neg hp]
    · by_cases hp : p x = true
      · simp [hp, List.lookup, beq_eq_false_iff_ne.2 hx, ih]
      · simp [hp, List.lookup, beq_eq_false_iff_ne.2 hx, ih]

theorem cellsAt_lookup (a : Nat) (bs : List Byte) (x : Nat) :
    (cellsAt a bs).lookup x = if a ≤ x then bs[x - a]? else none := by
  induction bs generalizing a with
  | nil => simp [cellsAt]
  | cons b bs ih =>
    by_cases h : x = a
    · subst h; simp [cellsAt]
    · rw [cellsAt, List.lookup, beq_eq_false_iff_ne.2 h, ih]
      by_cases h1 : a ≤ x
      · have h2 : a + 1 ≤ x := by omega
        have h3 : x - a = (x - (a + 1)) + 1 := by omega
        simp [h1, h2, h3]
      · have h2 : ¬ a + 1 ≤ x := by omega
        simp [h1, h2]

/-- A read after a block write: the block's byte inside it, the earlier byte everywhere else. -/
theorem Memory.read?_writeBytes (m : Memory) (a : Nat) (bs : List Byte) (x : Nat) :
    (m.writeBytes a bs).read? x = if a ≤ x ∧ x < a + bs.length then bs[x - a]? else m.read? x := by
  unfold Memory.writeBytes Memory.read?
  rw [lookup_append, lookup_append, lookup_filter m (fun y => decide (y < a)),
    lookup_filter m (fun y => decide (a + bs.length ≤ y)), cellsAt_lookup]
  by_cases h1 : x < a
  · have : ¬ a ≤ x := by omega
    have h3 : ¬ a + bs.length ≤ x := by omega
    simp [h1, this, h3]
  · by_cases h2 : x < a + bs.length
    · have h3 : a ≤ x := by omega
      have h4 : ¬ a + bs.length ≤ x := by omega
      simp [h1, h2, h3, h4]
    · have h3 : a ≤ x := by omega
      have h4 : a + bs.length ≤ x := by omega
      have h5 : bs[x - a]? = none := by rw [List.getElem?_eq_none_iff]; omega
      simp [h1, h2, h3, h4, h5]

theorem Memory.read?_write (m : Memory) (a : Nat) (b : Byte) (x : Nat) :
    (m.write a b).read? x = if x = a then some b else m.read? x := by
  rw [Memory.write, Memory.read?_writeBytes]
  by_cases h : x = a
  · subst h; simp
  · have : ¬ (a ≤ x ∧ x < a + [b].length) := by simp; omega
    rw [if_neg this, if_neg h]

@[simp] theorem Memory.overlay_nil (m : Memory) : m.overlay [] = m := rfl

@[simp] theorem Memory.overlay_cons (m : Memory) (c : Host.Cell) (later : Memory) :
    m.overlay (c :: later) = (m.write c.1 c.2).overlay later := rfl

/-- A read of an address that the second memory does not list. -/
theorem Memory.read?_overlay_of_not_mem {m later : Memory} {x : Nat} (h : ∀ b, (x, b) ∉ later) :
    (m.overlay later).read? x = m.read? x := by
  induction later generalizing m with
  | nil => rfl
  | cons c cs ih =>
    have hx : x ≠ c.1 := fun hx => h c.2 (by rw [hx]; exact List.mem_cons_self ..)
    rw [Memory.overlay_cons, ih fun b hb => h b (List.mem_cons_of_mem _ hb), Memory.read?_write, if_neg hx]

/-- A read of an address that the second memory lists with one byte. -/
theorem Memory.read?_overlay_of_mem {m later : Memory} {x : Nat} {b : Byte} (hb : (x, b) ∈ later)
    (one : ∀ b', (x, b') ∈ later → b' = b) : (m.overlay later).read? x = some b := by
  induction later generalizing m with
  | nil => cases hb
  | cons c cs ih =>
    rw [Memory.overlay_cons]
    by_cases hm : ∃ b', (x, b') ∈ cs
    · obtain ⟨b', hb'⟩ := hm
      have := one b' (List.mem_cons_of_mem _ hb')
      subst this
      exact ih hb' fun b'' h'' => one b'' (List.mem_cons_of_mem _ h'')
    · rw [Memory.read?_overlay_of_not_mem fun b' hb' => hm ⟨b', hb'⟩, Memory.read?_write]
      rcases List.mem_cons.1 hb with h | h
      · rw [← h, if_pos rfl]
      · exact absurd ⟨b, h⟩ hm

/-- A read after a memory in canonical form was written over another: the later byte where there is one. -/
theorem Memory.read?_overlay {later : Memory} (h : later.wf) (m : Memory) (x : Nat) :
    (m.overlay later).read? x = (later.read? x).or (m.read? x) := by
  induction later generalizing m with
  | nil => rfl
  | cons c cs ih =>
    obtain ⟨a, b⟩ := c
    have hc := List.pairwise_cons.1 h
    rw [Memory.overlay_cons, ih hc.2, Memory.read?_write]
    by_cases hx : x = a
    · subst hx
      have hn : Memory.read? cs x = none := by
        rw [Memory.read?, List.lookup_eq_none_iff]
        intro d hd
        have : x < d.1 := hc.1 d hd
        simp only [bne_iff_ne, ne_eq]
        omega
      rw [hn]
      simp [Memory.read?, List.lookup]
    · simp [hx, Memory.read?, List.lookup, beq_eq_false_iff_ne.2 hx]

/-- What the first `n` bytes of `TX` are right after a block of exactly `n` bytes was stored at its beginning. -/
theorem txBytes_storeTx (s : State) (bs : List Byte) : (s.storeTx bs).txBytes bs.length = bs := by
  apply List.ext_getElem
  · simp [State.txBytes]
  · intro k h1 h2
    simp [State.txBytes, State.txByte, Memory.read?_writeBytes, h2]

end Sys2Proof.Machine
end

