-- ==== Sys2Proof/Laws/Bus.lean ====
section
/-! SUPPORT. What the bus primitives and the frames of an operation do: one closed form, `State.emit`, for every list of
frames and for the data burst. -/

namespace Sys2Proof.Machine

@[simp] theorem Run.andThen_go (s : State) (f : State → Run) : (Run.go s).andThen f = f s := rfl

@[simp] theorem Run.andThen_raise (e : Err) (s : State) (f : State → Run) : (raise e s).andThen f = raise e s := rfl

theorem Run.andThen_assoc (r : Run) (f g : State → Run) :
    (r.andThen f).andThen g = r.andThen fun s => (f s).andThen g := by
  obtain ⟨s, _ | e | _⟩ := r <;> rfl

@[simp] theorem Run.andThen_id (r : Run) : r.andThen Run.go = r := by
  obtain ⟨s, _ | e | _⟩ := r <;> rfl

/-! ## Plans -/

@[simp] theorem planOf_nil : planOf [] = [] := rfl

@[simp] theorem planOf_cons (f : Frame) (fs : List Frame) : planOf (f :: fs) = framePlan f ++ planOf fs := rfl

@[simp] theorem planOf_append (fs gs : List Frame) : planOf (fs ++ gs) = planOf fs ++ planOf gs := by
  simp [planOf]

/-- A register frame never plans an empty burst, and its CMD burst is one byte (40_command_protocol.md R116). -/
theorem mem_planOf {fs : List Frame} {p : Planned} (h : p ∈ planOf fs) :
    p.2 ≠ [] ∧ (p.1 = .cmd → p.2.length = 1) := by
  obtain ⟨f, _, hp⟩ := List.mem_flatMap.1 h
  obtain ⟨reg, _ | ⟨x, xs⟩⟩ := f
  · simp only [framePlan, List.mem_singleton] at hp
    subst hp; simp
  · simp only [framePlan, List.mem_cons, List.not_mem_nil, or_false] at hp
    rcases hp with rfl | rfl <;> simp

/-! ## Issued bursts -/

@[simp] theorem issued_nil (ans : Nat → BusAnswer) (n : Nat) : issued ans n [] = [] := rfl

theorem issued_cons_ok {ans : Nat → BusAnswer} {n : Nat} (h : ans n = .ok) (p : Planned) (rest : List Planned) :
    issued ans n (p :: rest) = ⟨p.1, p.2, .ok⟩ :: issued ans (n + 1) rest := by
  simp [issued, h]

theorem issued_cons_stop {ans : Nat → BusAnswer} {n : Nat} (h : ans n ≠ .ok) (p : Planned) (rest : List Planned) :
    issued ans n (p :: rest) = [⟨p.1, p.2, ans n⟩] := by
  cases ha : ans n <;> simp_all [issued]

/-- All but the last of the issued bursts were answered `ok` (60_exceptions.md R216). -/
theorem issued_before_last {ans : Nat → BusAnswer} {n : Nat} {plan : List Planned} {before : List Burst} {b : Burst}
    (h : issued ans n plan = before ++ [b]) : ∀ x ∈ before, x.answer = .ok := by
  induction plan generalizing n before with
  | nil => simp [issued] at h
  | cons p rest ih =>
    by_cases ha : ans n = .ok
    · rw [issued_cons_ok ha] at h
      cases before with
      | nil => simp
      | cons x xs =>
        simp only [List.cons_append, List.cons.injEq] at h
        intro y hy
        rcases List.mem_cons.1 hy with rfl | hy
        · rw [← h.1]
        · exact ih h.2 y hy
    · rw [issued_cons_stop ha] at h
      cases before with
      | nil => simp
      | cons x xs => simp at h

/-- Every issued burst is one of the plan's. -/
theorem mem_issued {ans : Nat → BusAnswer} {n : Nat} {plan : List Planned} {b : Burst}
    (h : b ∈ issued ans n plan) : (b.dc, b.bytes) ∈ plan := by
  induction plan generalizing n with
  | nil => simp at h
  | cons p rest ih =>
    by_cases ha : ans n = .ok
    · rw [issued_cons_ok ha] at h
      rcases List.mem_cons.1 h with rfl | h
      · exact List.mem_cons_self ..
      · exact List.mem_cons_of_mem _ (ih h)
    · rw [issued_cons_stop ha] at h
      simp only [List.mem_singleton] at h
      subst h; exact List.mem_cons_self ..

/-- Every burst of a plan that is issued holds an answer the bus gave to one of the bursts asked for. -/
theorem issued_answer {ans : Nat → BusAnswer} {n : Nat} {plan : List Planned} {b : Burst} (h : b ∈ issued ans n plan) :
    ∃ k, n ≤ k ∧ k < n + (issued ans n plan).length ∧ b.answer = ans k := by
  induction plan generalizing n with
  | nil => simp at h
  | cons p rest ih =>
    by_cases ha : ans n = .ok
    · rw [issued_cons_ok ha] at h ⊢
      rcases List.mem_cons.1 h with rfl | h
      · exact ⟨n, le_refl _, by simp, ha.symm⟩
      · obtain ⟨k, h1, h2, h3⟩ := ih h
        exact ⟨k, by omega, by rw [List.length_cons]; omega, h3⟩
    · rw [issued_cons_stop ha] at h ⊢
      simp only [List.mem_singleton] at h
      subst h
      exact ⟨n, le_refl _, by simp, rfl⟩

/-- Where every answer is `ok`, the whole plan is issued. -/
theorem issued_allOk {ans : Nat → BusAnswer} {n : Nat} {plan : List Planned}
    (h : ∀ k, k < plan.length → ans (n + k) = .ok) : issued ans n plan = okBursts plan := by
  induction plan generalizing n with
  | nil => rfl
  | cons p rest ih =>
    have h0 : ans n = .ok := by simpa using h 0 (by simp)
    rw [issued_cons_ok h0, ih, okBursts, okBursts, List.map_cons]
    intro k hk
    have := h (k + 1) (by simpa using hk)
    rwa [show n + (k + 1) = n + 1 + k by omega] at this

@[simp] theorem statusAfter_nil : statusAfter [] = .running := rfl

@[simp] theorem selectAfter_nil (d : Option Select) : selectAfter d [] = d := rfl

theorem statusAfter_cons_ok (b : Burst) (bs : List Burst) (h : b.answer = .ok) :
    statusAfter (b :: bs) = statusAfter bs := by
  cases bs with
  | nil => simp [statusAfter, h, statusOf]
  | cons c cs => simp [statusAfter, List.getLast?_cons_cons]

theorem selectAfter_cons (d : Option Select) (b : Burst) (bs : List Burst) :
    selectAfter d (b :: bs) = selectAfter (some b.dc) bs := by
  cases bs with
  | nil => rfl
  | cons c cs =>
    rw [selectAfter, selectAfter, List.getLast?_cons_cons]
    cases h : (c :: cs).getLast? with
    | none => simp at h
    | some x => rfl

/-! ## The closed form -/

@[simp] theorem emit_nil (s : State) : s.emit [] = Run.go s := by
  simp [State.emit, Run.go]

/-- Driving the line and writing one burst is a plan of one burst. -/
theorem drive_eq_emit (c : Select) (bytes : List Byte) (s : State) :
    (setDC c s).andThen (busWrite c bytes) = s.emit [(c, bytes)] := by
  have h : issued s.answerTo s.asked [(c, bytes)] = [⟨c, bytes, s.answerTo s.asked⟩] := by
    cases ha : s.answerTo s.asked <;> simp [issued, ha]
  simp only [setDC, Run.andThen_go, busWrite, State.emit, h]
  rfl

/-- A plan runs its first part, then the rest unless the first part stopped. -/
theorem emit_append (s : State) (p q : List Planned) :
    s.emit (p ++ q) = (s.emit p).andThen fun t => t.emit q := by
  induction p generalizing s with
  | nil => simp
  | cons a p ih =>
    by_cases ha : s.answerTo s.asked = .ok
    · let t : State := { s with trace := s.trace ++ [⟨a.1, a.2, .ok⟩], asked := s.asked + 1, dc := some a.1 }
      have key : ∀ r : List Planned, s.emit (a :: r) = t.emit r := by
        intro r
        have hans : t.answerTo = s.answerTo := rfl
        simp only [State.emit, issued_cons_ok ha, hans, selectAfter_cons]
        rw [statusAfter_cons_ok ⟨a.1, a.2, .ok⟩ _ rfl]
        simp [t]
        omega
      rw [List.cons_append, key, key, ih t]
    · have key : ∀ r : List Planned, s.emit (a :: r) = s.emit [a] := by
        intro r
        simp only [State.emit, issued_cons_stop ha]
      rw [List.cons_append, key, key p]
      have hst : (s.emit [a]).status ≠ .running := by
        cases hb : s.answerTo s.asked <;> simp_all [State.emit, issued, statusAfter, statusOf]
      cases hr : (s.emit [a]).status with
      | running => exact absurd hr hst
      | raised e => simp [Run.andThen, hr]
      | stalled => simp [Run.andThen, hr]

/-- `SEND` is the plan of its frame (40_command_protocol.md R112). -/
theorem send_eq_emit (f : Frame) (s : State) : send f.reg f.params s = s.emit (framePlan f) := by
  obtain ⟨reg, _ | ⟨x, xs⟩⟩ := f
  · simp only [send, drive_eq_emit, framePlan]
    exact Run.andThen_id _
  · simp only [send, drive_eq_emit, framePlan]
    exact (emit_append s [(.cmd, [reg])] [(.data, x :: xs)]).symm

/-- A list of frames is the plan of its frames. -/
theorem sendFrames_eq_emit (fs : List Frame) (s : State) : sendFrames fs s = s.emit (planOf fs) := by
  induction fs generalizing s with
  | nil => simp [sendFrames]
  | cons f fs ih =>
    simp only [sendFrames, send_eq_emit, planOf_cons, emit_append]
    congr 1
    funext t
    exact ih t

theorem sendFrames_append (fs gs : List Frame) (s : State) :
    sendFrames (fs ++ gs) s = (sendFrames fs s).andThen (sendFrames gs) := by
  simp only [sendFrames_eq_emit, planOf_append, emit_append]
  congr 1
  funext t
  exact (sendFrames_eq_emit gs t).symm

/-- Where the next answers are `ok`, a plan goes through: every burst is in the trace, answered `ok`. -/
theorem emit_allOk {s : State} {plan : List Planned} (h : s.NextOk plan.length) :
    s.emit plan =
      Run.go { s with
        trace := s.trace ++ okBursts plan
        asked := s.asked + plan.length
        dc := selectAfter s.dc (okBursts plan) } := by
  have hi := issued_allOk (ans := s.answerTo) (n := s.asked) (plan := plan) h
  have hs : statusAfter (okBursts plan) = .running := by
    rw [statusAfter]
    cases hl : (okBursts plan).getLast? with
    | none => rfl
    | some b =>
      have hb := List.mem_of_getLast? hl
      simp only [okBursts, List.mem_map] at hb
      obtain ⟨p, _, rfl⟩ := hb
      rfl
  simp only [State.emit, hi, hs, Run.go]
  simp [okBursts]

/-- `DATA_BURST(n_out)` (40_command_protocol.md R115): one burst, or none where there is nothing to send. -/
theorem sendTx_pos {n : Nat} (h : n > 0) (s : State) : sendTx n s = s.emit [(.data, s.txBytes n)] := by
  rw [← drive_eq_emit]
  simp [sendTx, h, setDC, State.txBytes]
  rfl

@[simp] theorem sendTx_zero (s : State) : sendTx 0 s = Run.go { s with dc := some .data } := rfl

/-! ## What a plan leaves alone -/

section
variable (s : State) (plan : List Planned)

@[simp] theorem emit_cfg : (s.emit plan).st.cfg = s.cfg := rfl
@[simp] theorem emit_life : (s.emit plan).st.life = s.life := rfl
@[simp] theorem emit_txValid : (s.emit plan).st.txValid = s.txValid := rfl
@[simp] theorem emit_tx : (s.emit plan).st.tx = s.tx := rfl
@[simp] theorem emit_txEpoch : (s.emit plan).st.txEpoch = s.txEpoch := rfl
@[simp] theorem emit_win : (s.emit plan).st.win = s.win := rfl
@[simp] theorem emit_op : (s.emit plan).st.op = s.op := rfl
@[simp] theorem emit_fbPresent : (s.emit plan).st.fbPresent = s.fbPresent := rfl
@[simp] theorem emit_fbLen : (s.emit plan).st.fbLen = s.fbLen := rfl
@[simp] theorem emit_fb : (s.emit plan).st.fb = s.fb := rfl
@[simp] theorem emit_fbEpoch : (s.emit plan).st.fbEpoch = s.fbEpoch := rfl
@[simp] theorem emit_fbRace : (s.emit plan).st.fbRace = s.fbRace := rfl
@[simp] theorem emit_raceDraw : (s.emit plan).st.raceDraw = s.raceDraw := rfl
@[simp] theorem emit_busReady : (s.emit plan).st.busReady = s.busReady := rfl
@[simp] theorem emit_busScript : (s.emit plan).st.busScript = s.busScript := rfl
@[simp] theorem emit_response : (s.emit plan).st.response = s.response := rfl
@[simp] theorem emit_inbox : (s.emit plan).st.inbox = s.inbox := rfl

theorem emit_trace : (s.emit plan).st.trace = s.trace ++ issued s.answerTo s.asked plan := rfl

theorem emit_status : (s.emit plan).status = statusAfter (issued s.answerTo s.asked plan) := rfl

end

/-- Where a body stands after some bursts, by the answer to the last of them. -/
theorem statusAfter_cases (bs : List Burst) :
    (statusAfter bs = .running ∧ ∀ before b, bs = before ++ [b] → b.answer = .ok) ∨
    (∃ before b, bs = before ++ [b] ∧ b.answer = .fail ∧ statusAfter bs = .raised .busTransferFailed) ∨
    (∃ before b, bs = before ++ [b] ∧ b.answer = .never ∧ statusAfter bs = .stalled) := by
  rcases List.eq_nil_or_concat bs with rfl | ⟨l, b, rfl⟩
  · exact .inl ⟨rfl, by simp⟩
  · simp only [List.concat_eq_append]
    cases hb : b.answer with
    | ok => exact .inl ⟨by simp [statusAfter, statusOf, hb], by intro l' b' h; simp at h; exact h.2 ▸ hb⟩
    | fail => exact .inr (.inl ⟨l, b, rfl, hb, by simp [statusAfter, statusOf, hb]⟩)
    | never => exact .inr (.inr ⟨l, b, rfl, hb, by simp [statusAfter, statusOf, hb]⟩)

end Sys2Proof.Machine
end

