-- ==== Sys2Proof/Laws/Decode.lean ====
section
/-! SUPPORT. Round trips of the pieces of a record: 32-bit operands, lists of a fixed length, one-bit operands. -/

namespace Sys2Proof

theorem ofLe32_le32 {n : Nat} (h : n < 2 ^ 32) :
    ofLe32 (BitVec.ofNat 8 n) (BitVec.ofNat 8 (n / 2 ^ 8)) (BitVec.ofNat 8 (n / 2 ^ 16))
      (BitVec.ofNat 8 (n / 2 ^ 24)) = n := by
  simp only [ofLe32, BitVec.toNat_ofNat]
  omega

theorem ofLe32_lt (b0 b1 b2 b3 : Byte) : ofLe32 b0 b1 b2 b3 < 2 ^ 32 := by
  have h0 := b0.isLt
  have h1 := b1.isLt
  have h2 := b2.isLt
  have h3 := b3.isLt
  simp only [ofLe32]
  omega

theorem le32_ofLe32 (b0 b1 b2 b3 : Byte) : le32 (ofLe32 b0 b1 b2 b3) = [b0, b1, b2, b3] := by
  have h0 := b0.isLt
  have h1 := b1.isLt
  have h2 := b2.isLt
  have h3 := b3.isLt
  simp only [le32, ofLe32, List.cons.injEq, and_true]
  refine ⟨?_, ?_, ?_, ?_⟩ <;> (apply BitVec.eq_of_toNat_eq; simp only [BitVec.toNat_ofNat]; omega)

/-- The operands of a list of 32-bit words, read back. -/
theorem words32_flatMap (l : List Word32) : words32 (l.flatMap fun w => le32 w.toNat) = some l := by
  induction l with
  | nil => rfl
  | cons w l ih =>
    show (words32 (l.flatMap fun w => le32 w.toNat)).map (BitVec.ofNat 32 (ofLe32 _ _ _ _) :: ·) = _
    rw [ih, ofLe32_le32 w.isLt]
    simp

/-- A list of bytes that holds 32-bit operands is the bytes of those operands. -/
theorem words32_eq_some {bytes : List Byte} {l : List Word32} (h : words32 bytes = some l) :
    bytes = l.flatMap fun w => le32 w.toNat := by
  induction l generalizing bytes with
  | nil =>
    match bytes with
    | [] => rfl
    | [_] => simp [words32] at h
    | [_, _] => simp [words32] at h
    | [_, _, _] => simp [words32] at h
    | _ :: _ :: _ :: _ :: rest => simp [words32] at h
  | cons w l ih =>
    match bytes with
    | [] => simp [words32] at h
    | [_] => simp [words32] at h
    | [_, _] => simp [words32] at h
    | [_, _, _] => simp [words32] at h
    | b0 :: b1 :: b2 :: b3 :: rest =>
      simp only [words32, Option.map_eq_some_iff, List.cons.injEq] at h
      obtain ⟨l', h1, rfl, rfl⟩ := h
      rw [ih h1, List.flatMap_cons, BitVec.toNat_ofNat, Nat.mod_eq_of_lt (ofLe32_lt ..), le32_ofLe32]
      rfl

theorem vectorOf?_toList {α : Type} {n : Nat} (v : Vector α n) : vectorOf? n v.toList = some v := by
  unfold vectorOf?
  rw [dif_pos (by simp)]
  simp [Vector.toList]

theorem vectorOf?_eq_some {α : Type} {n : Nat} {l : List α} {v : Vector α n} (h : vectorOf? n l = some v) :
    l = v.toList := by
  unfold vectorOf? at h
  split at h
  · simp only [Option.some.injEq] at h
    subst h
    simp [Vector.toList]
  · cases h

@[simp] theorem decodeFlag_flagByte (b : Bool) : decodeFlag (flagByte b) = .ok b := by cases b <;> rfl

theorem decodeFlag_eq_ok {x : Byte} {b : Bool} (h : decodeFlag x = .ok b) : x = flagByte b := by
  unfold decodeFlag at h
  split at h
  · cases h; assumption
  · split at h
    · cases h; assumption
    · cases h

theorem decodeNullary_eq_ok {i j : Instr} {args : List Byte} (h : decodeNullary i args = .ok j) :
    args = [] ∧ j = i := by
  cases args with
  | nil => exact ⟨rfl, by cases h; rfl⟩
  | cons a as => cases h

theorem checked_eq_ok {r : Except DecodeError Instr} {i : Instr} : checked r = .ok i ↔ r = .ok i ∧ WellFormed i := by
  cases r with
  | error e => simp [checked]
  | ok j =>
    simp only [checked, WellFormed]
    by_cases h : j.wf = true
    · rw [if_pos h]
      constructor
      · intro h1; cases h1; exact ⟨rfl, h⟩
      · intro h1; exact h1.1
    · rw [if_neg h]
      constructor
      · intro h1; cases h1
      · rintro ⟨h1, h2⟩; cases h1; exact absurd h2 h

/-- The decoder answers only well-formed instructions. -/
theorem decode_wf {r : Request} {i : Instr} (h : decode r = .ok i) : WellFormed i := by
  unfold decode at h
  split at h
  · cases h
  · exact (checked_eq_ok.1 h).2

end Sys2Proof
end

