-- ==== Sys2Proof/Laws/Ops.lean ====
section
/-! SUPPORT. What starting an operation, its tests and its end can do: the inversions that every claim about an instruction
goes through. -/

namespace Sys2Proof.Machine

/-! ## Starting and testing -/

theorem busy_eq_false {s : State} (h : s.op = none) : s.busy = false := by simp [State.busy, h]

theorem start_idle {s : State} (h : s.op = none) (i : Instr) (body : State → Host.Outcome State Fault Refusal) :
    start i s body = body (s.latch i) := by
  simp [start, busy_eq_false h]

theorem start_busy {s : State} (h : s.busy = true) (i : Instr) (body : State → Host.Outcome State Fault Refusal) :
    start i s body = .refused .requestWhileBusy := by
  simp [start, h]

theorem start_next {i : Instr} {s t : State} {body : State → Host.Outcome State Fault Refusal}
    (h : start i s body = .next t) : s.op = none ∧ body (s.latch i) = .next t := by
  unfold start at h
  split at h
  · cases h
  · rename_i hb
    exact ⟨by simpa [State.busy] using hb, h⟩

theorem needLife_next {ok : Life → Bool} {s t : State} {o : Host.Outcome State Fault Refusal}
    (h : needLife ok s o = .next t) : ok s.life = true ∧ o = .next t := by
  unfold needLife at h
  split at h
  · exact ⟨by assumption, h⟩
  · cases h

theorem needLife_of {ok : Life → Bool} {s : State} (h : ok s.life = true) (o : Host.Outcome State Fault Refusal) :
    needLife ok s o = o := by
  simp [needLife, h]

theorem needLife_not {ok : Life → Bool} {s : State} (h : ok s.life = false) (o : Host.Outcome State Fault Refusal) :
    needLife ok s o = .refused (.notAccepted s.life) := by
  simp [needLife, h]

theorem needBus_next {s t : State} {o : Host.Outcome State Fault Refusal} (h : needBus s o = .next t) :
    s.busReady = true ∧ o = .next t := by
  unfold needBus at h
  split at h
  · exact ⟨by assumption, h⟩
  · cases h

theorem needBus_of {s : State} (h : s.busReady = true) (o : Host.Outcome State Fault Refusal) : needBus s o = o := by
  simp [needBus, h]

theorem needBus_not {s : State} (h : s.busReady = false) (o : Host.Outcome State Fault Refusal) :
    needBus s o = .refused .busNotAcquired := by
  simp [needBus, h]

@[simp] theorem deliver_next {r : Run} {t : State} : deliver r = .next t ↔ r.delivered = t := by simp [deliver]

@[simp] theorem fallThrough_next {r : Run} {t : State} : fallThrough r = .next t ↔ r.fallen = t := by simp [fallThrough]

theorem needBusIf_next {b : Bool} {s t : State} {o : Host.Outcome State Fault Refusal}
    (h : needBusIf b s o = .next t) : (b = true → s.busReady = true) ∧ o = .next t := by
  cases b with
  | true => exact ⟨fun _ => (needBus_next h).1, (needBus_next h).2⟩
  | false => exact ⟨nofun, h⟩

theorem needBusIf_of {s : State} (h : s.busReady = true) (b : Bool) (o : Host.Outcome State Fault Refusal) :
    needBusIf b s o = o := by
  cases b with
  | true => exact needBus_of h o
  | false => rfl

theorem micro_next {i : Instr} {s t : State} {g : State → Bool} {f : State → Run} (h : micro i s g f = .next t) :
    s.op = none ∧ s.life ≠ .destroyed ∧ (g (s.latch i) = true → s.busReady = true) ∧ (f (s.latch i)).fallen = t := by
  obtain ⟨h0, h⟩ := start_next h
  obtain ⟨h1, h⟩ := needLife_next h
  obtain ⟨h2, h⟩ := needBusIf_next h
  refine ⟨h0, fun hd => ?_, h2, fallThrough_next.1 h⟩
  rw [State.latch_life, hd] at h1
  cases h1

theorem takesMicro_of {l : Life} (h : l ≠ .destroyed) : l.takesMicro = true := by
  cases l <;> simp_all [Life.takesMicro]

theorem micro_ready {s : State} (h : s.Ready) (hl : s.life ≠ .destroyed) (i : Instr) (g : State → Bool)
    (f : State → Run) : micro i s g f = .next (f (s.latch i)).fallen := by
  rw [micro, start_idle h.idle, needLife_of (by exact takesMicro_of hl), needBusIf_of (by exact h.bus)]
  rfl

theorem micro_noBus {s : State} (h0 : s.op = none) (hb : s.busReady = false) (hl : s.life ≠ .destroyed) {i : Instr}
    {g : State → Bool} (hg : g (s.latch i) = true) (f : State → Run) : micro i s g f = .refused .busNotAcquired := by
  rw [micro, start_idle h0, needLife_of (by exact takesMicro_of hl), hg, needBusIf, if_pos rfl,
    needBus_not (by exact hb)]

/-- A row that sends frames, run on its own with every burst answered `ok`. -/
theorem micro_frames_ready {s : State} (h : s.Ready) (hl : s.life ≠ .destroyed) (i : Instr) (fs : List Frame)
    (g : State → Bool) (f : State → Run) (hf : f (s.latch i) = sendFrames fs (s.latch i))
    (hn : s.NextOk (planOf fs).length) :
    micro i s g f = .next { s with
      dc := selectAfter s.dc (okBursts (planOf fs)), asked := s.asked + (planOf fs).length, response := none,
      trace := s.trace ++ okBursts (planOf fs) } := by
  rw [micro_ready h hl, hf, sendFrames_eq_emit, emit_allOk (s := s.latch i) hn]
  simp [Run.go, Run.fallen, State.latch, h.idle]

/-- A plan run from the latched state, by the bursts it issues. -/
theorem emit_latch_eq {s : State} {i : Instr} {plan : List Planned} {bs : List Burst}
    (h : issued s.answerTo s.asked plan = bs) :
    (s.latch i).emit plan =
      ⟨{ s.latch i with trace := s.trace ++ bs, asked := s.asked + bs.length, dc := selectAfter s.dc bs },
        statusAfter bs⟩ := by
  subst h
  rfl

theorem answerInvalid_idle {s : State} (h : s.op = none) (i : Instr) :
    answerInvalid i s = .next { s with response := some (.err .invalidParameter) } := by
  rw [answerInvalid, start_idle h]
  simp [deliver, raise, Run.delivered, State.latch, h]

theorem answerInvalid_next {i : Instr} {s t : State} (h : answerInvalid i s = .next t) :
    s.op = none ∧ t = { s with response := some (.err .invalidParameter) } := by
  have h0 := (start_next h).1
  rw [answerInvalid_idle h0] at h
  cases h
  exact ⟨h0, rfl⟩

/-- An error raised before anything was written leaves the state as it was, but for the result (60_exceptions.md R222). -/
theorem raised_at_start {s : State} (h : s.op = none) (i : Instr) (e : Err) :
    (raise e (s.latch i)).delivered = { s with response := some (.err e) } := by
  simp [raise, Run.delivered, State.latch, h]

theorem raised_micro_at_start {s : State} (h : s.op = none) (i : Instr) (e : Err) :
    (raise e (s.latch i)).fallen = { s with response := some (.err e) } := by
  simp [raise, Run.fallen, State.latch, h]

/-! ## Where a body ends -/

/-- A run that went through is delivered as `Ok` and PNE is at rest again. -/
theorem delivered_go (s : State) : (Run.go s).delivered = { s with op := none, response := some .ok } := rfl

theorem fallen_go (s : State) : (Run.go s).fallen = { s with op := none } := rfl

theorem delivered_op (r : Run) : r.delivered.op = none ∨ (r.status = .stalled ∧ r.delivered = r.st) := by
  obtain ⟨s, _ | e | _⟩ := r
  · exact .inl rfl
  · exact .inl rfl
  · exact .inr ⟨rfl, rfl⟩

/-! ## Statuses of issued bursts -/

theorem statusOf_eq_stalled {a : BusAnswer} : statusOf a = .stalled ↔ a = .never := by cases a <;> simp [statusOf]

theorem statusOf_eq_running {a : BusAnswer} : statusOf a = .running ↔ a = .ok := by cases a <;> simp [statusOf]

theorem statusOf_eq_raised {a : BusAnswer} {e : Err} :
    statusOf a = .raised e ↔ a = .fail ∧ e = .busTransferFailed := by
  cases a <;> simp [statusOf, eq_comm]

@[simp] theorem statusAfter_concat (bs : List Burst) (b : Burst) : statusAfter (bs ++ [b]) = statusOf b.answer := by
  simp [statusAfter]

@[simp] theorem selectAfter_concat (d : Option Select) (bs : List Burst) (b : Burst) :
    selectAfter d (bs ++ [b]) = some b.dc := by
  simp [selectAfter]

/-- A body that raised an error on the bus raised `BusTransferFailed` (60_exceptions.md R216). -/
theorem statusAfter_raised {bs : List Burst} {e : Err} (h : statusAfter bs = .raised e) : e = .busTransferFailed := by
  unfold statusAfter at h
  split at h
  · cases h
  · exact (statusOf_eq_raised.1 h).2

end Sys2Proof.Machine
end

