-- ==== Sys2Proof/Laws/Exec.lean ====
section
/-! SUPPORT. What the body of an instruction does, said once: the closed form of each body, from which the claims over all
instructions follow. -/

namespace Sys2Proof.Machine

/-! ## Working registers do not touch the bus -/

/-- A run with a change of the working registers in the state it reached. -/
def Run.work (r : Run) (f : Working → Working) : Run := ⟨r.st.work f, r.status⟩

@[simp] theorem Run.work_status (r : Run) (f : Working → Working) : (r.work f).status = r.status := rfl
@[simp] theorem Run.work_st (r : Run) (f : Working → Working) : (r.work f).st = r.st.work f := rfl

theorem emit_work (s : State) (f : Working → Working) (p : List Planned) : (s.work f).emit p = (s.emit p).work f := rfl

theorem work_work (s : State) (f g : Working → Working) : (s.work f).work g = s.work (g ∘ f) := by
  cases h : s.op <;> simp [State.work, h]

theorem work_id (s : State) : s.work id = s := by
  cases h : s.op <;> simp [State.work, h]
  all_goals (cases s; simp_all)

theorem andThen_work {r : Run} {f : Working → Working} {k : State → Run} {p : List Planned}
    (hk : ∀ t, k t = t.emit p) : (r.work f).andThen k = (r.andThen k).work f := by
  obtain ⟨s, _ | e | _⟩ := r <;> simp [Run.andThen, Run.work, hk, emit_work]

/-! ## Closed forms of the bodies -/

/-- `GammaProgram` is the plan of its two frames, or an error before anything is sent (41_gamma.md R132, R133). -/
theorem gammaProgram_eq (curve : Curve) (s : State) :
    (∃ e, gammaLevels curve = .error e ∧ gammaProgram curve s = raise e s) ∨
    ∃ levels f, gammaLevels curve = .ok levels ∧
      gammaProgram curve s = (s.emit (planOf (gammaFrames s.cfg levels))).work f := by
  unfold gammaProgram
  cases h : gammaLevels curve with
  | error e => exact .inl ⟨e, rfl, rfl⟩
  | ok levels =>
    refine .inr ⟨levels, fun w => { w with lvl := levels, acc := levels.getLast?.map BitVec.toNat }, rfl, ?_⟩
    simp only [sendFrames_eq_emit]
    exact emit_work s _ _

/-- Step 3 of `INIT` is the plan of its frames, or an error before anything is sent. -/
theorem stepGrayscale_eq (s : State) :
    (∃ e, grayscaleFrames s.cfg = .error e ∧ stepGrayscale s = raise e s) ∨
    ∃ gray f, grayscaleFrames s.cfg = .ok gray ∧ stepGrayscale s = (s.emit (planOf gray)).work f := by
  unfold stepGrayscale grayscaleFrames
  cases hg : s.cfg.grayscaleStep with
  | programCurve =>
    rcases gammaProgram_eq s.cfg.curve s with ⟨e, h1, h2⟩ | ⟨levels, f, h1, h2⟩
    · exact .inl ⟨e, by simp [h1], h2⟩
    · exact .inr ⟨gammaFrames s.cfg levels, f, by simp [h1], h2⟩
  | frames seq3 =>
    exact .inr ⟨Frames.toList seq3, id, rfl, by simp [sendFrames_eq_emit, Run.work, work_id]⟩

/-- The errors of a curve are all `InvalidCurve` (60_exceptions.md R215). -/
theorem gammaLoop_error {i acc : Nat} {steps : List Word32} {e : Err} (h : gammaLoop i acc steps = .error e) :
    ∃ k v c, e = .invalidCurve k v c := by
  induction steps generalizing i acc with
  | nil => simp [gammaLoop] at h
  | cons x xs ih =>
    rw [gammaLoop] at h
    by_cases h1 : i ≠ 0 ∧ x.toNat < 1
    · rw [if_pos h1] at h
      injection h with h
      exact ⟨_, _, _, h.symm⟩
    · rw [if_neg h1] at h
      by_cases h2 : (if i = 0 then x.toNat else acc + x.toNat) > 180
      · simp only [h2, if_true] at h
        injection h with h
        exact ⟨_, _, _, h.symm⟩
      · simp only [h2, if_false] at h
        cases hr : gammaLoop (i + 1) (if i = 0 then x.toNat else acc + x.toNat) xs with
        | ok l => rw [hr] at h; simp at h
        | error e' =>
          rw [hr] at h
          injection h with h
          subst h
          exact ih hr

theorem gammaLevels_error {curve : Curve} {e : Err} (h : gammaLevels curve = .error e) :
    ∃ k v c, e = .invalidCurve k v c := gammaLoop_error h

theorem grayscaleFrames_error {cfg : Cfg} {e : Err} (h : grayscaleFrames cfg = .error e) :
    ∃ k v c, e = .invalidCurve k v c := by
  unfold grayscaleFrames at h
  split at h
  · split at h
    · cases h
    · rename_i h'; cases h; exact gammaLevels_error h'
  · cases h

theorem runSteps_append (l r : List (State → Run)) (s : State) :
    runSteps (l ++ r) s = (runSteps l s).andThen (runSteps r) := by
  induction l generalizing s with
  | nil => rfl
  | cons f l ih =>
    simp only [List.cons_append, runSteps, Run.andThen_assoc]
    congr 1
    funext t
    exact ih t

/-- Steps that send frames of the configuration are the plan of those frames. -/
theorem runSteps_frames (l : List ((State → Run) × (Cfg → List Frame)))
    (h : ∀ p ∈ l, ∀ t, p.1 t = sendFrames (p.2 t.cfg) t) (t : State) :
    runSteps (l.map Prod.fst) t = t.emit (planOf (l.flatMap fun p => p.2 t.cfg)) := by
  induction l generalizing t with
  | nil => simp [runSteps]
  | cons p l ih =>
    have ih' := ih fun q hq => h q (List.mem_cons_of_mem _ hq)
    rw [List.map_cons, runSteps, h p (List.mem_cons_self ..), sendFrames_eq_emit, List.flatMap_cons, planOf_append,
      emit_append, funext ih']
    have hc : (t.emit (planOf (p.2 t.cfg))).st.cfg = t.cfg := rfl
    generalize t.emit (planOf (p.2 t.cfg)) = r at hc
    obtain ⟨u, _ | e | _⟩ := r
    · have hu : u.cfg = t.cfg := hc
      simp only [Run.andThen, hu]
    · rfl
    · rfl

/-- Steps 1 and 2 of `INIT` are a plan. -/
theorem initSteps_head (s : State) : runSteps [stepUnlock, stepDisableOutput] s = s.emit (planOf (initHead s.cfg)) := by
  have h := runSteps_frames [(stepUnlock, fun c => Frames.toList c.initSeq.unlock),
    (stepDisableOutput, fun c => [frameDisplayOff c])] (by simp [stepUnlock, stepDisableOutput]) s
  refine Eq.trans h (congrArg (fun l => s.emit (planOf l)) ?_)
  simp [initHead]

/-- Steps 4 to 13 of `INIT`. -/
def tailSteps : List (State → Run) :=
  [stepClockDivider, stepMuxRatio, stepStartLineOffset, stepRemap, stepExternalSupply, stepContrast,
    stepPhasePrecharge, stepVcomh, stepNormalDisplay, stepEnableOutput]

/-- Steps 4 to 13 of `INIT` are a plan. -/
theorem initSteps_tail (s : State) : runSteps tailSteps s = s.emit (planOf (initTail s.cfg)) := by
  have h := runSteps_frames [(stepClockDivider, fun c => Frames.toList c.initSeq.clockDivider),
    (stepMuxRatio, fun c => Frames.toList c.initSeq.muxRatio),
    (stepStartLineOffset, fun c => Frames.toList c.initSeq.startLineOffset),
    (stepRemap, fun c => remapFrames c),
    (stepExternalSupply, fun c => Frames.toList c.initSeq.externalSupply),
    (stepContrast, fun c => Frames.toList c.initSeq.contrastEnhancement),
    (stepPhasePrecharge, fun c => Frames.toList c.initSeq.phasePrecharge),
    (stepVcomh, fun c => Frames.toList c.initSeq.vcomh),
    (stepNormalDisplay, fun c => Frames.toList c.initSeq.normalDisplay),
    (stepEnableOutput, fun c => [frameDisplayOn c])]
    (by simp [stepClockDivider, stepMuxRatio, stepStartLineOffset, stepRemap, stepExternalSupply, stepContrast,
      stepPhasePrecharge, stepVcomh, stepNormalDisplay, stepEnableOutput]) s
  refine Eq.trans h (congrArg (fun l => s.emit (planOf l)) ?_)
  simp [initTail]

theorem initSteps_split : initSteps = [stepUnlock, stepDisableOutput] ++ (stepGrayscale :: tailSteps) := rfl

/-- The whole power-up sequence: the plan of all its frames, or the plan of steps 1 and 2 and then the error of step 3. -/
theorem initSequence_eq (s : State) :
    (∃ e, grayscaleFrames s.cfg = .error e ∧
      runSteps initSteps s = (s.emit (planOf (initHead s.cfg))).andThen (raise e)) ∨
    ∃ gray f, grayscaleFrames s.cfg = .ok gray ∧
      runSteps initSteps s = (s.emit (planOf (initFrames s.cfg gray))).work f := by
  rw [initSteps_split, runSteps_append, initSteps_head, show runSteps (stepGrayscale :: tailSteps) =
    fun t => (stepGrayscale t).andThen fun u => u.emit (planOf (initTail u.cfg)) from
      funext fun t => by rw [runSteps, show runSteps tailSteps = _ from funext initSteps_tail]]
  have hcfg : (s.emit (planOf (initHead s.cfg))).st.cfg = s.cfg := rfl
  have hall : ∀ gray, s.emit (planOf (initFrames s.cfg gray)) = (s.emit (planOf (initHead s.cfg))).andThen
      fun t => (t.emit (planOf gray)).andThen fun u => u.emit (planOf (initTail s.cfg)) := by
    intro gray
    rw [initFrames, List.append_assoc, planOf_append, emit_append]
    congr 1
    funext t
    rw [planOf_append, emit_append]
  simp only [hall]
  generalize s.emit (planOf (initHead s.cfg)) = r at hcfg
  obtain ⟨u, _ | e' | _⟩ := r
  · have hu : u.cfg = s.cfg := hcfg
    simp only [Run.andThen]
    rcases stepGrayscale_eq u with ⟨e, h1, h2⟩ | ⟨gray, f, h1, h2⟩
    · exact .inl ⟨e, hu ▸ h1, by rw [h2]; rfl⟩
    · refine .inr ⟨gray, f, hu ▸ h1, ?_⟩
      rw [h2]
      have hv : (u.emit (planOf gray)).st.cfg = s.cfg := hu
      generalize u.emit (planOf gray) = q at hv
      obtain ⟨v, _ | e | _⟩ := q
      · show (v.work f).emit (planOf (initTail (v.work f).cfg)) = _
        rw [State.work_cfg, show v.cfg = s.cfg from hv]
        rfl
      · rfl
      · rfl
  · cases hg : grayscaleFrames s.cfg with
    | error e => exact .inl ⟨e, rfl, rfl⟩
    | ok gray => exact .inr ⟨gray, id, rfl, by simp [Run.andThen, Run.work, work_id]⟩
  · cases hg : grayscaleFrames s.cfg with
    | error e => exact .inl ⟨e, rfl, rfl⟩
    | ok gray => exact .inr ⟨gray, id, rfl, by simp [Run.andThen, Run.work, work_id]⟩

end Sys2Proof.Machine
end

