-- ==== Sys2Proof/Laws/Pixel.lean ====
section
/-! SUPPORT. What the encoder's output is: its length, each of its bytes, and the bytes of `FB` it depends on. -/

namespace Sys2Proof.Machine

/-! ## Nibble doubling -/

theorem dblLo_eq (b : Byte) : dblLo b = b.extractLsb' 0 4 ++ b.extractLsb' 0 4 := by
  revert b; decide

theorem dblHi_eq (b : Byte) : dblHi b = b.extractLsb' 4 4 ++ b.extractLsb' 4 4 := by
  revert b; decide

theorem dblLo_high (b : Byte) : (dblLo b).extractLsb' 4 4 = b.extractLsb' 0 4 := by
  revert b; decide

theorem dblLo_low (b : Byte) : (dblLo b).extractLsb' 0 4 = b.extractLsb' 0 4 := by
  revert b; decide

theorem dblHi_high (b : Byte) : (dblHi b).extractLsb' 4 4 = b.extractLsb' 4 4 := by
  revert b; decide

theorem dblHi_low (b : Byte) : (dblHi b).extractLsb' 0 4 = b.extractLsb' 4 4 := by
  revert b; decide

/-! ## GRAY4 -/

@[simp] theorem encodeGray4_length (s : State) (a n : Nat) : (encodeGray4 s a n).length = 2 * n := by
  induction n generalizing a with
  | zero => rfl
  | succ n ih => simp only [encodeGray4, List.length_cons, ih]; omega

theorem encodeGray4_getElem? (s : State) (a n k : Nat) (h : k < n) :
    (encodeGray4 s a n)[2 * k]? = some (dblLo (s.fbSample (a + k))) ∧
      (encodeGray4 s a n)[2 * k + 1]? = some (dblHi (s.fbSample (a + k))) := by
  induction n generalizing a k with
  | zero => omega
  | succ n ih =>
    cases k with
    | zero => simp [encodeGray4]
    | succ k =>
      have h2 : 2 * (k + 1) = 2 * k + 1 + 1 := by omega
      have h3 : a + (k + 1) = a + 1 + k := by omega
      rw [h2, h3]
      simp only [encodeGray4, List.getElem?_cons_succ]
      exact ih (a + 1) k (by omega)

theorem encodeGray4_congr {s t : State} {a n : Nat} (h : ∀ x, a ≤ x → x < a + n → t.fbSample x = s.fbSample x) :
    encodeGray4 t a n = encodeGray4 s a n := by
  induction n generalizing a with
  | zero => rfl
  | succ n ih =>
    simp only [encodeGray4]
    rw [h a (by omega) (by omega), ih (a := a + 1) fun x h1 h2 => h x (by omega) (by omega)]

/-! ## COLOR16 -/

@[simp] theorem encodeRow_length (s : State) (a w : Nat) : (encodeRow s a w).length = w := by
  induction w generalizing a with
  | zero => rfl
  | succ w ih => simp [encodeRow, ih]

theorem encodeRow_getElem? (s : State) (a w x : Nat) (h : x < w) :
    (encodeRow s a w)[x]? = some (encodePixel s (a + 2 * x)) := by
  induction w generalizing a x with
  | zero => omega
  | succ w ih =>
    cases x with
    | zero => simp [encodeRow]
    | succ x =>
      simp only [encodeRow, List.getElem?_cons_succ]
      rw [ih (a + 2) x (by omega), show a + 2 + 2 * x = a + 2 * (x + 1) by omega]

@[simp] theorem encodeColor16_length (s : State) (a step w h : Nat) : (encodeColor16 s a step w h).length = w * h := by
  induction h generalizing a with
  | zero => rfl
  | succ h ih => simp [encodeColor16, ih, Nat.mul_succ, Nat.add_comm]

theorem encodeColor16_getElem? (s : State) (a step w h y x : Nat) (hy : y < h) (hx : x < w) :
    (encodeColor16 s a step w h)[w * y + x]? = some (encodePixel s (a + y * step + 2 * x)) := by
  induction h generalizing a y with
  | zero => omega
  | succ h ih =>
    cases y with
    | zero =>
      simp only [encodeColor16]
      rw [List.getElem?_append_left (by simpa using hx)]
      simpa using encodeRow_getElem? s a w x hx
    | succ y =>
      have e : w * (y + 1) + x = w + (w * y + x) := by rw [Nat.mul_succ]; omega
      simp only [encodeColor16]
      rw [e, List.getElem?_append_right (by simp), encodeRow_length, Nat.add_sub_cancel_left,
        ih (a + step) y (by omega)]
      rw [show a + step + y * step = a + (y + 1) * step by rw [Nat.succ_mul]; omega]

theorem encodeRow_congr {s t : State} {a w : Nat} (hn : t.cfg.color16Nibble = s.cfg.color16Nibble)
    (h : ∀ x, x < w → t.fbSample (a + 2 * x + 1) = s.fbSample (a + 2 * x + 1)) : encodeRow t a w = encodeRow s a w := by
  induction w generalizing a with
  | zero => rfl
  | succ w ih =>
    have h0 := h 0 (by omega)
    simp only [encodeRow, encodePixel, hn]
    rw [show a + 2 * 0 + 1 = a + 1 by omega] at h0
    rw [h0, ih (a := a + 2) fun x hx => by
      have := h (x + 1) (by omega)
      rwa [show a + 2 * (x + 1) + 1 = a + 2 + 2 * x + 1 by omega] at this]

theorem encodeColor16_congr {s t : State} {a step w n : Nat} (hn : t.cfg.color16Nibble = s.cfg.color16Nibble)
    (h : ∀ y x, y < n → x < w → t.fbSample (a + y * step + 2 * x + 1) = s.fbSample (a + y * step + 2 * x + 1)) :
    encodeColor16 t a step w n = encodeColor16 s a step w n := by
  induction n generalizing a with
  | zero => rfl
  | succ n ih =>
    simp only [encodeColor16]
    rw [encodeRow_congr hn fun x hx => by simpa using h 0 x (by omega) hx]
    rw [ih (a := a + step) fun y x hy hx => by
      have := h (y + 1) x (by omega) hx
      rwa [show a + (y + 1) * step = a + step + y * step by rw [Nat.succ_mul]; omega] at this]

/-! ## Both modes -/

/-- The output is `n_out` bytes (43_pixel_encoder.md R171). -/
@[simp] theorem encodeSpan_length (s : State) (offset len : Nat) :
    (encodeSpan s offset len).length = spanOutput s.cfg len := by
  unfold encodeSpan spanOutput
  cases s.cfg.srcFmt <;> simp

/-- Every output byte has equal halves (43_pixel_encoder.md R171). -/
theorem mem_encodeGray4 {s : State} {a n : Nat} {b : Byte} (h : b ∈ encodeGray4 s a n) :
    ∃ c, b = dblLo c ∨ b = dblHi c := by
  induction n generalizing a with
  | zero => simp [encodeGray4] at h
  | succ n ih =>
    simp only [encodeGray4, List.mem_cons] at h
    rcases h with rfl | rfl | h
    · exact ⟨_, .inl rfl⟩
    · exact ⟨_, .inr rfl⟩
    · exact ih h

theorem mem_encodeRow {s : State} {a w : Nat} {b : Byte} (h : b ∈ encodeRow s a w) : ∃ x, b = encodePixel s x := by
  induction w generalizing a with
  | zero => simp [encodeRow] at h
  | succ w ih =>
    simp only [encodeRow, List.mem_cons] at h
    rcases h with rfl | h
    · exact ⟨_, rfl⟩
    · exact ih h

theorem mem_encodeColor16 {s : State} {a step w n : Nat} {b : Byte} (h : b ∈ encodeColor16 s a step w n) :
    ∃ x, b = encodePixel s x := by
  induction n generalizing a with
  | zero => simp [encodeColor16] at h
  | succ n ih =>
    simp only [encodeColor16, List.mem_append] at h
    rcases h with h | h
    · exact mem_encodeRow h
    · exact ih h

theorem mem_encodeSpan {s : State} {offset len : Nat} {b : Byte} (h : b ∈ encodeSpan s offset len) :
    ∃ c, b = dblLo c ∨ b = dblHi c := by
  unfold encodeSpan at h
  split at h
  · exact mem_encodeGray4 h
  · obtain ⟨x, rfl⟩ := mem_encodeColor16 h
    unfold encodePixel
    split
    · exact ⟨_, .inr rfl⟩
    · exact ⟨_, .inl rfl⟩

/-! ## The span test (43_pixel_encoder.md R166) -/

theorem spanOk_gray4 {s : State} (h : s.cfg.srcFmt = .gray4) (offset len : Nat) :
    s.spanOk offset len = true ↔ offset + len ≤ s.fbLen ∧ 2 * len ≤ txbufSize s.cfg := by
  unfold State.spanOk
  rw [h]
  simp

theorem spanOk_color16 {s : State} (h : s.cfg.srcFmt = .color16) (offset len : Nat) :
    s.spanOk offset len = true ↔ offset + len ≤ s.fbLen ∧ offset % 2 = 0 ∧ len % stride s.cfg = 0 ∧
      s.cfg.width * (len / stride s.cfg) ≤ txbufSize s.cfg := by
  unfold State.spanOk
  rw [h]
  simp [and_assoc]

theorem spanOk_latch (s : State) (i : Instr) (offset len : Nat) :
    (s.latch i).spanOk offset len = s.spanOk offset len := rfl

/-! ## What the encoder reads -/

/-- While the host writes nothing, the encoder reads `FB` as it is. -/
theorem fbSample_stable {s : State} (h : s.FbStable) (a : Nat) : s.fbSample a = s.fbByte a := by
  have h' : s.fbRace = [] := h
  simp [State.fbSample, h', Memory.read?]

/-- A row's pixels lie in its bytes: `2 * x + 1 < STRIDE` for every column (00_scope.md R9). -/
theorem odd_lt_stride {cfg : Cfg} (h : cfg.srcFmt = .color16) {x : Nat} (hx : x < cfg.width) :
    2 * x + 1 < stride cfg := by
  simp only [stride, h]
  omega

/-- The latch and the encoder's inputs: operands and results are not read by it. -/
theorem encodeSpan_latch (s : State) (i : Instr) (offset len : Nat) :
    encodeSpan (s.latch i) offset len = encodeSpan s offset len := by
  unfold encodeSpan
  simp only [State.latch_cfg]
  split
  · exact encodeGray4_congr fun _ _ _ => rfl
  · exact encodeColor16_congr rfl fun _ _ _ _ => rfl

end Sys2Proof.Machine
end

