-- ==== Sys2Proof/Laws/Effect.lean ====
section
/-! SUPPORT. What every instruction that gives a next state does on the bus, and how it ends, said once: `exec_effect`. -/

namespace Sys2Proof.Machine

/-- The two instructions that can drive the select line without a burst: an empty data burst (43_pixel_encoder.md R177). -/
def DrivesData (i : Instr) : Prop := (∀ a n, i ≠ .flush a n) → ∃ n, i = .dataBurst n

/-- A body of instruction `i`, begun in a state like `s`, has issued a plan and stands where the last answer leaves it, or
has raised an error of its own after a plan that went through. -/
structure BodyOf (s : State) (i : Instr) (plan : List Planned) (r : Run) : Prop where
  trace : r.st.trace = s.trace ++ issued s.answerTo s.asked plan
  asked : r.st.asked = s.asked + (issued s.answerTo s.asked plan).length
  op : ∃ w, r.st.op = some ⟨i, w⟩
  response : r.st.response = none
  dc : r.st.dc = selectAfter s.dc (issued s.answerTo s.asked plan) ∨ (DrivesData i ∧ r.st.dc = some .data)
  status : r.status = statusAfter (issued s.answerTo s.asked plan) ∨
    (statusAfter (issued s.answerTo s.asked plan) = .running ∧ ∃ e, r.status = .raised e ∧ e ≠ .busTransferFailed)

/-- A state that has the bus, the operation and the result of the latched state. -/
structure LikeLatch (s : State) (i : Instr) (u : State) : Prop where
  trace : u.trace = s.trace
  asked : u.asked = s.asked
  script : u.busScript = s.busScript
  dc : u.dc = s.dc
  op : ∃ w, u.op = some ⟨i, w⟩
  response : u.response = none

theorem likeLatch (s : State) (i : Instr) : LikeLatch s i (s.latch i) := ⟨rfl, rfl, rfl, rfl, ⟨_, rfl⟩, rfl⟩

theorem LikeLatch.work {s u : State} {i : Instr} (h : LikeLatch s i u) (f : Working → Working) :
    LikeLatch s i (u.work f) := by
  obtain ⟨w, hw⟩ := h.op
  exact ⟨h.trace, h.asked, h.script, h.dc, ⟨f w, by simp [hw]⟩, h.response⟩

theorem LikeLatch.emit {s u : State} {i : Instr} (h : LikeLatch s i u) (plan : List Planned) :
    BodyOf s i plan (u.emit plan) := by
  have ha : u.answerTo = s.answerTo := by funext n; simp [State.answerTo, h.script]
  refine ⟨?_, ?_, h.op, h.response, .inl ?_, .inl ?_⟩
  · rw [emit_trace, ha, h.trace, h.asked]
  · simp only [State.emit]; rw [ha, h.asked]
  · simp only [State.emit]; rw [ha, h.asked, h.dc]
  · rw [emit_status, ha, h.asked]

theorem LikeLatch.raise {s u : State} {i : Instr} (h : LikeLatch s i u) {e : Err} (he : e ≠ .busTransferFailed) :
    BodyOf s i [] (raise e u) :=
  ⟨by simp [Machine.raise, h.trace], by simp [Machine.raise, h.asked], h.op, h.response,
    .inl (by simp [Machine.raise, h.dc]), .inr ⟨rfl, e, rfl, he⟩⟩

theorem LikeLatch.go {s u : State} {i : Instr} (h : LikeLatch s i u) : BodyOf s i [] (Run.go u) :=
  ⟨by simp [Run.go, h.trace], by simp [Run.go, h.asked], h.op, h.response, .inl (by simp [Run.go, h.dc]), .inl rfl⟩

theorem BodyOf.work {s : State} {i : Instr} {plan : List Planned} {r : Run} (h : BodyOf s i plan r)
    (f : Working → Working) : BodyOf s i plan (r.work f) := by
  obtain ⟨w, hw⟩ := h.op
  exact ⟨h.trace, h.asked, ⟨f w, by simp [hw]⟩, h.response, h.dc, h.status⟩

/-- What follows a plan and leaves the bus, the operation and the result alone. -/
theorem BodyOf.andThen_go {s : State} {i : Instr} {plan : List Planned} {r : Run} (h : BodyOf s i plan r)
    (f : State → State) (hf : ∀ u, (f u).trace = u.trace ∧ (f u).asked = u.asked ∧ (f u).op = u.op ∧
      (f u).response = u.response ∧ (f u).dc = u.dc) : BodyOf s i plan (r.andThen fun u => Run.go (f u)) := by
  obtain ⟨u, _ | e | _⟩ := r
  · obtain ⟨h1, h2, h3, h4, h5⟩ := hf u
    refine ⟨h1.trans h.trace, h2.trans h.asked, ?_, h4.trans h.response, ?_, ?_⟩
    · obtain ⟨w, hw⟩ := h.op; exact ⟨w, h3.trans hw⟩
    · exact h.dc.imp h5.trans fun hd => ⟨hd.1, h5.trans hd.2⟩
    · rcases h.status with hs | ⟨hs, e, he, _⟩
      · exact .inl hs
      · cases he
  · exact h
  · exact h

/-- An error of the operation's own after a plan. -/
theorem BodyOf.andThen_raise {s : State} {i : Instr} {plan : List Planned} {r : Run} (h : BodyOf s i plan r)
    {e : Err} (he : e ≠ .busTransferFailed) : BodyOf s i plan (r.andThen (raise e)) := by
  obtain ⟨u, _ | e' | _⟩ := r
  · refine ⟨h.trace, h.asked, h.op, h.response, h.dc, .inr ⟨?_, e, rfl, he⟩⟩
    rcases h.status with hs | ⟨hs, _⟩
    · exact hs.symm
    · exact hs
  · exact h
  · exact h

theorem BodyOf.initEnd {s : State} {i : Instr} {plan : List Planned} {r : Run} (h : BodyOf s i plan r) :
    BodyOf s i plan (initEnd r) := by
  obtain ⟨u, _ | e | _⟩ := r
  · exact ⟨h.trace, h.asked, h.op, h.response, h.dc, h.status⟩
  · exact ⟨h.trace, h.asked, h.op, h.response, h.dc, h.status⟩
  · exact h

/-! ## The end of an instruction -/

/-- How an instruction that gave a next state ended. -/
inductive Ended (s : State) (i : Instr) (bs : List Burst) (t : State) : Prop where
  /-- It went through. -/
  | done (all : statusAfter bs = .running) (op : t.op = none)
      (response : t.response = if isHostOp i then some .ok else none)
  /-- It failed before its next burst. -/
  | failed (e : Err) (all : statusAfter bs = .running) (own : e ≠ .busTransferFailed) (op : t.op = none)
      (response : t.response = some (.err e))
  /-- Its last burst failed. -/
  | busFailed (last : statusAfter bs = .raised .busTransferFailed) (op : t.op = none)
      (response : t.response = some (.err .busTransferFailed))
  /-- It waits for the bus. -/
  | waits (last : statusAfter bs = .stalled) (w : Working) (op : t.op = some ⟨i, w⟩) (response : t.response = none)

/-- What an instruction that gave a next state did on the bus. -/
structure Effect (s : State) (i : Instr) (plan : List Planned) (t : State) : Prop where
  trace : t.trace = s.trace ++ issued s.answerTo s.asked plan
  asked : t.asked = s.asked + (issued s.answerTo s.asked plan).length
  dc : t.dc = selectAfter s.dc (issued s.answerTo s.asked plan) ∨ (DrivesData i ∧ t.dc = some .data)
  ended : Ended s i (issued s.answerTo s.asked plan) t

theorem BodyOf.delivered {s : State} {i : Instr} {plan : List Planned} {r : Run} (h : BodyOf s i plan r)
    (hi : isHostOp i = true) : Effect s i plan r.delivered := by
  refine ⟨by simp [h.trace], by simp [h.asked], by simpa using h.dc, ?_⟩
  obtain ⟨w, hw⟩ := h.op
  have hr := h.response
  have hs := h.status
  obtain ⟨u, st⟩ := r
  rcases hs with hs | ⟨h1, e, hs, he⟩
  · simp only at hs hw hr
    subst hs
    cases hst : statusAfter (issued s.answerTo s.asked plan) with
    | running => exact .done hst rfl (by simp [Run.delivered, hi])
    | raised e =>
      have := statusAfter_raised hst
      subst this
      exact .busFailed hst rfl rfl
    | stalled => exact .waits hst w hw hr
  · simp only at hs hw hr
    subst hs
    exact .failed e h1 he rfl rfl

theorem BodyOf.fallen {s : State} {i : Instr} {plan : List Planned} {r : Run} (h : BodyOf s i plan r)
    (hi : isHostOp i = false) : Effect s i plan r.fallen := by
  refine ⟨by simp [h.trace], by simp [h.asked], by simpa using h.dc, ?_⟩
  obtain ⟨w, hw⟩ := h.op
  have hr := h.response
  have hs := h.status
  obtain ⟨u, st⟩ := r
  rcases hs with hs | ⟨h1, e, hs, he⟩
  · simp only at hs hw hr
    subst hs
    cases hst : statusAfter (issued s.answerTo s.asked plan) with
    | running => exact .done hst rfl (by simp [Run.fallen, hi, hr])
    | raised e =>
      have := statusAfter_raised hst
      subst this
      exact .busFailed hst rfl rfl
    | stalled => exact .waits hst w hw hr
  · simp only at hs hw hr
    subst hs
    exact .failed e h1 he rfl rfl

/-! ## The bodies -/

theorem gammaLevels_error_own {curve : Curve} {e : Err} (h : gammaLevels curve = .error e) :
    e ≠ .busTransferFailed := by
  obtain ⟨_, _, _, rfl⟩ := gammaLevels_error h
  exact nofun

theorem grayscaleFrames_error_own {cfg : Cfg} {e : Err} (h : grayscaleFrames cfg = .error e) :
    e ≠ .busTransferFailed := by
  obtain ⟨_, _, _, rfl⟩ := grayscaleFrames_error h
  exact nofun

/-- Nothing to send after the data burst's line is driven. -/
theorem sendTx_body {s u : State} {i : Instr} (hd : DrivesData i) (h : LikeLatch s i u) (n : Nat) :
    BodyOf s i (if n = 0 then [] else [(.data, u.txBytes n)]) (sendTx n u) := by
  by_cases hn : n = 0
  · subst hn
    rw [if_pos rfl, sendTx_zero]
    exact ⟨by simp [Run.go, h.trace], by simp [Run.go, h.asked], h.op, h.response, .inr ⟨hd, rfl⟩, .inl rfl⟩
  · rw [if_neg hn, sendTx_pos (by omega)]
    exact h.emit _

/-- The power-up sequence issues the frames of `INIT`. -/
theorem initSequence_body {s u : State} (h : LikeLatch s .init u) (hc : u.cfg = s.cfg) :
    BodyOf s .init (planOf (framesOf s.cfg .init)) (runSteps initSteps u) := by
  rw [← hc]
  rcases initSequence_eq u with ⟨e, h1, h2⟩ | ⟨g, f, h1, h2⟩
  · rw [h2]
    simp only [framesOf, h1]
    exact (h.emit _).andThen_raise (grayscaleFrames_error_own h1)
  · rw [h2]
    simp only [framesOf, h1]
    exact (h.emit _).work f

/-- A micro-operation that is a plan. -/
theorem micro_effect {i : Instr} {s t : State} {g : State → Bool} {f : State → Run} {plan : List Planned} (hi : isHostOp i = false)
    (hf : BodyOf s i plan (f (s.latch i))) (h : micro i s g f = .next t) : s.op = none ∧ Effect s i plan t := by
  obtain ⟨h0, _, _, rfl⟩ := micro_next h
  exact ⟨h0, hf.fallen hi⟩

theorem micro_frames {i : Instr} {s t : State} {fs : List Frame} {g : State → Bool} {f : State → Run} (hi : isHostOp i = false)
    (hf : ∀ u, u.cfg = s.cfg → f u = sendFrames fs u) (h : micro i s g f = .next t) :
    s.op = none ∧ Effect s i (planOf fs) t := by
  refine micro_effect hi ?_ h
  rw [hf (s.latch i) rfl, sendFrames_eq_emit]
  exact (likeLatch s i).emit _

theorem answerInvalid_effect {i : Instr} {s t : State} (hi : isHostOp i = true) (h : answerInvalid i s = .next t) :
    s.op = none ∧ Effect s i [] t := by
  obtain ⟨h0, h⟩ := start_next h
  have h := deliver_next.1 h
  subst h
  exact ⟨h0, ((likeLatch s i).raise (e := .invalidParameter) nofun).delivered hi⟩

/-- The data burst an instruction issues, where it issues one. -/
def isDataPlan (plan : List Planned) : Prop := plan = [] ∨ ∃ bytes, bytes ≠ [] ∧ plan = [(.data, bytes)]

theorem isDataPlan_tx (s : State) (n : Nat) : isDataPlan (if n = 0 then [] else [(.data, s.txBytes n)]) := by
  by_cases hn : n = 0
  · exact .inl (by rw [if_pos hn])
  · refine .inr ⟨s.txBytes n, ?_, by rw [if_neg hn]⟩
    intro h
    have := congrArg List.length h
    simp [State.txBytes] at this
    exact hn this

theorem flush_effect {s t : State} {offset len : Nat} (h : execFlush offset len s = .next t) :
    s.op = none ∧ ∃ plan, isDataPlan plan ∧ Effect s (.flush offset len) plan t := by
  obtain ⟨h0, h⟩ := start_next h
  refine ⟨h0, ?_⟩
  have hl := likeLatch s (.flush offset len)
  have hraise : ∀ e, e ≠ .busTransferFailed → deliver (raise e (s.latch (.flush offset len))) = .next t →
      ∃ plan, isDataPlan plan ∧ Effect s (.flush offset len) plan t := by
    intro e he h
    have h := deliver_next.1 h
    subst h
    exact ⟨[], .inl rfl, (hl.raise he).delivered rfl⟩
  split at h
  · split at h
    · obtain ⟨_, h⟩ := needBus_next h
      have h := deliver_next.1 h
      subst h
      have hu : LikeLatch s (.flush offset len) (encodeStep offset len (s.latch (.flush offset len))) :=
        ⟨rfl, rfl, rfl, rfl, ⟨_, rfl⟩, rfl⟩
      exact ⟨_, isDataPlan_tx _ _, (sendTx_body (fun hf => absurd rfl (hf offset len)) hu _).delivered rfl⟩
    · exact hraise .invalidParameter nofun h
  · exact hraise .bufferUnavailable nofun h

theorem dataBurst_effect {s t : State} {n : Nat} (h : execDataBurst n s = .next t) :
    s.op = none ∧ ∃ plan, isDataPlan plan ∧ Effect s (.dataBurst n) plan t := by
  obtain ⟨h0, h⟩ := start_next h
  obtain ⟨_, h⟩ := needLife_next h
  refine ⟨h0, ?_⟩
  split at h
  · cases h
  · split at h
    · cases h
    · obtain ⟨_, h⟩ := needBus_next h
      have h := fallThrough_next.1 h
      subst h
      exact ⟨_, isDataPlan_tx _ _, (sendTx_body (fun _ => ⟨n, rfl⟩) (likeLatch s _) _).fallen rfl⟩

/-- Every instruction but FLUSH and DATA_BURST issues the plan of its frames. -/
theorem frames_effect {i : Instr} {s t : State} (hf : ∀ a n, i ≠ .flush a n) (hd : ∀ n, i ≠ .dataBurst n)
    (h : exec i s = .next t) : s.op = none ∧ Effect s i (planOf (framesOf s.cfg i)) t := by
  cases i with
  | flush a n => exact absurd rfl (hf a n)
  | dataBurst n => exact absurd rfl (hd n)
  | init =>
    replace h : execInit s = .next t := h
    obtain ⟨h0, h⟩ := start_next h
    obtain ⟨_, h⟩ := needLife_next h
    obtain ⟨_, h⟩ := needBus_next h
    have h := deliver_next.1 h
    subst h
    have hu : LikeLatch s .init (s.latch .init).beginInit := ⟨rfl, rfl, rfl, rfl, ⟨_, rfl⟩, rfl⟩
    exact ⟨h0, (initSequence_body hu rfl).initEnd.delivered rfl⟩
  | setWindow xs ys xe ye =>
    replace h : execSetWindow xs ys xe ye s = .next t := h
    obtain ⟨h0, h⟩ := start_next h
    obtain ⟨_, h⟩ := needLife_next h
    obtain ⟨_, h⟩ := needBus_next h
    have h := deliver_next.1 h
    subst h
    refine ⟨h0, BodyOf.delivered ?_ rfl⟩
    have hu : LikeLatch s (.setWindow xs ys xe ye) (s.latch (.setWindow xs ys xe ye)).forgetWin :=
      ⟨rfl, rfl, rfl, rfl, ⟨_, rfl⟩, rfl⟩
    unfold windowBody
    rw [sendFrames_eq_emit]
    exact (hu.emit _).andThen_go (fun u => u.setWin ys ye) fun _ => ⟨rfl, rfl, rfl, rfl, rfl⟩
  | programGamma curve =>
    replace h : execProgramGamma curve s = .next t := h
    obtain ⟨h0, h⟩ := start_next h
    obtain ⟨_, h⟩ := needLife_next h
    have h := deliver_next.1 (needBusIf_next h).2
    subst h
    refine ⟨h0, BodyOf.delivered ?_ rfl⟩
    rcases gammaProgram_eq curve (s.latch (.programGamma curve)) with ⟨e, h1, h2⟩ | ⟨levels, f, h1, h2⟩
    · rw [h2]
      simp only [framesOf, h1]
      exact (likeLatch s _).raise (gammaLevels_error_own h1)
    · rw [h2]
      simp only [framesOf, h1]
      exact ((likeLatch s _).emit _).work f
  | programPrecharge level =>
    replace h : execProgramPrecharge level s = .next t := h
    obtain ⟨h0, h⟩ := start_next h
    have hraise : deliver (raise .invalidParameter (s.latch (.programPrecharge level))) = .next t →
        Effect s (.programPrecharge level) [] t := by
      intro h
      have h := deliver_next.1 h
      subst h
      exact ((likeLatch s _).raise (e := .invalidParameter) nofun).delivered (by cases level <;> rfl)
    refine ⟨h0, ?_⟩
    split at h
    · rename_i hp
      have hp1 : s.cfg.hasPrecharge = true := hp
      obtain ⟨_, h⟩ := needLife_next h
      cases level with
      | none => exact hraise h
      | some l =>
        simp only at h
        split at h
        · rename_i hl
          obtain ⟨_, h⟩ := needBus_next h
          have h := deliver_next.1 h
          subst h
          rw [sendFrames_eq_emit]
          simp only [framesOf, hp1, hl, Bool.and_self, if_true]
          exact ((likeLatch s (.programPrecharge (some l))).emit _).delivered rfl
        · rename_i hl
          simp only [framesOf, hl, Bool.and_false, Bool.false_eq_true, if_false]
          exact hraise h
    · rename_i hp
      have hp1 : s.cfg.hasPrecharge = false := by simpa using hp
      cases level with
      | none => exact hraise h
      | some l =>
        simp only [framesOf, hp1, Bool.false_and, Bool.false_eq_true, if_false]
        exact hraise h
  | blank on =>
    replace h : execBlank on s = .next t := h
    obtain ⟨h0, h⟩ := start_next h
    obtain ⟨_, h⟩ := needLife_next h
    obtain ⟨_, h⟩ := needBus_next h
    have h := deliver_next.1 h
    subst h
    refine ⟨h0, BodyOf.delivered ?_ rfl⟩
    unfold blankBody
    rw [sendFrames_eq_emit]
    exact ((likeLatch s _).emit _).andThen_go (fun u => { u with life := if on then .blanked else .on })
      fun _ => ⟨rfl, rfl, rfl, rfl, rfl⟩
  | destroy =>
    replace h : execDestroy s = .next t := h
    obtain ⟨h0, h⟩ := start_next h
    obtain ⟨_, h⟩ := needLife_next h
    have h := deliver_next.1 h
    subst h
    refine ⟨h0, BodyOf.delivered ?_ rfl⟩
    exact LikeLatch.go ⟨rfl, rfl, rfl, rfl, ⟨_, rfl⟩, rfl⟩
  | reserved0 => exact answerInvalid_effect rfl h
  | reserved8 => exact answerInvalid_effect rfl h
  | reserved9 => exact answerInvalid_effect rfl h
  | reservedA => exact answerInvalid_effect rfl h
  | reservedB => exact answerInvalid_effect rfl h
  | reservedC => exact answerInvalid_effect rfl h
  | reservedD => exact answerInvalid_effect rfl h
  | reservedE => exact answerInvalid_effect rfl h
  | reservedF => exact answerInvalid_effect rfl h
  | send reg params =>
    refine micro_effect rfl ?_ h
    rw [send_eq_emit ⟨reg, params⟩]
    simpa [framesOf] using (likeLatch s (.send reg params)).emit (framePlan ⟨reg, params⟩)
  | regGamma levels => exact micro_frames rfl (fun _ _ => rfl) h
  | regGammaEnd => exact micro_frames rfl (fun _ _ => rfl) h
  | regSetColumn => exact micro_frames rfl (fun _ _ => rfl) h
  | regSetRow ys ye => exact micro_frames rfl (fun _ _ => rfl) h
  | windowTrailerFrame => exact micro_frames rfl (fun _ _ => rfl) h
  | regPrecharge level => exact micro_frames rfl (fun _ _ => rfl) h
  | regDisplayOff => exact micro_frames rfl (fun _ _ => rfl) h
  | regDisplayOn => exact micro_frames rfl (fun _ _ => rfl) h
  | initStep01 => exact micro_frames rfl (fun u hu => by rw [stepUnlock, hu]; rfl) h
  | initStep02 => exact micro_frames rfl (fun u hu => by rw [stepDisableOutput, hu]; rfl) h
  | initStep03 =>
    refine micro_effect rfl ?_ h
    rcases stepGrayscale_eq (s.latch .initStep03) with ⟨e, h1, h2⟩ | ⟨g, f, h1, h2⟩
    · have h1' : grayscaleFrames s.cfg = .error e := h1
      rw [h2]
      simp only [framesOf, h1']
      exact (likeLatch s _).raise (grayscaleFrames_error_own h1)
    · have h1' : grayscaleFrames s.cfg = .ok g := h1
      rw [h2]
      simp only [framesOf, h1']
      exact ((likeLatch s _).emit _).work f
  | initStep04 => exact micro_frames rfl (fun u hu => by rw [stepClockDivider, hu]; rfl) h
  | initStep05 => exact micro_frames rfl (fun u hu => by rw [stepMuxRatio, hu]; rfl) h
  | initStep06 => exact micro_frames rfl (fun u hu => by rw [stepStartLineOffset, hu]; rfl) h
  | initStep07 => exact micro_frames rfl (fun u hu => by rw [stepRemap, hu]; rfl) h
  | initStep08 => exact micro_frames rfl (fun u hu => by rw [stepExternalSupply, hu]; rfl) h
  | initStep09 => exact micro_frames rfl (fun u hu => by rw [stepContrast, hu]; rfl) h
  | initStep10 => exact micro_frames rfl (fun u hu => by rw [stepPhasePrecharge, hu]; rfl) h
  | initStep11 => exact micro_frames rfl (fun u hu => by rw [stepVcomh, hu]; rfl) h
  | initStep12 => exact micro_frames rfl (fun u hu => by rw [stepNormalDisplay, hu]; rfl) h
  | initStep13 => exact micro_frames rfl (fun u hu => by rw [stepEnableOutput, hu]; rfl) h

/-- The select line after an instruction that is no FLUSH and no DATA_BURST: at the level of its last burst, or as it was. -/
theorem frames_dc {i : Instr} {s t : State} (hf : ∀ a n, i ≠ .flush a n) (hd : ∀ n, i ≠ .dataBurst n)
    (h : exec i s = .next t) : t.dc = selectAfter s.dc (issued s.answerTo s.asked (planOf (framesOf s.cfg i))) := by
  rcases (frames_effect hf hd h).2.dc with h | ⟨h, _⟩
  · exact h
  · obtain ⟨n, hn⟩ := h hf
    exact absurd hn (hd n)

/-- Every instruction that gives a next state: what it did on the bus is a plan, ended as `Ended` says. -/
theorem exec_effect {i : Instr} {s t : State} (h : exec i s = .next t) :
    s.op = none ∧ ∃ plan, Effect s i plan t ∧
      (isDataPlan plan ∨ ((∀ a n, i ≠ .flush a n) ∧ (∀ n, i ≠ .dataBurst n) ∧ plan = planOf (framesOf s.cfg i))) := by
  by_cases hf : ∃ a n, i = .flush a n
  · obtain ⟨a, n, rfl⟩ := hf
    obtain ⟨h0, plan, h1, h2⟩ := flush_effect h
    exact ⟨h0, plan, h2, .inl h1⟩
  · by_cases hd : ∃ n, i = .dataBurst n
    · obtain ⟨n, rfl⟩ := hd
      obtain ⟨h0, plan, h1, h2⟩ := dataBurst_effect h
      exact ⟨h0, plan, h2, .inl h1⟩
    · have hf' : ∀ a n, i ≠ .flush a n := fun a n hi => hf ⟨a, n, hi⟩
      have hd' : ∀ n, i ≠ .dataBurst n := fun n hi => hd ⟨n, hi⟩
      obtain ⟨h0, h1⟩ := frames_effect hf' hd' h
      exact ⟨h0, _, h1, .inr ⟨hf', hd', rfl⟩⟩

end Sys2Proof.Machine
end

