-- ==== Sys2Proof/Laws/Frame.lean ====
section
/-! SUPPORT. What an instruction leaves alone: the frames of the bodies, and the closed form of FLUSH. -/

namespace Sys2Proof.Machine

/-- Nothing but the bus, the operation and the result differs. -/
structure BusOnly (s t : State) : Prop where
  inputs : InputsKept s t
  scratch : ScratchKept s t
  life : t.life = s.life
  win : t.win = s.win

theorem InputsKept.trans {s t u : State} (h : InputsKept s t) (k : InputsKept t u) : InputsKept s u := by
  constructor
  · exact k.cfg.trans h.cfg
  · exact k.fbPresent.trans h.fbPresent
  · exact k.fbLen.trans h.fbLen
  · exact k.fb.trans h.fb
  · exact k.fbEpoch.trans h.fbEpoch
  · exact k.fbRace.trans h.fbRace
  · exact k.raceDraw.trans h.raceDraw
  · exact k.busReady.trans h.busReady
  · exact k.busScript.trans h.busScript
  · exact k.inbox.trans h.inbox
theorem InputsKept.refl (s : State) : InputsKept s s := by constructor <;> rfl
theorem ScratchKept.trans {s t u : State} (h : ScratchKept s t) (k : ScratchKept t u) : ScratchKept s u :=
  ⟨k.txValid.trans h.txValid, k.tx.trans h.tx, k.txEpoch.trans h.txEpoch⟩
theorem BusOnly.trans {s t u : State} (h : BusOnly s t) (k : BusOnly t u) : BusOnly s u :=
  ⟨h.inputs.trans k.inputs, h.scratch.trans k.scratch, k.life.trans h.life, k.win.trans h.win⟩
theorem busOnly_latch (s : State) (i : Instr) : BusOnly s (s.latch i) := by
  constructor <;> (try constructor) <;> rfl
theorem busOnly_emit (s : State) (p : List Planned) : BusOnly s (s.emit p).st := by
  constructor <;> (try constructor) <;> rfl
theorem busOnly_work (s : State) (f) : BusOnly s (s.work f) := by
  constructor <;> (try constructor) <;> rfl
theorem busOnly_delivered (r : Run) : BusOnly r.st r.delivered := by
  constructor <;> (try constructor) <;> simp
theorem busOnly_fallen (r : Run) : BusOnly r.st r.fallen := by
  constructor <;> (try constructor) <;> simp

theorem busOnly_gamma (c : Curve) (s : State) : BusOnly s (gammaProgram c s).st := by
  rcases gammaProgram_eq c s with ⟨e, h1, h2⟩ | ⟨l, f, h1, h2⟩ <;> rw [h2]
  · exact busOnly_work s id |> fun h => by rw [work_id] at h; exact h
  · exact (busOnly_emit _ _).trans (busOnly_work _ _)
theorem busOnly_refl (s : State) : BusOnly s s := by have := busOnly_work s id; rwa [work_id] at this
theorem busOnly_gray (s : State) : BusOnly s (stepGrayscale s).st := by
  rcases stepGrayscale_eq s with ⟨e, h1, h2⟩ | ⟨l, f, h1, h2⟩ <;> rw [h2]
  · exact busOnly_refl s
  · exact (busOnly_emit _ _).trans (busOnly_work _ _)

theorem micro_busOnly {i : Instr} {s t : State} {g : State → Bool} {f : State → Run} (hf : ∀ u, BusOnly u (f u).st)
    (h : micro i s g f = .next t) : BusOnly s t := by
  obtain ⟨_, _, _, rfl⟩ := micro_next h
  exact (busOnly_latch s i).trans ((hf _).trans (busOnly_fallen _))
theorem busOnly_frames (fs) (u : State) : BusOnly u (sendFrames fs u).st := by
  rw [sendFrames_eq_emit]; exact busOnly_emit _ _
theorem answerInvalid_busOnly {i : Instr} {s t : State} (h : answerInvalid i s = .next t) : BusOnly s t := by
  obtain ⟨h0, h⟩ := start_next h
  have h := deliver_next.1 h
  subst h
  exact (busOnly_latch s i).trans (busOnly_delivered (raise .invalidParameter (s.latch i)))

theorem gamma_next {c s t} (h : execProgramGamma c s = .next t) : t = (gammaProgram c (s.latch (.programGamma c))).delivered := by
  obtain ⟨h0, h⟩ := start_next h
  obtain ⟨_, h⟩ := needLife_next h
  exact (deliver_next.1 (needBusIf_next h).2).symm

theorem gamma_busOnly {c s t} (h : execProgramGamma c s = .next t) : BusOnly s t := by
  rw [gamma_next h]
  exact (busOnly_latch s _).trans ((busOnly_gamma _ _).trans (busOnly_delivered _))

theorem precharge_busOnly {l s t} (h : execProgramPrecharge l s = .next t) : BusOnly s t := by
  obtain ⟨h0, h⟩ := start_next h
  have hr : deliver (raise .invalidParameter (s.latch (.programPrecharge l))) = .next t → BusOnly s t := by
    intro h
    rw [← deliver_next.1 h]
    exact (busOnly_latch s _).trans (busOnly_delivered (raise .invalidParameter (s.latch _)))
  split at h
  · obtain ⟨_, h⟩ := needLife_next h
    split at h
    · exact hr h
    · split at h
      · rw [← deliver_next.1 (needBus_next h).2]
        exact (busOnly_latch s _).trans ((busOnly_frames _ _).trans (busOnly_delivered _))
      · exact hr h
  · exact hr h

theorem window_next {xs ys xe ye s t} (h : execSetWindow xs ys xe ye s = .next t) :
   t = (windowBody ys ye (s.latch (.setWindow xs ys xe ye))).delivered := by
  obtain ⟨h0, h⟩ := start_next h
  obtain ⟨_, h⟩ := needLife_next h
  exact (deliver_next.1 (needBus_next h).2).symm

theorem flush_next {s t : State} {offset len : Nat} (h : execFlush offset len s = .next t) :
    ((s.buffersPresent && s.spanOk offset len) = false ∧ ∃ e, t = { s with response := some (.err e) }) ∨
    (s.buffersPresent = true ∧ s.spanOk offset len = true ∧ s.busReady = true ∧ t = (flushBody offset len (s.latch (.flush offset len))).delivered) := by
  obtain ⟨h0, h⟩ := start_next h
  split at h
  · split at h
    · obtain ⟨hb, h⟩ := needBus_next h
      exact .inr ⟨by assumption, by assumption, hb, (deliver_next.1 h).symm⟩
    · rename_i hsp
      refine .inl ⟨?_, .invalidParameter, ?_⟩
      · have : s.spanOk offset len = false := Bool.eq_false_iff.2 hsp
        rw [this, Bool.and_false]
      rw [← deliver_next.1 h, raised_at_start h0]
  · rename_i hbp
    refine .inl ⟨?_, .bufferUnavailable, ?_⟩
    · have : s.buffersPresent = false := Bool.eq_false_iff.2 hbp
      rw [this, Bool.false_and]
    rw [← deliver_next.1 h, raised_at_start h0]

theorem sendTx_busOnly (n : Nat) (s : State) : BusOnly s (sendTx n s).st := by
  by_cases hn : n = 0
  · subst hn; rw [sendTx_zero]; constructor <;> (try constructor) <;> rfl
  · rw [sendTx_pos (by omega)]; exact busOnly_emit _ _

theorem flushBody_busOnly (offset len : Nat) (s : State) : BusOnly (encodeStep offset len s) (flushBody offset len s).delivered :=
  (sendTx_busOnly _ _).trans (busOnly_delivered _)

/-- What a FLUSH that came to its encode step leaves in `FB`: the host's pending writes have landed. -/
theorem flush_fb (s : State) (offset len : Nat) :
    (flushBody offset len (s.latch (.flush offset len))).delivered.fb = s.fb.overlay s.fbRace ∧
    (flushBody offset len (s.latch (.flush offset len))).delivered.fbRace = [] ∧
    (flushBody offset len (s.latch (.flush offset len))).delivered.raceDraw = s.raceDraw + 1 := by
  have k := (flushBody_busOnly offset len (s.latch (.flush offset len))).inputs
  exact ⟨k.fb, k.fbRace, k.raceDraw⟩

theorem dataBurst_busOnly {n s t} (h : execDataBurst n s = .next t) : BusOnly s t := by
  obtain ⟨h0, h⟩ := start_next h
  obtain ⟨_, h⟩ := needLife_next h
  split at h
  · cases h
  · split at h
    · cases h
    · obtain ⟨_, h⟩ := needBus_next h
      rw [← fallThrough_next.1 h]
      exact (busOnly_latch s _).trans ((sendTx_busOnly _ _).trans (busOnly_fallen _))

theorem flush_tx {s t : State} {offset len : Nat} (h : t = (flushBody offset len (s.latch (.flush offset len))).delivered) :
   (∀ k, t.tx.read? k = if k < spanOutput s.cfg len then (encodeSpan s offset len)[k]? else s.tx.read? k) := by
  intro k
  rw [h, (flushBody_busOnly _ _ _).scratch.tx]
  simp only [encodeStep, State.endBorrow_tx, State.storeCount_tx, State.storeTx_tx, State.latch_tx, encodeSpan_latch, Memory.read?_writeBytes, encodeSpan_length]
  simp
theorem flush_body_eq {s : State} {offset len : Nat} : flushBody offset len (s.latch (.flush offset len)) =
   if spanOutput s.cfg len = 0 then Run.go { encodeStep offset len (s.latch (.flush offset len)) with dc := some .data }
   else (encodeStep offset len (s.latch (.flush offset len))).emit [(.data, encodeSpan s offset len)] := by
  unfold flushBody
  by_cases h : spanOutput s.cfg len = 0
  · rw [if_pos h]; simp [h]
  · rw [if_neg h, State.latch_cfg, sendTx_pos (by omega)]
    congr 3
    have := txBytes_storeTx (s.latch (.flush offset len)) (encodeSpan s offset len)
    rw [encodeSpan_length] at this
    rw [← this]
    simp only [encodeStep, encodeSpan_latch]
    rfl


theorem busOnly_andThen_raise {s : State} {r : Run} (h : BusOnly s r.st) (e : Err) :
    BusOnly s (r.andThen (raise e)).st := by
  obtain ⟨u, _ | e' | _⟩ := r <;> exact h

theorem busOnly_initSequence (s : State) : BusOnly s (runSteps initSteps s).st := by
  rcases initSequence_eq s with ⟨e, _, h⟩ | ⟨g, f, _, h⟩ <;> rw [h]
  · exact busOnly_andThen_raise (busOnly_emit _ _) e
  · exact (busOnly_emit _ _).trans (busOnly_work _ _)

theorem init_next {s t : State} (h : execInit s = .next t) : s.life = .uninitialized ∧
    t = (initEnd (runSteps initSteps (s.latch .init).beginInit)).delivered := by
  obtain ⟨_, h⟩ := start_next h
  obtain ⟨h1, h⟩ := needLife_next h
  refine ⟨?_, (deliver_next.1 (needBus_next h).2).symm⟩
  rw [State.latch_life] at h1
  cases hs : s.life <;> simp_all [Life.takesInit]

theorem blank_next {on : Bool} {s t : State} (h : execBlank on s = .next t) :
    s.life.working = true ∧ t = (blankBody on (s.latch (.blank on))).delivered := by
  obtain ⟨_, h⟩ := start_next h
  obtain ⟨h1, h⟩ := needLife_next h
  exact ⟨h1, (deliver_next.1 (needBus_next h).2).symm⟩

theorem destroy_next {s t : State} (h : execDestroy s = .next t) : s.op = none ∧ s.life.takesDestroy = true ∧
    t = { s with life := .destroyed, txValid := false, tx := [], txEpoch := s.txEpoch + 1, response := some .ok } := by
  obtain ⟨h0, h⟩ := start_next h
  obtain ⟨h1, h⟩ := needLife_next h
  refine ⟨h0, h1, ?_⟩
  rw [← deliver_next.1 h]
  simp [Run.go, Run.delivered, State.forgetTx, State.latch, h0]

/-- The instructions that touch the bus only. -/
theorem exec_busOnly {i : Instr} {s t : State} (h1 : i ≠ .init) (h2 : ∀ on, i ≠ .blank on) (h3 : i ≠ .destroy) (h4 : ∀ a n, i ≠ .flush a n) (h5 : ∀ a b c d, i ≠ .setWindow a b c d) (h : exec i s = .next t) : BusOnly s t := by
  cases i
  case init => exact absurd rfl h1
  case blank on => exact absurd rfl (h2 on)
  case destroy => exact absurd rfl h3
  case flush a n => exact absurd rfl (h4 a n)
  case setWindow a b c d => exact absurd rfl (h5 a b c d)
  case send r p => exact micro_busOnly (fun u => by rw [send_eq_emit ⟨r, p⟩]; exact busOnly_emit _ _) h
  case initStep03 => exact micro_busOnly (fun u => busOnly_gray u) h
  case programGamma c => exact gamma_busOnly h
  case programPrecharge l => exact precharge_busOnly h
  case dataBurst n => exact dataBurst_busOnly h
  all_goals first
    | exact answerInvalid_busOnly h
    | exact micro_busOnly (fun u => busOnly_frames _ u) h

theorem windowBody_kept {ys ye : Byte} {s : State} : InputsKept s (windowBody ys ye s).st ∧ ScratchKept s (windowBody ys ye s).st ∧ (windowBody ys ye s).st.life = s.life := by
  have hb := busOnly_frames (windowFrames s.cfg ys ye) s.forgetWin
  unfold windowBody
  have hk : InputsKept s (sendFrames (windowFrames s.cfg ys ye) s.forgetWin).st := InputsKept.trans (by constructor <;> rfl) hb.inputs
  have hs : ScratchKept s (sendFrames (windowFrames s.cfg ys ye) s.forgetWin).st := ScratchKept.trans (by constructor <;> rfl) hb.scratch
  have hl : (sendFrames (windowFrames s.cfg ys ye) s.forgetWin).st.life = s.life := hb.life
  generalize sendFrames (windowFrames s.cfg ys ye) s.forgetWin = r at *
  obtain ⟨u, _ | e | _⟩ := r
  · exact ⟨hk.trans (by constructor <;> rfl), hs.trans (by constructor <;> rfl), hl⟩
  · exact ⟨hk, hs, hl⟩
  · exact ⟨hk, hs, hl⟩

theorem flush_kept {s t : State} {o l} (h : execFlush o l s = .next t) : t.cfg = s.cfg ∧ t.life = s.life ∧ t.win = s.win ∧ t.txValid = s.txValid ∧ t.fbLen = s.fbLen := by
  rcases flush_next h with ⟨_, e, rfl⟩ | ⟨_, _, _, rfl⟩
  · exact ⟨rfl, rfl, rfl, rfl, rfl⟩
  · have := flushBody_busOnly o l (s.latch (.flush o l))
    exact ⟨this.inputs.cfg, this.life, this.win, this.scratch.txValid, this.inputs.fbLen⟩

theorem initEnd_kept (r : Run) : InputsKept r.st (initEnd r).st := by
  obtain ⟨u, _ | e | _⟩ := r <;> constructor <;> rfl

theorem blank_kept {on s t} (h : execBlank on s = .next t) : InputsKept s t ∧ ScratchKept s t ∧ t.win = s.win ∧ (t.life.working = true) := by
  obtain ⟨hw, h⟩ := blank_next h
  have hb := (busOnly_latch s (.blank on)).trans (busOnly_frames [blankFrame (s.latch (.blank on)).cfg on] (s.latch (.blank on)))
  unfold blankBody at h
  generalize sendFrames [blankFrame (s.latch (.blank on)).cfg on] (s.latch (.blank on)) = r at *
  subst h
  have hl : r.st.life = s.life := hb.life
  obtain ⟨u, _ | e | _⟩ := r
  · exact ⟨hb.inputs.trans (by constructor <;> rfl), hb.scratch.trans (by constructor <;> rfl), hb.win, by cases on <;> rfl⟩
  · exact ⟨hb.inputs.trans (by constructor <;> rfl), hb.scratch.trans (by constructor <;> rfl), hb.win, by rw [← hw]; exact congrArg _ hl⟩
  · exact ⟨hb.inputs.trans (by constructor <;> rfl), hb.scratch.trans (by constructor <;> rfl), hb.win, by rw [← hw]; exact congrArg _ hl⟩

theorem init_inputs {s t : State} (h : execInit s = .next t) : InputsKept s t := by
  rw [(init_next h).2]
  have hb := busOnly_initSequence (s.latch .init).beginInit
  exact InputsKept.trans (InputsKept.trans (InputsKept.trans (by constructor <;> rfl) hb.inputs) (initEnd_kept _)) (busOnly_delivered _).inputs


end Sys2Proof.Machine
end

