-- ==== Sys2Proof/Laws/Gamma.lean ====
section
/-! SUPPORT. What the loop over the curve answers (41_gamma.md R131): the prefix sums, or the first index that fails. -/

namespace Sys2Proof.Machine

/-- The sum of the steps up to and including index `k`. -/
def stepSum (steps : List Word32) (k : Nat) : Nat := ((steps.take (k + 1)).map BitVec.toNat).sum

@[simp] theorem stepSum_cons_zero (c : Word32) (steps : List Word32) : stepSum (c :: steps) 0 = c.toNat := by
  simp [stepSum]

@[simp] theorem stepSum_cons_succ (c : Word32) (steps : List Word32) (k : Nat) :
    stepSum (c :: steps) (k + 1) = c.toNat + stepSum steps k := by
  simp [stepSum]

theorem prefixSum_eq (curve : Curve) (k : Nat) : prefixSum curve k = stepSum curve.toList k := rfl

/-- Index `k` of a list that starts at index `i` with the sum `acc` passes both tests. -/
def Passes (i acc : Nat) (steps : List Word32) (k : Nat) : Prop :=
  acc + stepSum steps k ≤ 180 ∧ (i + k ≠ 0 → ∀ w, steps[k]? = some w → 1 ≤ w.toNat)

/-- One round of the loop. -/
theorem gammaLoop_cons {i acc : Nat} (h0 : i = 0 → acc = 0) (c : Word32) (rest : List Word32) :
    (i ≠ 0 ∧ c.toNat = 0 ∧ gammaLoop i acc (c :: rest) = .error (.invalidCurve i c .zeroStep)) ∨
    ((i ≠ 0 → 1 ≤ c.toNat) ∧ 180 < acc + c.toNat ∧
      gammaLoop i acc (c :: rest) = .error (.invalidCurve i c .sumExceeds)) ∨
    ((i ≠ 0 → 1 ≤ c.toNat) ∧ acc + c.toNat ≤ 180 ∧
      gammaLoop i acc (c :: rest) =
        match gammaLoop (i + 1) (acc + c.toNat) rest with
        | .ok lvls => .ok (BitVec.ofNat 8 (acc + c.toNat) :: lvls)
        | .error e => .error e) := by
  have hsum : (if i = 0 then c.toNat else acc + c.toNat) = acc + c.toNat := by
    by_cases h : i = 0
    · simp [h, h0 h]
    · simp [h]
  rw [gammaLoop]
  simp only [hsum]
  by_cases h1 : i ≠ 0 ∧ c.toNat < 1
  · exact .inl ⟨h1.1, by omega, by rw [if_pos h1]⟩
  · have hz : i ≠ 0 → 1 ≤ c.toNat := fun h => by
      by_contra hc
      exact h1 ⟨h, by omega⟩
    rw [if_neg h1]
    by_cases h2 : acc + c.toNat > 180
    · exact .inr (.inl ⟨hz, h2, by rw [if_pos h2]⟩)
    · exact .inr (.inr ⟨hz, by omega, by rw [if_neg h2] <;> cases gammaLoop (i + 1) (acc + c.toNat) rest <;> rfl⟩)

theorem passes_cons {i acc : Nat} {c : Word32} {rest : List Word32} {k : Nat} :
    Passes i acc (c :: rest) (k + 1) ↔ Passes (i + 1) (acc + c.toNat) rest k := by
  simp only [Passes, stepSum_cons_succ, List.getElem?_cons_succ]
  rw [show acc + (c.toNat + stepSum rest k) = acc + c.toNat + stepSum rest k by omega,
    show i + (k + 1) = i + 1 + k by omega]

theorem passes_zero {i acc : Nat} {c : Word32} {rest : List Word32} (h1 : i ≠ 0 → 1 ≤ c.toNat)
    (h2 : acc + c.toNat ≤ 180) : Passes i acc (c :: rest) 0 := by
  refine ⟨by simpa using h2, fun hi w hw => ?_⟩
  simp only [List.getElem?_cons_zero, Option.some.injEq] at hw
  subst hw
  exact h1 (by simpa using hi)

/-- Where the loop answers levels, they are the prefix sums and every index passes. -/
theorem gammaLoop_ok {i acc : Nat} (h0 : i = 0 → acc = 0) {steps : List Word32} {lvls : List Byte}
    (h : gammaLoop i acc steps = .ok lvls) :
    lvls = (List.range steps.length).map (fun k => BitVec.ofNat 8 (acc + stepSum steps k)) ∧
      ∀ k, k < steps.length → Passes i acc steps k := by
  induction steps generalizing i acc lvls with
  | nil => simp only [gammaLoop, Except.ok.injEq] at h; subst h; simp
  | cons c rest ih =>
    rcases gammaLoop_cons h0 c rest with ⟨_, _, h'⟩ | ⟨_, _, h'⟩ | ⟨h1, h2, h'⟩
    · rw [h'] at h; cases h
    · rw [h'] at h; cases h
    · rw [h'] at h
      cases hr : gammaLoop (i + 1) (acc + c.toNat) rest with
      | error e => rw [hr] at h; cases h
      | ok l =>
        rw [hr] at h
        simp only [Except.ok.injEq] at h
        obtain ⟨ih1, ih2⟩ := ih (by omega) hr
        constructor
        · rw [← h, ih1, List.length_cons, List.range_succ_eq_map, List.map_cons, List.map_map]
          simp only [stepSum_cons_zero, List.cons.injEq, true_and]
          apply List.map_congr_left
          intro k _
          simp only [Function.comp_apply, Nat.succ_eq_add_one, stepSum_cons_succ, Nat.add_assoc]
        · intro k hk
          cases k with
          | zero => exact passes_zero h1 h2
          | succ k => exact passes_cons.2 (ih2 k (by simpa using hk))

/-- Where every index passes, the loop answers levels. -/
theorem gammaLoop_of_passes {i acc : Nat} (h0 : i = 0 → acc = 0) {steps : List Word32}
    (h : ∀ k, k < steps.length → Passes i acc steps k) : ∃ lvls, gammaLoop i acc steps = .ok lvls := by
  induction steps generalizing i acc with
  | nil => exact ⟨[], rfl⟩
  | cons c rest ih =>
    have hz := h 0 (by simp)
    have hc : i ≠ 0 → 1 ≤ c.toNat := fun hi => hz.2 (by simpa using hi) c (by simp)
    have hs : acc + c.toNat ≤ 180 := by simpa using hz.1
    rcases gammaLoop_cons h0 c rest with ⟨h1, h2, _⟩ | ⟨_, h2, _⟩ | ⟨_, _, h'⟩
    · have := hc h1; omega
    · omega
    · obtain ⟨lvls, hl⟩ := ih (i := i + 1) (acc := acc + c.toNat) (by omega)
        fun k hk => passes_cons.1 (h (k + 1) (by simpa using hk))
      exact ⟨_, by rw [h', hl]⟩

/-- Where the loop answers an error, it is that of the first index that does not pass. -/
theorem gammaLoop_err {i acc : Nat} (h0 : i = 0 → acc = 0) {steps : List Word32} {e : Err}
    (h : gammaLoop i acc steps = .error e) :
    ∃ k v c, e = .invalidCurve (i + k) v c ∧ steps[k]? = some v ∧ (∀ j, j < k → Passes i acc steps j) ∧
      (c = .zeroStep → i + k ≠ 0 ∧ v = 0) ∧
      (c = .sumExceeds → 180 < acc + stepSum steps k ∧ (i + k ≠ 0 → v ≠ 0)) := by
  induction steps generalizing i acc with
  | nil => simp [gammaLoop] at h
  | cons c rest ih =>
    rcases gammaLoop_cons h0 c rest with ⟨h1, h2, h'⟩ | ⟨h1, h2, h'⟩ | ⟨h1, h2, h'⟩
    · rw [h'] at h
      injection h with h
      exact ⟨0, c, .zeroStep, h.symm, rfl, by simp, fun _ => ⟨h1, BitVec.eq_of_toNat_eq h2⟩, by simp⟩
    · rw [h'] at h
      injection h with h
      refine ⟨0, c, .sumExceeds, h.symm, rfl, by simp, by simp, fun _ => ⟨by simpa using h2, fun hi hv => ?_⟩⟩
      have := h1 hi
      simp [hv] at this
    · rw [h'] at h
      cases hr : gammaLoop (i + 1) (acc + c.toNat) rest with
      | ok l => rw [hr] at h; cases h
      | error e' =>
        rw [hr] at h
        injection h with h
        subst h
        obtain ⟨k, v, c', he, hk, hj, hz, hx⟩ := ih (by omega) hr
        refine ⟨k + 1, v, c', by rw [he, Nat.add_right_comm, Nat.add_assoc], by simpa using hk, ?_, ?_, ?_⟩
        · intro j hjk
          cases j with
          | zero => exact passes_zero h1 h2
          | succ j => exact passes_cons.2 (hj j (by omega))
        · intro hc'
          exact ⟨by omega, (hz hc').2⟩
        · intro hc'
          have := hx hc'
          exact ⟨by simp only [stepSum_cons_succ]; omega, fun _ => this.2 (by omega)⟩

/-- The valid curves are those whose every index passes (41_gamma.md R135). -/
theorem validCurve_iff (curve : Curve) : ValidCurve curve ↔ ∀ k, k < 15 → Passes 0 0 curve.toList k := by
  have hget : ∀ k (h : k < 15), curve.toList[k]? = some curve[k] := by
    intro k h
    rw [List.getElem?_eq_getElem (by simpa using h)]
    simp
  constructor
  · rintro ⟨h1, h2⟩ k hk
    refine ⟨by rw [Nat.zero_add, ← prefixSum_eq]; exact h2 k hk, fun h w hw => ?_⟩
    rw [hget k hk, Option.some.injEq] at hw
    subst hw
    exact h1 k hk (by omega)
  · intro h
    refine ⟨fun i hi h0 => (h i hi).2 (by omega) _ (hget i hi), fun i hi => ?_⟩
    have := (h i hi).1
    simpa [prefixSum_eq] using this

/-- A valid curve's levels are its prefix sums. -/
theorem gammaLevels_valid {curve : Curve} (h : ValidCurve curve) : gammaLevels curve = .ok (levelBytes curve) := by
  have hlen : curve.toList.length = 15 := by simp
  obtain ⟨lvls, hl⟩ := gammaLoop_of_passes (i := 0) (acc := 0) (steps := curve.toList) (by simp)
    (by rw [hlen]; exact (validCurve_iff curve).1 h)
  have := (gammaLoop_ok (by simp) hl).1
  rw [gammaLevels, hl, this, levelBytes, hlen]
  simp [prefixSum_eq]

theorem valid_of_gammaLevels {curve : Curve} {levels : List Byte} (h : gammaLevels curve = .ok levels) :
    ValidCurve curve ∧ levels = levelBytes curve := by
  have hlen : curve.toList.length = 15 := by simp
  have hv : ValidCurve curve := (validCurve_iff curve).2 (by have := (gammaLoop_ok (by simp) h).2; rwa [hlen] at this)
  rw [gammaLevels_valid hv] at h
  exact ⟨hv, by cases h; rfl⟩

theorem gammaLevels_invalid {curve : Curve} (h : ¬ ValidCurve curve) : ∃ e, gammaLevels curve = .error e := by
  cases hg : gammaLevels curve with
  | ok l => exact absurd (valid_of_gammaLevels hg).1 h
  | error e => exact ⟨e, rfl⟩

end Sys2Proof.Machine
end

