-- ==== Sys2Proof/Laws/PerInstr.lean ====
section
/-! SUPPORT. The encoding statement made for each instruction: family RoundTrip. -/

namespace Sys2Proof.Laws

/-- The record of the instruction decodes to it. -/
def RoundTrip.Statement (i : Instr) : Prop := WellFormed i → decode (encode i) = .ok i

namespace RoundTrip

theorem init : Statement .init := fun _ => rfl
theorem setWindow (xs ys xe ye : Byte) : Statement (.setWindow xs ys xe ye) := fun _ => rfl
theorem programGamma (curve : Curve) : Statement (.programGamma curve) := by
  intro _
  simp only [encode, decode, decodePort, decodeHost, decodeGamma, words32_flatMap, Option.bind_some, vectorOf?_toList]
  rfl
theorem programPrecharge (level : Option Byte) : Statement (.programPrecharge level) := by
  cases level <;> exact fun _ => rfl
theorem blank (on : Bool) : Statement (.blank on) := by
  cases on <;> exact fun _ => rfl
theorem flush (offset len : Nat) : Statement (.flush offset len) := by
  intro h
  have hb : offset < 2 ^ 32 ∧ len < 2 ^ 32 := by simpa [WellFormed, Instr.wf] using h
  show checked (.ok (.flush (ofLe32 _ _ _ _) (ofLe32 _ _ _ _))) = _
  rw [ofLe32_le32 hb.1, ofLe32_le32 hb.2]
  exact checked_eq_ok.2 ⟨rfl, h⟩
theorem destroy : Statement .destroy := fun _ => rfl
theorem reserved0 : Statement .reserved0 := fun _ => rfl
theorem reserved8 : Statement .reserved8 := fun _ => rfl
theorem reserved9 : Statement .reserved9 := fun _ => rfl
theorem reservedA : Statement .reservedA := fun _ => rfl
theorem reservedB : Statement .reservedB := fun _ => rfl
theorem reservedC : Statement .reservedC := fun _ => rfl
theorem reservedD : Statement .reservedD := fun _ => rfl
theorem reservedE : Statement .reservedE := fun _ => rfl
theorem reservedF : Statement .reservedF := fun _ => rfl
theorem send (reg : Byte) (params : List Byte) : Statement (.send reg params) := fun _ => rfl
theorem regGamma (levels : Vector Byte 15) : Statement (.regGamma levels) := by
  intro h
  simp only [encode, decode, decodePort, decodeFrame]
  exact checked_eq_ok.2 ⟨by simp [vectorOf?_toList], h⟩
theorem regGammaEnd : Statement .regGammaEnd := fun _ => rfl
theorem regSetColumn : Statement .regSetColumn := fun _ => rfl
theorem regSetRow (ys ye : Byte) : Statement (.regSetRow ys ye) := fun _ => rfl
theorem windowTrailerFrame : Statement .windowTrailerFrame := fun _ => rfl
theorem regPrecharge (level : Byte) : Statement (.regPrecharge level) := fun h => checked_eq_ok.2 ⟨rfl, h⟩
theorem regDisplayOff : Statement .regDisplayOff := fun _ => rfl
theorem regDisplayOn : Statement .regDisplayOn := fun _ => rfl
theorem initStep01 : Statement .initStep01 := fun _ => rfl
theorem initStep02 : Statement .initStep02 := fun _ => rfl
theorem initStep03 : Statement .initStep03 := fun _ => rfl
theorem initStep04 : Statement .initStep04 := fun _ => rfl
theorem initStep05 : Statement .initStep05 := fun _ => rfl
theorem initStep06 : Statement .initStep06 := fun _ => rfl
theorem initStep07 : Statement .initStep07 := fun _ => rfl
theorem initStep08 : Statement .initStep08 := fun _ => rfl
theorem initStep09 : Statement .initStep09 := fun _ => rfl
theorem initStep10 : Statement .initStep10 := fun _ => rfl
theorem initStep11 : Statement .initStep11 := fun _ => rfl
theorem initStep12 : Statement .initStep12 := fun _ => rfl
theorem initStep13 : Statement .initStep13 := fun _ => rfl
theorem dataBurst (nOut : Nat) : Statement (.dataBurst nOut) := by
  intro h
  have hb : nOut < 2 ^ 32 := by simpa [WellFormed, Instr.wf] using h
  show checked (.ok (.dataBurst (ofLe32 _ _ _ _))) = _
  rw [ofLe32_le32 hb]
  exact checked_eq_ok.2 ⟨rfl, h⟩

end RoundTrip

end Sys2Proof.Laws
end

