-- ==== Sys2Proof/Tests/Slice0.lean ====
section
/-! SUPPORT. Tests: the vectors of 95_test_vectors.md on one step each, the decoder on words written out from the spec's
encodings, the refusals of WellFormed, and one witness for each set of hypotheses of the statements. Vector names (F1, G5,
W3 and so on) are those of 95_test_vectors.md, which is where every expected value comes from. -/

open Sys2Proof Sys2Proof.Machine

namespace Sys2Proof.Tests

/-! ## States -/

/-- Forty bursts answered `ok`. -/
def allOk : List BusAnswer := List.replicate 40 .ok

/-- State `On` after `INIT` with a given configuration and given answers of the bus, a framebuffer attached. -/
def onWith (cfg : Cfg) (script : List BusAnswer) : State :=
  { State.constructed cfg with life := .on, txValid := true, fbPresent := true, busScript := script }

/-- State `On` under configuration T1. -/
def onT1 : State := onWith Config.resetCfg allOk

/-- Right after reset under T1, with the bus answering `ok` and a framebuffer attached. -/
def freshT1 : State := { State.reset with fbPresent := true, busScript := allOk }

/-- Configuration T2. -/
def cfgT2 : Cfg :=
  { Config.resetCfg with srcFmt := .color16, hasPrecharge := false, windowTrailer := [⟨0x5C, []⟩] }

/-- T1 on a panel of four columns and two rows, for whole-frame tests. -/
def cfgSmall : Cfg := { Config.resetCfg with width := 4, height := 2 }

/-- T2 on that panel: 8 bytes a row. -/
def cfgSmall16 : Cfg := { cfgT2 with width := 4, height := 2 }

/-- `C[b]` of 95_test_vectors.md. -/
def C (b : Byte) : Burst := ⟨.cmd, [b], .ok⟩

/-- `D[bs]` of 95_test_vectors.md. -/
def D (bs : List Byte) : Burst := ⟨.data, bs, .ok⟩

/-- `!` of 95_test_vectors.md. -/
def failed (b : Burst) : Burst := { b with answer := .fail }

/-- What a test looks at: the trace, the select line and the result. -/
def seen (o : Host.Outcome State Fault Refusal) : Option (List Burst × Option Select × Option Response) :=
  (nextOf o).map fun t => (t.trace, t.dc, t.response)

/-- `life`, `tx_valid` and `win` after an outcome. -/
def kept (o : Host.Outcome State Fault Refusal) : Option (Life × Bool × Option Window) :=
  (nextOf o).map fun t => (t.life, t.txValid, t.win)

/-- An outcome that is a next state. -/
theorem runs {o : Host.Outcome State Fault Refusal} (h : (nextOf o).isSome = true) : ∃ t, o = .next t := by
  cases o with
  | next t => exact ⟨t, rfl⟩
  | fault f => cases h
  | refused r => cases h

/-- An outcome that is a next state of which a test holds. -/
theorem runsTo {o : Host.Outcome State Fault Refusal} {p : State → Bool} (h : (nextOf o).any p = true) :
    ∃ t, o = .next t ∧ p t = true := by
  cases o with
  | next t => exact ⟨t, rfl, h⟩
  | fault f => cases h
  | refused r => cases h

/-! ## WellFormed: ill-formed terms are refused -/

theorem test_wf_refuses_flush_offset : (Instr.flush (2 ^ 32) 0).wf = false := by decide
theorem test_wf_refuses_flush_len : (Instr.flush 0 (2 ^ 32)).wf = false := by decide
theorem test_wf_refuses_dataBurst : (Instr.dataBurst (2 ^ 32)).wf = false := by decide
theorem test_wf_refuses_regGamma : (Instr.regGamma (Vector.replicate 15 181)).wf = false := by decide
theorem test_wf_refuses_regPrecharge : (Instr.regPrecharge 0x20).wf = false := by decide
theorem test_wf_takes_bounds :
    (Instr.flush (2 ^ 32 - 1) (2 ^ 32 - 1)).wf = true ∧ (Instr.regGamma (Vector.replicate 15 180)).wf = true ∧
      (Instr.regPrecharge 0x1F).wf = true ∧ (Instr.dataBurst (2 ^ 32 - 1)).wf = true := by decide
theorem test_decode_refuses_illFormed :
    decode ⟨.frame, [0xBB, 0x20]⟩ = .error .illFormed ∧
      decode ⟨.frame, 0xB8 :: List.replicate 15 181⟩ = .error .illFormed := by decide
theorem test_decode_refuses_records :
    decode ⟨.host, []⟩ = .error .emptyRecord ∧ decode ⟨.host, [0x11]⟩ = .error .opFieldTooWide ∧
      decode ⟨.host, [0x1, 0]⟩ = .error .operandLength ∧ decode ⟨.host, [0x2, 0, 0, 0]⟩ = .error .operandLength ∧
      decode ⟨.host, [0x5, 2]⟩ = .error .flagBits ∧ decode ⟨.frame, [0x16]⟩ = .error .noSuchFrame ∧
      decode ⟨.initStep, [14]⟩ = .error .noSuchStep := by decide

/-! ## Decoding: records written out from 30_encoding.md R81, R82 and R87 and 44_lifecycle.md R193 -/

theorem test_decode_init : decode ⟨.host, [0x01]⟩ = .ok .init := by decide
theorem test_decode_setWindow : decode ⟨.host, [0x02, 0x05, 0x00, 0x09, 0x3F]⟩ = .ok (.setWindow 5 0 9 63) := by decide
theorem test_decode_programGamma :
    decode ⟨.host, 0x03 :: ([0x00, 0x01, 0x00, 0x00] ++ [0xFF, 0xFF, 0xFF, 0xFF] ++ List.replicate 52 0)⟩
      = .ok (.programGamma #v[256, 4294967295, 0, 0, 0, 0, 0, 0, 0, 0, 0, 0, 0, 0, 0]) := by decide
theorem test_decode_programPrecharge :
    decode ⟨.host, [0x04, 0x01, 0xFF]⟩ = .ok (.programPrecharge (some 0xFF)) ∧
      decode ⟨.host, [0x04, 0x00, 0x00]⟩ = .ok (.programPrecharge none) := by decide
theorem test_decode_blank : decode ⟨.host, [0x05, 0x00]⟩ = .ok (.blank false) := by decide
theorem test_decode_flush :
    decode ⟨.host, [0x06, 0x40, 0x01, 0x00, 0x00, 0x80, 0x00, 0x00, 0x00]⟩ = .ok (.flush 320 128) := by decide
theorem test_decode_destroy : decode ⟨.host, [0x07]⟩ = .ok .destroy := by decide
theorem test_decode_reserved :
    decode ⟨.host, [0x00]⟩ = .ok .reserved0 ∧ decode ⟨.host, [0x08]⟩ = .ok .reserved8 ∧
      decode ⟨.host, [0x09]⟩ = .ok .reserved9 ∧ decode ⟨.host, [0x0A]⟩ = .ok .reservedA ∧
      decode ⟨.host, [0x0B]⟩ = .ok .reservedB ∧ decode ⟨.host, [0x0C]⟩ = .ok .reservedC ∧
      decode ⟨.host, [0x0D]⟩ = .ok .reservedD ∧ decode ⟨.host, [0x0E]⟩ = .ok .reservedE ∧
      decode ⟨.host, [0x0F]⟩ = .ok .reservedF := by decide
theorem test_decode_send : decode ⟨.send, [0x75, 0x00, 0x3F]⟩ = .ok (.send 0x75 [0x00, 0x3F]) := by decide
theorem test_decode_regGamma :
    decode ⟨.frame, [0xB8, 0, 8, 16, 24, 32, 40, 48, 56, 64, 72, 80, 88, 96, 104, 112]⟩
      = .ok (.regGamma #v[0, 8, 16, 24, 32, 40, 48, 56, 64, 72, 80, 88, 96, 104, 112]) := by decide
theorem test_decode_frames :
    decode ⟨.frame, [0x00]⟩ = .ok .regGammaEnd ∧ decode ⟨.frame, [0x15]⟩ = .ok .regSetColumn ∧
      decode ⟨.frame, [0x75, 0x0A, 0x0B]⟩ = .ok (.regSetRow 10 11) ∧
      decode ⟨.frame, [0x5C]⟩ = .ok .windowTrailerFrame ∧ decode ⟨.frame, [0xBB, 0x1F]⟩ = .ok (.regPrecharge 0x1F) ∧
      decode ⟨.frame, [0xAE]⟩ = .ok .regDisplayOff ∧ decode ⟨.frame, [0xAF]⟩ = .ok .regDisplayOn := by decide
theorem test_decode_initSteps :
    decode ⟨.initStep, [1]⟩ = .ok .initStep01 ∧ decode ⟨.initStep, [2]⟩ = .ok .initStep02 ∧
      decode ⟨.initStep, [3]⟩ = .ok .initStep03 ∧ decode ⟨.initStep, [4]⟩ = .ok .initStep04 ∧
      decode ⟨.initStep, [5]⟩ = .ok .initStep05 ∧ decode ⟨.initStep, [6]⟩ = .ok .initStep06 ∧
      decode ⟨.initStep, [7]⟩ = .ok .initStep07 ∧ decode ⟨.initStep, [8]⟩ = .ok .initStep08 ∧
      decode ⟨.initStep, [9]⟩ = .ok .initStep09 ∧ decode ⟨.initStep, [10]⟩ = .ok .initStep10 ∧
      decode ⟨.initStep, [11]⟩ = .ok .initStep11 ∧ decode ⟨.initStep, [12]⟩ = .ok .initStep12 ∧
      decode ⟨.initStep, [13]⟩ = .ok .initStep13 := by decide
theorem test_decode_dataBurst : decode ⟨.data, [0x00, 0x20, 0x00, 0x00]⟩ = .ok (.dataBurst 8192) := by decide
/-- Words of the opcode table: the operation codes by value, the register numbers, and a generic frame. -/
theorem test_decode_table_words :
    decodeTableWord 8 0x1 = some .init ∧ decodeTableWord 8 0x6 = some (.flush 0 0) ∧
      decodeTableWord 8 0xF = some .reservedF ∧ decodeTableWord 8 0x75 = some (.regSetRow 0 0) ∧
      decodeTableWord 8 0xAE = some .regDisplayOff ∧ decodeTableWord 8 0xE1 = some (.send 0xE1 []) := by decide
/-- Vector Z6, and the rows run alone: what answers a next state as the first instruction after reset. -/
theorem test_first_after_reset :
    [0x1, 0x6, 0x7, 0x0, 0x8, 0xF, 0xB8, 0x15, 0x75, 0x5C, 0xBB, 0xAE, 0xAF, 0xE1].map
      (fun w => (nextOf (step (State.reset.withFetchWord 8 w))).isSome) = List.replicate 14 true := by decide
theorem test_step_runs_fetched_word :
    nextOf (step (freshT1.withFetchWord 8 0x7)) = nextOf (exec .destroy freshT1) := by decide

/-! ## The command protocol layer -/

theorem test_send_F1 :
    seen (exec (.send 0xB8 [0x01, 0x02]) onT1) = some ([C 0xB8, D [1, 2]], some .data, none) := by decide
theorem test_send_F4 :
    seen (exec (.send 0x75 [0x00, 0x3F]) (onWith Config.resetCfg [.ok, .fail]))
      = some ([C 0x75, failed (D [0, 0x3F])], some .data, some (.err .busTransferFailed)) := by decide
theorem test_displayOn_F2 : seen (exec .regDisplayOn onT1) = some ([C 0xAF], some .cmd, none) := by decide
theorem test_setRow_F3 :
    seen (exec (.regSetRow 0x00 0x3F) (onWith Config.resetCfg [.fail]))
      = some ([failed (C 0x75)], some .cmd, some (.err .busTransferFailed)) := by decide
theorem test_dataBurst_F5 :
    seen (exec (.dataBurst 2) { onT1 with tx := [(0, 0x55), (1, 0xAA)] })
      = some ([D [0x55, 0xAA]], some .data, none) := by decide
theorem test_dataBurst_F6_F7 :
    seen (exec (.dataBurst 0) onT1) = some ([], some .data, none) ∧
      seen (exec (.dataBurst 2) { onWith Config.resetCfg [.fail] with tx := [(0, 0x55), (1, 0xAA)] })
        = some ([failed (D [0x55, 0xAA])], some .data, some (.err .busTransferFailed)) := by decide
theorem test_regGamma_bytes :
    seen (exec (.regGamma #v[0, 8, 16, 24, 32, 40, 48, 56, 64, 72, 80, 88, 96, 104, 112]) onT1)
      = some ([C 0xB8, D [0x00, 0x08, 0x10, 0x18, 0x20, 0x28, 0x30, 0x38, 0x40, 0x48, 0x50, 0x58, 0x60, 0x68, 0x70]],
        some .data, none) := by decide
theorem test_regGammaEnd_bytes : seen (exec .regGammaEnd onT1) = some ([C 0x00], some .cmd, none) := by decide
theorem test_regSetColumn_bytes :
    seen (exec .regSetColumn onT1) = some ([C 0x15, D [0x1C, 0x5B]], some .data, none) := by decide
theorem test_windowTrailer_bytes :
    seen (exec .windowTrailerFrame (onWith cfgT2 allOk)) = some ([C 0x5C], some .cmd, none) ∧
      seen (exec .windowTrailerFrame onT1) = some ([], none, none) := by decide
theorem test_regPrecharge_bytes :
    seen (exec (.regPrecharge 0x1F) onT1) = some ([C 0xBB, D [0x1F]], some .data, none) := by decide
theorem test_regDisplayOff_bytes : seen (exec .regDisplayOff onT1) = some ([C 0xAE], some .cmd, none) := by decide
/-- 30_encoding.md R88, vector L16. -/
theorem test_reserved_codes :
    [Instr.reserved0, .reserved8, .reserved9, .reservedA, .reservedB, .reservedC, .reservedD, .reservedE,
      .reservedF].map (fun i => seen (exec i onT1))
        = List.replicate 9 (some ([], none, some (.err .invalidParameter))) := by decide

/-! ## The grayscale curve and the precharge level -/

theorem test_gamma_G4 :
    gammaLevels #v[12, 12, 12, 12, 12, 12, 12, 12, 12, 12, 12, 12, 12, 12, 12] = .ok
      [0x0C, 0x18, 0x24, 0x30, 0x3C, 0x48, 0x54, 0x60, 0x6C, 0x78, 0x84, 0x90, 0x9C, 0xA8, 0xB4] := by decide
theorem test_gamma_errors :
    gammaLevels #v[1, 1, 1, 1, 1, 0, 1, 1, 1, 1, 1, 1, 1, 1, 1] = .error (.invalidCurve 5 0 .zeroStep) ∧
      gammaLevels #v[13, 12, 12, 12, 12, 12, 12, 12, 12, 12, 12, 12, 12, 12, 12]
        = .error (.invalidCurve 14 12 .sumExceeds) ∧
      gammaLevels #v[181, 1, 1, 1, 1, 1, 1, 1, 1, 1, 1, 1, 1, 1, 1]
        = .error (.invalidCurve 0 181 .sumExceeds) ∧
      gammaLevels #v[180, 4294967295, 1, 1, 1, 1, 1, 1, 1, 1, 1, 1, 1, 1, 1]
        = .error (.invalidCurve 1 4294967295 .sumExceeds) ∧
      gammaLevels #v[100, 81, 0, 1, 1, 1, 1, 1, 1, 1, 1, 1, 1, 1, 1]
        = .error (.invalidCurve 1 81 .sumExceeds) ∧
      gammaLevels #v[5, 0, 200, 200, 200, 200, 200, 200, 200, 200, 200, 200, 200, 200, 200]
        = .error (.invalidCurve 1 0 .zeroStep) := by decide
theorem test_programGamma_G2 :
    seen (exec (.programGamma #v[0, 8, 8, 8, 8, 8, 8, 8, 8, 8, 8, 8, 8, 8, 8]) onT1)
      = some ([C 0xB8, D [0x00, 0x08, 0x10, 0x18, 0x20, 0x28, 0x30, 0x38, 0x40, 0x48, 0x50, 0x58, 0x60, 0x68, 0x70],
        C 0x00], some .cmd, some .ok) := by decide
theorem test_programGamma_G23 :
    seen (exec (.programGamma #v[0, 8, 8, 8, 8, 8, 8, 8, 8, 8, 8, 8, 8, 8, 8]) (onWith Config.resetCfg [.fail]))
      = some ([failed (C 0xB8)], some .cmd, some (.err .busTransferFailed)) := by decide
theorem test_precharge_H2_H3_H5 :
    seen (exec (.programPrecharge (some 0x1F)) onT1) = some ([C 0xBB, D [0x1F]], some .data, some .ok) ∧
      seen (exec (.programPrecharge (some 0x20)) onT1) = some ([], none, some (.err .invalidParameter)) ∧
      seen (exec (.programPrecharge none) onT1) = some ([], none, some (.err .invalidParameter)) := by decide
theorem test_precharge_H6 :
    seen (exec (.programPrecharge (some 0x05)) (onWith cfgT2 allOk))
      = some ([], none, some (.err .invalidParameter)) := by decide

/-- The status codes of 30_encoding.md R83, and the level of the select line after a CMD burst under T1. -/
theorem test_status_and_level :
    [Response.ok, .err .busTransferFailed, .err (.invalidCurve 5 0 .zeroStep), .err .bufferUnavailable,
      .err .invalidParameter].map Response.code = [0, 1, 2, 3, 4] ∧
      (nextOf (exec .regDisplayOn onT1)).map (·.dcLevel) = some (some false) ∧ onT1.dcLevel = none := by decide

/-! ## The window -/

theorem test_setWindow_W3 :
    seen (exec (.setWindow 200 63 3 0) onT1)
        = some ([C 0x15, D [0x1C, 0x5B], C 0x75, D [0x3F, 0x00]], some .data, some .ok) ∧
      kept (exec (.setWindow 200 63 3 0) onT1) = some (.on, true, some ⟨28, 91, 63, 0⟩) := by decide
theorem test_setWindow_W7 :
    seen (exec (.setWindow 0 5 127 6) (onWith Config.resetCfg [.ok, .ok, .ok, .fail]))
        = some ([C 0x15, D [0x1C, 0x5B], C 0x75, failed (D [5, 6])], some .data, some (.err .busTransferFailed)) ∧
      kept (exec (.setWindow 0 5 127 6) { onWith Config.resetCfg [.ok, .ok, .ok, .fail] with win := some ⟨28, 91, 0, 1⟩ })
        = some (.on, true, none) := by decide

/-! ## The pixel encoder -/

theorem test_nibbles_N1_N6 :
    dblLo 0xA5 = 0x55 ∧ dblHi 0xA5 = 0xAA ∧ dblLo 0x3C = 0xCC ∧ dblHi 0x3C = 0x33 := by decide
/-- Vector E9, and E2: the output starts at `TX[0]` wherever the span is. -/
theorem test_flush_E9_E2 :
    seen (exec (.flush 0 2) { onT1 with fb := [(0, 0x0F), (1, 0xF0)] })
        = some ([D [0xFF, 0x00, 0x00, 0xFF]], some .data, some .ok) ∧
      (nextOf (exec (.flush 4095 1) { onT1 with fb := [(4095, 0xA5)] })).map (·.tx)
        = some [(0, 0x55), (1, 0xAA)] := by decide
/-- Vectors K1 to K4, one row of four pixels at an offset of one row. -/
theorem test_flush_color16 :
    seen (exec (.flush 8 8) { onWith cfgSmall16 allOk with
        fb := [(8, 0x00), (9, 0xF8), (10, 0xE0), (11, 0x07), (12, 0xFF), (13, 0xFF), (14, 0x10), (15, 0x84)] })
        = some ([D [0xFF, 0x00, 0xFF, 0x88]], some .data, some .ok) ∧
      seen (exec (.flush 8 8) { onWith { cfgSmall16 with color16Nibble := .low } allOk with
        fb := [(9, 0xF8), (11, 0x07), (13, 0xFF), (15, 0x84)] })
        = some ([D [0x88, 0x77, 0xFF, 0x44]], some .data, some .ok) := by decide

/-! ## The lifecycle -/

/-- Vector L14: the fifth burst fails. -/
theorem test_init_L14 :
    seen (exec .init { freshT1 with busScript := [.ok, .ok, .ok, .ok, .fail] })
        = some ([C 0xE1, D [0x01], C 0xAE, C 0xB8,
          failed (D [0x01, 0x02, 0x03, 0x04, 0x05, 0x07, 0x09, 0x0C, 0x0F, 0x13, 0x17, 0x1C, 0x21, 0x27, 0x2D])],
          some .data, some (.err .busTransferFailed)) ∧
      kept (exec .init { freshT1 with busScript := [.ok, .ok, .ok, .ok, .fail] })
        = some (.uninitialized, false, none) := by decide
/-- Program P1, step 1: the 25 bursts. -/
theorem test_init_P1 :
    seen (exec .init freshT1)
      = some ([C 0xE1, D [0x01], C 0xAE, C 0xB8,
        D [0x01, 0x02, 0x03, 0x04, 0x05, 0x07, 0x09, 0x0C, 0x0F, 0x13, 0x17, 0x1C, 0x21, 0x27, 0x2D], C 0x00, C 0xE4,
        D [0x04], C 0xE5, D [0x05], C 0xE6, D [0x06], C 0xE7, D [0x00], C 0xE8, D [0x08], C 0xE9, D [0x09], C 0xEA,
        D [0x0A], C 0xEB, D [0x0B], C 0xEC, D [0x0C], C 0xAF], some .cmd, some .ok) := by decide
/-- Each step's frames as they stand in P1 and L17. -/
theorem test_init_steps :
    [Instr.initStep01, .initStep02, .initStep04, .initStep05, .initStep06, .initStep07, .initStep08, .initStep09,
        .initStep10, .initStep11, .initStep12, .initStep13].map (fun i => (nextOf (exec i freshT1)).map (·.trace))
      = [some [C 0xE1, D [1]], some [C 0xAE], some [C 0xE4, D [4]], some [C 0xE5, D [5]], some [C 0xE6, D [6]],
        some [C 0xE7, D [0]], some [C 0xE8, D [8]], some [C 0xE9, D [9]], some [C 0xEA, D [10]], some [C 0xEB, D [11]],
        some [C 0xEC, D [12]], some [C 0xAF]] := by decide
theorem test_init_step03 :
    seen (exec .initStep03 freshT1) = some ([C 0xB8,
      D [0x01, 0x02, 0x03, 0x04, 0x05, 0x07, 0x09, 0x0C, 0x0F, 0x13, 0x17, 0x1C, 0x21, 0x27, 0x2D], C 0x00],
      some .cmd, none) := by decide
theorem test_init_step07_L17 :
    seen (exec .initStep07 { freshT1 with cfg := { Config.resetCfg with rotate := .deg180 } })
      = some ([C 0xE7, D [0xB4]], some .data, none) := by decide
theorem test_blank_L3_L8 :
    kept (exec (.blank true) onT1) = some (.blanked, true, none) ∧
      kept (exec (.blank true) (onWith Config.resetCfg [.fail])) = some (.on, true, none) ∧
      seen (exec (.blank false) onT1) = some ([C 0xAF], some .cmd, some .ok) := by decide
theorem test_destroy_L9 :
    kept (exec .destroy onT1) = some (.destroyed, false, none) ∧
      seen (exec .destroy onT1) = some ([], none, some .ok) := by decide

/-! ## Reset (vectors Z1 to Z4) -/

theorem test_reset :
    State.reset.life = .uninitialized ∧ State.reset.txValid = false ∧ State.reset.busy = false ∧
      State.reset.trace = [] ∧ State.reset.fbLen = 4096 ∧ txbufSize State.reset.cfg = 8192 ∧
      stride State.reset.cfg = 64 := by decide

/-! ## Witnesses: for each statement with hypotheses, a state and operands that meet them, clause by clause -/

theorem witness_DecodeEncodeAgree : WellFormed (.flush (2 ^ 32 - 1) 0) ∧ WellFormed (.regPrecharge 0x1F) := by decide

theorem witness_DecodedRecordIsEncoding :
    decode ⟨.host, [0x04, 0x01, 0x00]⟩ = .ok (.programPrecharge (some 0)) ∧
      Instr.programPrecharge (some 0) ≠ .programPrecharge none := by decide

/-- A state whose next input is a request for DESTROY. -/
def fetching : State := { onT1 with inbox := [.request ⟨.host, [0x07]⟩, .event .detachFb] }

theorem witness_StepRunsDecodedRequest :
    fetching.inbox = .request ⟨.host, [0x07]⟩ :: [.event .detachFb] ∧ decode ⟨.host, [0x07]⟩ = .ok .destroy ∧
      decode ⟨.host, [0x07, 0x00]⟩ = .error .operandLength := by decide

theorem witness_NothingActsWithoutRequest :
    onT1.inbox = [] ∧ ∃ t, step { onT1 with inbox := [.event (.hostWrite 4095 7)] } = .next t :=
  ⟨by decide, runs (by decide)⟩

/-- The invariant holds of a state that is not the reset state: `On`, with a burst sent. -/
def sentOne : State := { onT1 with dc := some .cmd, trace := [C 0xAF], asked := 1, win := some ⟨28, 91, 0, 63⟩ }

theorem sentOne_inv : sentOne.Inv where
  txForm := by decide
  fbForm := by decide
  raceForm := by decide
  txInside := by decide
  fbInside := by decide
  raceInside := by decide
  allocated := by decide
  windowColumns := by
    intro w h
    cases h
    exact ⟨rfl, rfl⟩
  windowKnown := by decide
  framing := by decide
  answered := by decide
  waiting := fun h => absurd rfl h
  initializing := fun h => by cases h
  driven := by decide

theorem witness_StepKeepsInvariant :
    ({ sentOne with inbox := [.event .detachFb] } : State).Inv ∧
      ∃ t, step { sentOne with inbox := [.event .detachFb] } = .next t :=
  ⟨{ sentOne_inv with }, runs (by decide)⟩

/-- The state `Destroyed`. -/
def destroyed : State := { onT1 with life := .destroyed, txValid := false }

theorem witness_DestroyedIsFinal :
    (∃ t, exec .destroy onT1 = .next t) ∧ destroyed.life = .destroyed ∧ (∃ t, exec (.flush 0 1) destroyed = .next t) ∧
      ∃ t, exec .reserved8 destroyed = .next t :=
  ⟨runs (by decide), by decide, runs (by decide), runs (by decide)⟩

theorem witness_LifecycleTransitions :
    (∃ t, exec (.setWindow 0 0 127 63) onT1 = .next t) ∧ (∃ t, exec .init freshT1 = .next t) ∧
      (∃ t, exec (.blank true) onT1 = .next t) ∧ ∃ t, exec .destroy freshT1 = .next t :=
  ⟨runs (by decide), runs (by decide), runs (by decide), runs (by decide)⟩

/-- Vectors W6 and W8: the select line after the trailer, and after a column frame whose parameters failed. -/
theorem witness_TraceGrowsByPlannedBursts :
    (∃ t, exec (.setWindow 0 10 127 10) (onWith cfgT2 allOk) = .next t ∧ decide (t.dc = some .cmd) = true) ∧
      ∃ t, exec (.setWindow 0 5 127 6) (onWith Config.resetCfg [.ok, .fail]) = .next t ∧
        decide (t.dc = some .data ∧ t.trace = [C 0x15, failed (D [0x1C, 0x5B])]) = true :=
  ⟨runsTo (by decide), runsTo (by decide)⟩

theorem witness_FailedBurstEndsOperation :
    ∃ t, exec (.blank true) (onWith Config.resetCfg [.fail]) = .next t ∧
      decide (t.response = some (.err .busTransferFailed)) = true := runsTo (by decide)

/-- A bus that stalls at the second burst of `SET_WINDOW` (60_exceptions.md R233). -/
def stalledWindow : Host.Outcome State Fault Refusal :=
  exec (.setWindow 0 0 127 63) (onWith Config.resetCfg [.ok, .never])

theorem witness_StalledBusLeavesOperationInProgress :
    ∃ t, stalledWindow = .next t ∧ decide (t.op ≠ none ∧ t.response = none ∧
      t.trace = [C 0x15, { D [0x1C, 0x5B] with answer := .never }]) = true := runsTo (by decide)

theorem witness_BusyRefusesEveryRequest : ∃ t, stalledWindow = .next t ∧ t.busy = true := runsTo (by decide)

theorem witness_OnlyKnownRegistersSent :
    isHostOp (.setWindow 0 0 127 63) = true ∧
      ∃ t, exec (.setWindow 0 0 127 63) onT1 = .next t ∧ decide (t.trace = onT1.trace ++
        [C 0x15, D [0x1C, 0x5B], C 0x75, D [0x00, 0x3F]]) = true := ⟨by decide, runsTo (by decide)⟩

/-- `On` with one known byte of `FB`. -/
def litPixel : State := { onT1 with fb := [(0, 0xA5)] }

/-- The same with a byte of the span, and one beyond it, written during the encode step. -/
def raced : State := { litPixel with fbRace := [(0, 0x5A), (9, 0x77)] }

theorem witness_FramebufferNeverWritten :
    (∃ t, exec (.flush 0 1) litPixel = .next t) ∧ litPixel.FbStable ∧ (∃ t, exec .init freshT1 = .next t) ∧
      (raced.buffersPresent && raced.spanOk 0 1) = true ∧ raced.fbRace.wf ∧
      (∃ t, exec (.flush 0 1) raced = .next t ∧ decide (t.fb = [(0, 0x5A), (9, 0x77)] ∧ t.fbRace = []) = true) ∧
      (raced.buffersPresent && raced.spanOk 4096 1) = false ∧
      ∃ t, exec (.flush 4096 1) raced = .next t ∧ decide (t.fbRace = [(0, 0x5A), (9, 0x77)]) = true :=
  ⟨runs (by decide), by decide, runs (by decide), by decide, by decide, runsTo (by decide), by decide,
    runsTo (by decide)⟩

theorem witness_RotationReadByInitOnly :
    isHostOp (.blank true) = true ∧ Instr.blank true ≠ .init ∧ ∃ t, exec (.blank true) onT1 = .next t :=
  ⟨by decide, by decide, runs (by decide)⟩

theorem witness_HostOperationsReturn :
    isHostOp (.blank true) = true ∧ ∃ t, exec (.blank true) onT1 = .next t ∧ onT1.BusAnswers t := by
  obtain ⟨t, h, ha⟩ := runsTo (o := exec (.blank true) onT1) (p := fun t => decide (t.asked = 1)) (by decide)
  refine ⟨by decide, t, h, fun n _ hn => ?_⟩
  have h1 : n < 1 := by rw [← of_decide_eq_true ha]; exact hn
  have h0 : n = 0 := Nat.lt_one_iff.1 h1
  subst h0
  decide

theorem witness_DeliveredBytesArePrefixes :
    (C 0xAF).answer = .ok ∧ ∃ t, exec (.blank false) onT1 = .next t := ⟨rfl, runs (by decide)⟩

theorem witness_AcceptanceTableRefusals :
    onT1.op = none ∧ onT1.life ≠ .uninitialized ∧ freshT1.op = none ∧ freshT1.life ≠ .on ∧ freshT1.life ≠ .blanked ∧
      freshT1.cfg.hasPrecharge = true ∧ destroyed.op = none ∧ destroyed.life = .destroyed ∧
      isHostOp (.send 0xAF []) = false ∧ isHostOp .initStep13 = false ∧ isHostOp (.dataBurst 0) = false := by decide

/-- `On` and right after reset, with the bus not acquired. -/
def noBus (s : State) : State := { s with busReady := false }

theorem witness_BusNotAcquiredRefused :
    (noBus onT1).op = none ∧ (noBus onT1).busReady = false ∧ (noBus onT1).life ≠ .destroyed ∧
      (encode (.send 0xAF [])).port = .send ∧ framesOf (noBus onT1).cfg (.send 0xAF []) ≠ [] ∧
      (encode .regSetColumn).port = .frame ∧ framesOf (noBus onT1).cfg .regSetColumn ≠ [] ∧
      (encode .initStep03).port = .initStep ∧ framesOf (noBus onT1).cfg .initStep03 ≠ [] ∧
      (noBus freshT1).life = .uninitialized ∧ (noBus freshT1).op = none ∧ (noBus onT1).life = .on ∧
      (noBus onT1).cfg.hasPrecharge = true ∧ (0x1F : Byte).toNat ≤ 0x1F ∧ (noBus onT1).txValid = true ∧
      (noBus onT1).fbPresent = true ∧ (noBus onT1).spanOk 0 4096 = true ∧ 8192 ≤ txbufSize (noBus onT1).cfg := by decide

theorem witness_BusNotAcquiredRefused_curve : ValidCurve #v[12, 12, 12, 12, 12, 12, 12, 12, 12, 12, 12, 12, 12, 12, 12] := by
  unfold ValidCurve
  decide

theorem witness_BusNotAcquiredRefused_next : ∃ t, exec (.flush 4096 1) (noBus onT1) = .next t := runs (by decide)

theorem witness_ReservedCodesAnswerInvalidParameter :
    Instr.reservedF ∈ [Instr.reserved0, .reserved8, .reserved9, .reservedA, .reservedB, .reservedC, .reservedD,
      .reservedE, .reservedF] ∧ destroyed.op = none := by decide

theorem ready_onT1 (script : List BusAnswer) (cfg : Cfg) : (onWith cfg script).Ready := ⟨rfl, rfl⟩

/-- The four cases of `SEND`: the answers each asks for are there. -/
theorem witness_SendByBusAnswers :
    onT1.Ready ∧ onT1.life ≠ .destroyed ∧ onT1.answerTo onT1.asked = .ok ∧ onT1.answerTo (onT1.asked + 1) = .ok ∧
      (onWith Config.resetCfg [.fail]).answerTo 0 = .fail ∧ (onWith Config.resetCfg [.ok, .fail]).answerTo 0 = .ok ∧
      (onWith Config.resetCfg [.ok, .fail]).answerTo 1 = .fail ∧ ([0x00, 0x3F] : List Byte) ≠ [] :=
  ⟨ready_onT1 _ _, by decide, by decide, by decide, by decide, by decide, by decide, by decide⟩

theorem witness_NamedFramesComplete : onT1.Ready ∧ onT1.life ≠ .destroyed ∧ onT1.NextOk 1 ∧ onT1.NextOk 2 :=
  ⟨ready_onT1 _ _, by decide, by decide, by decide⟩

theorem witness_ConfiguredFramesComplete :
    onT1.Ready ∧ onT1.life ≠ .destroyed ∧ onT1.NextOk (planOf [⟨0xE7, [0x00]⟩]).length ∧
      (Instr.initStep07, [(⟨0xE7, [0x00]⟩ : Frame)]) =
        (.initStep07, Frames.toList (if onT1.cfg.rotate = .deg0 then onT1.cfg.initSeq.remap0
          else onT1.cfg.initSeq.remap180)) ∧
      onT1.NextOk (planOf onT1.cfg.windowTrailer).length :=
  ⟨ready_onT1 _ _, by decide, by decide, by decide, by decide⟩

/-- T1 with another curve, and with `INIT_SEQ[3]` in place of it. -/
def cfgBadCurve : Cfg := { Config.resetCfg with curve := #v[181, 1, 1, 1, 1, 1, 1, 1, 1, 1, 1, 1, 1, 1, 1] }
def cfgFrames3 : Cfg := { Config.resetCfg with grayscaleStep := .frames ⟨⟨0xB9, []⟩, []⟩ }

theorem resetCurve_valid : ValidCurve onT1.cfg.curve := by
  unfold ValidCurve
  decide

theorem badCurve_invalid : ¬ ValidCurve cfgBadCurve.curve := fun h => absurd (h.2 0 (by decide)) (by decide)

theorem witness_GrayscaleStepByConfiguration :
    onT1.cfg.grayscaleStep = .programCurve ∧ ValidCurve onT1.cfg.curve ∧ onT1.NextOk 3 ∧
      cfgBadCurve.grayscaleStep = .programCurve ∧ ¬ ValidCurve cfgBadCurve.curve ∧
      (onWith cfgBadCurve allOk).Ready ∧ (onWith cfgFrames3 allOk).Ready ∧
      cfgFrames3.grayscaleStep = .frames ⟨⟨0xB9, []⟩, []⟩ ∧
      (onWith cfgFrames3 allOk).NextOk (planOf (Frames.toList ⟨⟨0xB9, []⟩, []⟩)).length :=
  ⟨by decide, resetCurve_valid, by decide, by decide, badCurve_invalid, ready_onT1 _ _, ready_onT1 _ _, by decide,
    by decide⟩

theorem witness_FrameRowsTouchOnlyTheBus :
    isHostOp (.send 0xB8 [1]) = false ∧ isHostOp (.dataBurst 2) = false ∧
      (∃ t, exec (.send 0xB8 [1]) onT1 = .next t) ∧ (∃ t, exec .initStep07 onT1 = .next t) ∧
      ∃ t, exec (.dataBurst 2) { onT1 with tx := [(0, 0x55), (1, 0xAA)] } = .next t :=
  ⟨by decide, by decide, runs (by decide), runs (by decide), runs (by decide)⟩

theorem witness_DataBurstSendsScratchBytes :
    onT1.Ready ∧ onT1.life ≠ .destroyed ∧ 8192 ≤ txbufSize onT1.cfg ∧ onT1.txValid = true ∧
      onT1.answerTo onT1.asked = .ok ∧ freshT1.Ready ∧ freshT1.life ≠ .destroyed ∧ freshT1.txValid = false ∧
      txbufSize onT1.cfg < 8193 ∧ (onWith Config.resetCfg [.fail]).answerTo 0 = .fail :=
  ⟨ready_onT1 _ _, by decide, by decide, by decide, by decide, ⟨rfl, rfl⟩, by decide, by decide, by decide, by decide⟩

theorem witness_AcceptedCurvesAreTheValidOnes :
    gammaLevels #v[166, 1, 1, 1, 1, 1, 1, 1, 1, 1, 1, 1, 1, 1, 1] = .ok
      [0xA6, 0xA7, 0xA8, 0xA9, 0xAA, 0xAB, 0xAC, 0xAD, 0xAE, 0xAF, 0xB0, 0xB1, 0xB2, 0xB3, 0xB4] := by decide

theorem witness_FirstFailingIndexReported :
    gammaLevels #v[1, 1, 1, 1, 1, 1, 1, 1, 1, 1, 1, 1, 1, 1, 0] = .error (.invalidCurve 14 0 .zeroStep) ∧
      gammaLevels #v[180, 1, 1, 1, 1, 1, 1, 1, 1, 1, 1, 1, 1, 1, 1] = .error (.invalidCurve 1 1 .sumExceeds) := by decide

theorem witness_ProgramGammaCompletes :
    onT1.Ready ∧ onT1.life = .on ∧ ValidCurve onT1.cfg.curve ∧ onT1.NextOk 3 :=
  ⟨ready_onT1 _ _, by decide, resetCurve_valid, by decide⟩

theorem witness_InvalidCurveIsAllOrNothing :
    onT1.op = none ∧ onT1.life = .on ∧
      (#v[1, 1, 1, 1, 1, 1, 1, 1, 1, 1, 1, 1, 1, 1, 0] : Curve)[14].toNat = 0 ∧
      180 < prefixSum #v[13, 12, 12, 12, 12, 12, 12, 12, 12, 12, 12, 12, 12, 12, 12] 14 := by decide

theorem witness_InvalidCurveIsAllOrNothing_answer :
    ∃ t, exec (.programGamma #v[1, 1, 1, 1, 1, 0, 1, 1, 1, 1, 1, 1, 1, 1, 1]) onT1 = .next t ∧
      decide (t.response = some (.err (.invalidCurve 5 0 .zeroStep))) = true := runsTo (by decide)

theorem witness_NibbleDoublingReplicates : 0 < 1 ∧ (encodeGray4 litPixel 0 1) = [0x55, 0xAA] := by decide

theorem witness_ProgramPrechargeCompletes :
    onT1.Ready ∧ onT1.life = .on ∧ onT1.cfg.hasPrecharge = true ∧ (0x1F : Byte).toNat ≤ 0x1F ∧ onT1.NextOk 2 :=
  ⟨ready_onT1 _ _, by decide, by decide, by decide, by decide⟩

theorem witness_PrechargeInvalidParameter :
    onT1.op = none ∧ cfgT2.hasPrecharge = false ∧ onT1.life = .on ∧ 0x1F < (0x20 : Byte).toNat := by decide

theorem witness_GammaAndPrechargeFrame :
    (∃ t, exec (.programGamma Config.resetCfg.curve) onT1 = .next t) ∧
      ∃ t, exec (.programPrecharge (some 0x1F)) onT1 = .next t := ⟨runs (by decide), runs (by decide)⟩

theorem witness_SetWindowCompletes :
    (onWith cfgT2 allOk).Ready ∧ (onWith cfgT2 allOk).life = .on ∧
      (onWith cfgT2 allOk).NextOk (4 + (planOf cfgT2.windowTrailer).length) :=
  ⟨ready_onT1 _ _, by decide, by decide⟩

theorem witness_SetWindowFrame :
    (∃ t, exec (.setWindow 0 0 0 0) onT1 = .next t) ∧
      ∃ t, exec (.setWindow 0 0 0 0) (onWith Config.resetCfg [.fail]) = .next t := ⟨runs (by decide), runs (by decide)⟩

theorem witness_SourceRecoverableFromOutput :
    litPixel.cfg.srcFmt = .gray4 ∧ litPixel.FbStable ∧
      ∃ t, exec (.flush 0 1) litPixel = .next t ∧ decide (t.response = some .ok) = true :=
  ⟨by decide, by decide, runsTo (by decide)⟩

/-- The last byte of `FB`, the whole of it, and the empty span at its end. -/
theorem witness_FlushGray4Completes :
    onT1.Ready ∧ onT1.txValid = true ∧ onT1.fbPresent = true ∧ onT1.cfg.srcFmt = .gray4 ∧ onT1.FbStable ∧
      4095 + 1 ≤ onT1.fbLen ∧ 0 + 4096 ≤ onT1.fbLen ∧ 4096 + 0 ≤ onT1.fbLen ∧ 2 * 4096 ≤ txbufSize onT1.cfg ∧
      onT1.answerTo onT1.asked = .ok :=
  ⟨ready_onT1 _ _, by decide, by decide, by decide, by decide, by decide, by decide, by decide, by decide, by decide⟩

/-- The whole of `FB`, and the empty span at its end. -/
theorem witness_FlushColor16Completes :
    (onWith cfgT2 allOk).Ready ∧ (onWith cfgT2 allOk).txValid = true ∧ (onWith cfgT2 allOk).fbPresent = true ∧
      cfgT2.srcFmt = .color16 ∧ (onWith cfgT2 allOk).FbStable ∧ 0 + 16384 ≤ (onWith cfgT2 allOk).fbLen ∧
      16384 + 0 ≤ (onWith cfgT2 allOk).fbLen ∧ 16384 % 2 = 0 ∧ 16384 % stride cfgT2 = 0 ∧
      cfgT2.width * (16384 / stride cfgT2) ≤ txbufSize cfgT2 ∧ (onWith cfgT2 allOk).answerTo 0 = .ok :=
  ⟨ready_onT1 _ _, by decide, by decide, by decide, by decide, by decide, by decide, by decide, by decide, by decide,
    by decide⟩

theorem witness_FlushWithoutBufferUnavailable :
    freshT1.op = none ∧ freshT1.txValid = false ∧ ({ onT1 with fbPresent := false } : State).fbPresent = false ∧
      sentOne.Inv ∧ sentOne.op = none := ⟨by decide, by decide, by decide, sentOne_inv, by decide⟩

/-- Vectors E4, E6, E14, E15 and E18, and outputs that do not fit `TX`. -/
theorem witness_FlushBadSpanInvalidParameter :
    onT1.op = none ∧ onT1.txValid = true ∧ onT1.fbPresent = true ∧ onT1.fbLen < 4095 + 2 ∧ onT1.fbLen < 4097 + 0 ∧
      (cfgSmall.srcFmt = .gray4 ∧ txbufSize cfgSmall < 2 * 5) ∧
      (cfgT2.srcFmt = .color16 ∧ 2561 % 2 ≠ 0 ∧ 255 % stride cfgT2 ≠ 0 ∧
        txbufSize cfgT2 < cfgT2.width * (16640 / stride cfgT2)) := by decide

theorem witness_FlushEncodesBeforeSending :
    (∃ t, exec (.flush 0 1) { litPixel with busScript := [.fail] } = .next t) ∧ ∃ t, exec (.flush 4097 0) litPixel = .next t :=
  ⟨runs (by decide), runs (by decide)⟩

theorem witness_OutputIsOneDoubledBytePerPixel : (0xAA : Byte) ∈ encodeSpan litPixel 0 1 := by decide

/-- Two framebuffers that differ outside the span only. -/
theorem witness_FlushReadsOnlyItsSpan :
    litPixel.FbStable ∧ (∃ t, exec (.flush 0 1) litPixel = .next t) ∧
      ∀ a, 0 ≤ a → a < 0 + 1 → (litPixel.cfg.srcFmt = .color16 → a % 2 = 1) →
        ({ litPixel with fb := [(0, 0xA5), (1, 0x11)] } : State).fbByte a = litPixel.fbByte a := by
  refine ⟨by decide, runs (by decide), fun a _ ha _ => ?_⟩
  have h0 : a = 0 := Nat.lt_one_iff.1 (by simpa using ha)
  subst h0
  rfl

theorem witness_RacedBytesAreOldOrNew :
    litPixel.fbRace.read? 0 = none ∧ ({ litPixel with fbRace := [(0, 0x5A)] } : State).fbRace.read? 0 = some 0x5A := by
  decide

/-- A panel of four columns and two rows, all of it known: the last pixel. -/
def smallFrame : State := { onWith cfgSmall allOk with fb := [(0, 0x0F), (1, 0xF0), (2, 0x12), (3, 0x34)] }

theorem witness_FullFramePixelPlacement :
    cfgSmall.srcFmt = .gray4 ∧ cfgSmall.rowPad = 0 ∧ cfgSmall.width % 2 = 0 ∧ smallFrame.FbStable ∧
      (∃ t, exec (.flush 0 (cfgSmall.height * stride cfgSmall)) smallFrame = .next t ∧
        decide (t.response = some .ok ∧ t.tx.read? 7 = some 0x33) = true) ∧ 3 < cfgSmall.width ∧ 1 < cfgSmall.height :=
  ⟨by decide, by decide, by decide, by decide, runsTo (by decide), by decide, by decide⟩

theorem witness_InitCompletes :
    freshT1.Ready ∧ freshT1.life = .uninitialized ∧ ∃ gray, grayscaleFrames freshT1.cfg = .ok gray ∧
      freshT1.NextOk (planOf (initFrames freshT1.cfg gray)).length :=
  ⟨⟨rfl, rfl⟩, by decide, _, rfl, by decide⟩

theorem witness_FailedInitReturnsToUninitialized :
    (∃ t, exec .init { freshT1 with busScript := [.fail] } = .next t ∧
      decide (t.response = some (.err .busTransferFailed)) = true) ∧
    ({ freshT1 with cfg := cfgBadCurve } : State).Ready ∧
    ({ freshT1 with cfg := cfgBadCurve } : State).life = .uninitialized ∧
    grayscaleFrames cfgBadCurve = .error (.invalidCurve 0 181 .sumExceeds) ∧
    ({ freshT1 with cfg := cfgBadCurve } : State).NextOk (planOf (initHead cfgBadCurve)).length :=
  ⟨runsTo (by decide), ⟨rfl, rfl⟩, by decide, by decide, by decide⟩

theorem witness_BlankByBusAnswer :
    onT1.Ready ∧ onT1.life = .on ∧ onT1.answerTo onT1.asked = .ok ∧
      (onWith Config.resetCfg [.fail]).Ready ∧ (onWith Config.resetCfg [.fail]).answerTo 0 = .fail :=
  ⟨ready_onT1 _ _, by decide, by decide, ready_onT1 _ _, by decide⟩

theorem witness_DestroyReleasesTheBuffer :
    onT1.op = none ∧ onT1.life = .on ∧ freshT1.op = none ∧ freshT1.life = .uninitialized := by decide

theorem witness_LifecycleOperationsFrame :
    (∃ t, exec .init freshT1 = .next t) ∧ (∃ t, exec (.blank false) onT1 = .next t) ∧ ∃ t, exec .destroy onT1 = .next t :=
  ⟨runs (by decide), runs (by decide), runs (by decide)⟩

/-- Both rows of the small panel: `ye` is its last row. -/
theorem witness_RedrawSendsWindowThenRows :
    smallFrame.Ready ∧ smallFrame.life = .on ∧ smallFrame.txValid = true ∧ smallFrame.fbPresent = true ∧
      (smallFrame.cfg.srcFmt = .gray4 → smallFrame.cfg.rowPad = 0 ∧ smallFrame.cfg.width % 2 = 0) ∧
      0 < smallFrame.cfg.width ∧ smallFrame.FbStable ∧ (0 : Byte).toNat ≤ (1 : Byte).toNat ∧
      (1 : Byte).toNat < smallFrame.cfg.height ∧ ((1 : Byte).toNat + 1) * stride smallFrame.cfg ≤ smallFrame.fbLen ∧
      smallFrame.NextOk (5 + (planOf smallFrame.cfg.windowTrailer).length) :=
  ⟨⟨rfl, rfl⟩, by decide, by decide, by decide, by decide, by decide, by decide, by decide, by decide, by decide,
    by decide⟩

theorem witness_BlockWriteThenRead :
    1 < ([0x55, 0xAA] : List Byte).length ∧ (2 < 3 ∨ 3 + 2 ≤ 2) ∧ Memory.wf [(0, 0x11), (7, 0x22)] := by decide

/-- The last byte of `FB` and the first beyond it; a region whose first byte is brought once and the byte beyond it not. -/
theorem witness_HostAndPlatformEvents :
    4095 < onT1.fbLen ∧ onT1.fbLen ≤ 4096 ∧
      (∃ t, step { onT1 with inbox := [.event (.hostWrite 4095 7)] } = .next t) ∧
      (0, 0x55) ∈ ([(0, 0x55), (2, 0xAA)] : List Host.Cell) ∧ (0 : Nat) < 2 ∧ (2 : Nat) ≤ 2 ∧
      (∀ b, (1, b) ∉ ([(0, 0x55), (2, 0xAA)] : List Host.Cell)) ∧
      ∃ t, step { onT1 with inbox := [.event (.attachFb 2 [(0, 0x55), (2, 0xAA)])] } = .next t ∧
        decide (t.fb = [(0, 0x55)]) = true :=
  ⟨by decide, by decide, runs (by decide), by decide, by decide, by decide, by simp, runsTo (by decide)⟩

end Sys2Proof.Tests
end

section
/-! PROOFS of the family 40_command_protocol.md: which register bytes a request of the host sends, and what a data burst
follows. -/

namespace Sys2Proof.Machine

/-! ## The registers of a plan -/

/-- The CMD bursts of a list of frames are the register bytes of its frames (30_encoding.md R84). -/
theorem cmd_mem_planOf {fs : List Frame} {bytes : List Byte} (h : (Select.cmd, bytes) ∈ planOf fs) :
    ∃ f ∈ fs, bytes = [f.reg] := by
  obtain ⟨f, hf, hp⟩ := List.mem_flatMap.1 h
  refine ⟨f, hf, ?_⟩
  obtain ⟨reg, _ | ⟨x, xs⟩⟩ := f <;> simpa [framePlan] using hp

/-- The frames of the configuration that the known registers are read off. -/
theorem reg_mem_knownRegisters {cfg : Cfg} {f : Frame}
    (h : f ∈ cfg.windowTrailer ∨ f ∈ initHead cfg ∨ f ∈ initTail cfg) : f.reg ∈ knownRegisters cfg := by
  have hf : f ∈ cfg.windowTrailer ++ initHead cfg ++ initTail cfg := by simpa [or_assoc] using h
  exact List.mem_append_right _ (List.mem_map_of_mem (List.mem_append_left _ hf))

theorem gammaFrames_known {cfg : Cfg} {levels : List Byte} {f : Frame} (h : f ∈ gammaFrames cfg levels) :
    f.reg ∈ knownRegisters cfg := by
  simp only [gammaFrames, List.mem_cons, List.not_mem_nil, or_false] at h
  rcases h with rfl | rfl <;> simp [knownRegisters, frameGamma, frameGammaEnd]

/-- Step 3 of `INIT` sends the curve's frames, or `INIT_SEQ[3]`, which the configuration then holds. -/
theorem grayscaleFrames_known {cfg : Cfg} {gray : List Frame} {f : Frame} (h : grayscaleFrames cfg = .ok gray)
    (hf : f ∈ gray) : f.reg ∈ knownRegisters cfg := by
  unfold grayscaleFrames at h
  split at h
  · split at h
    · cases h
      exact gammaFrames_known hf
    · cases h
  · rename_i seq3 hstep
    cases h
    refine List.mem_append_right _ (List.mem_map_of_mem (List.mem_append_right _ ?_))
    rw [hstep]
    exact hf

theorem windowFrames_known {cfg : Cfg} {ys ye : Byte} {f : Frame} (h : f ∈ windowFrames cfg ys ye) :
    f.reg ∈ knownRegisters cfg := by
  rcases List.mem_append.1 h with h | h
  · simp only [List.mem_cons, List.not_mem_nil, or_false] at h
    rcases h with rfl | rfl <;> simp [knownRegisters, frameSetColumn, frameSetRow]
  · exact reg_mem_knownRegisters (.inl h)

/-- The frames of a request of the host have known registers (30_encoding.md R90). -/
theorem framesOf_known {cfg : Cfg} {i : Instr} {f : Frame} (hi : isHostOp i = true) (h : f ∈ framesOf cfg i) :
    f.reg ∈ knownRegisters cfg := by
  cases i with
  | init =>
    rw [framesOf] at h
    split at h
    · rename_i gray hgray
      rcases List.mem_append.1 h with h | h
      · rcases List.mem_append.1 h with h | h
        · exact reg_mem_knownRegisters (.inr (.inl h))
        · exact grayscaleFrames_known hgray h
      · exact reg_mem_knownRegisters (.inr (.inr h))
    · exact reg_mem_knownRegisters (.inr (.inl h))
  | setWindow xs ys xe ye => exact windowFrames_known h
  | programGamma curve =>
    rw [framesOf] at h
    split at h
    · exact gammaFrames_known h
    · cases h
  | programPrecharge level =>
    cases level with
    | none => cases h
    | some l =>
      rw [framesOf] at h
      split at h
      · rw [List.mem_singleton.1 h]
        simp [knownRegisters, framePrecharge]
      · cases h
  | blank on =>
    rw [List.mem_singleton.1 h]
    cases on <;> simp [knownRegisters, blankFrame, frameDisplayOff, frameDisplayOn]
  | flush | destroy | reserved0 | reserved8 | reserved9 | reservedA | reservedB | reservedC | reservedD | reservedE
  | reservedF => cases h
  | _ => cases hi

/-! ## What a data burst follows -/

/-- In the plan of a list of frames a DATA burst stands right behind a CMD burst: the parameters of a frame follow its
register byte (40_command_protocol.md R116). -/
theorem planOf_data_after_cmd {fs : List Frame} {before after : List Planned} {p : Planned}
    (h : planOf fs = before ++ p :: after) (hp : p.1 = .data) :
    ∃ earlier c, before = earlier ++ [c] ∧ c.1 = .cmd := by
  induction fs generalizing before with
  | nil => simp at h
  | cons f fs ih =>
    have later : ∀ front {mid}, planOf fs = mid ++ p :: after →
        ∃ earlier c, front ++ mid = earlier ++ [c] ∧ c.1 = Select.cmd := by
      intro front mid hmid
      obtain ⟨earlier, c, rfl, hc⟩ := ih hmid
      exact ⟨front ++ earlier, c, by simp, hc⟩
    obtain ⟨reg, _ | ⟨x, xs⟩⟩ := f
    · replace h : (Select.cmd, [reg]) :: planOf fs = before ++ p :: after := h
      rcases before with _ | ⟨c, mid⟩
      · obtain ⟨rfl, -⟩ := List.cons.inj h
        cases hp
      · exact later [c] (List.cons.inj h).2
    · replace h : (Select.cmd, [reg]) :: (Select.data, x :: xs) :: planOf fs = before ++ p :: after := h
      rcases before with _ | ⟨c, _ | ⟨d, mid⟩⟩
      · obtain ⟨rfl, -⟩ := List.cons.inj h
        cases hp
      · obtain ⟨rfl, -⟩ := List.cons.inj h
        exact ⟨[], _, rfl, rfl⟩
      · obtain ⟨-, htail⟩ := List.cons.inj h
        exact later [c, d] (List.cons.inj htail).2

/-- The issued bursts are a beginning of the plan, and a burst is issued only behind bursts answered `ok`
(40_command_protocol.md R112, decision D7). -/
theorem issued_split {ans : Nat → BusAnswer} {n : Nat} {plan : List Planned} {before after : List Burst} {b : Burst}
    (h : issued ans n plan = before ++ b :: after) :
    (∀ x ∈ before, x.answer = .ok) ∧
      ∃ rest, plan = before.map (fun x => (x.dc, x.bytes)) ++ (b.dc, b.bytes) :: rest := by
  induction plan generalizing n before with
  | nil => simp at h
  | cons p plan ih =>
    by_cases ha : ans n = .ok
    · rw [issued_cons_ok ha] at h
      rcases before with _ | ⟨x, before⟩
      · obtain ⟨rfl, -⟩ := List.cons.inj h
        exact ⟨nofun, plan, rfl⟩
      · obtain ⟨rfl, htail⟩ := List.cons.inj h
        obtain ⟨hok, rest, rfl⟩ := ih htail
        exact ⟨List.forall_mem_cons.2 ⟨rfl, hok⟩, rest, rfl⟩
    · rw [issued_cons_stop ha] at h
      rcases before with _ | ⟨x, before⟩
      · obtain ⟨rfl, -⟩ := List.cons.inj h
        exact ⟨nofun, plan, rfl⟩
      · simp at h

/-- Of the frames issued, a DATA burst directly follows a CMD burst answered `ok`. -/
theorem issued_planOf_data_after_ok {ans : Nat → BusAnswer} {n : Nat} {fs : List Frame} {before after : List Burst}
    {b : Burst} (h : issued ans n (planOf fs) = before ++ b :: after) (hb : b.dc = .data) :
    ∃ earlier c, before = earlier ++ [c] ∧ c.dc = .cmd ∧ c.answer = .ok := by
  obtain ⟨hok, rest, hplan⟩ := issued_split h
  obtain ⟨earlier', c', hbefore, hc⟩ := planOf_data_after_cmd hplan hb
  obtain ⟨earlier, last, rfl, -, hlast⟩ := List.map_eq_append_iff.1 hbefore
  obtain ⟨c, rfl, rfl⟩ := List.map_eq_singleton_iff.1 hlast
  exact ⟨earlier, c, rfl, hc, hok c (by simp)⟩

/-- Settles O14: the trace grows by the bursts of a plan. The plan of a FLUSH holds no CMD burst; that of any other request
is the plan of its frames, whose registers are known and whose parameters follow their register byte. -/
theorem onlyKnownRegistersSent : Obligations.OnlyKnownRegistersSent := by
  intro i s t hi h
  obtain ⟨-, plan, heff, hplan⟩ := exec_effect h
  refine ⟨_, heff.trace, fun b hb hcmd => ?_, fun hflush before b after hsplit hdata => ?_⟩
  · have hmem : (Select.cmd, b.bytes) ∈ plan := hcmd ▸ mem_issued hb
    rcases hplan with (rfl | ⟨bytes, -, rfl⟩) | ⟨-, -, rfl⟩
    · cases hmem
    · simp at hmem
    · obtain ⟨f, hf, hreg⟩ := cmd_mem_planOf hmem
      exact ⟨f.reg, framesOf_known hi hf, hreg⟩
  · have hburst : ∀ n, i ≠ .dataBurst n := by
      rintro n rfl
      cases hi
    have hframes := (frames_effect hflush hburst h).2.trace
    rw [List.append_cancel_left (heff.trace.symm.trans hframes)] at hsplit
    exact issued_planOf_data_after_ok hsplit hdata

end Sys2Proof.Machine
end

section
/-! PROOFS of the family 41_gamma.md: what PROGRAM_GAMMA does with an invalid curve, and when it answers `InvalidCurve`. -/

namespace Sys2Proof.Machine

/-! ## An invalid curve -/

/-- The two ways a curve fails (41_gamma.md R133): a zero step after the first, or a prefix sum above 180. -/
theorem not_validCurve {curve : Curve}
    (h : (∃ i, ∃ h : i < 15, 0 < i ∧ curve[i].toNat = 0) ∨ ∃ i, i < 15 ∧ 180 < prefixSum curve i) :
    ¬ ValidCurve curve := by
  rintro ⟨hsteps, hsums⟩
  rcases h with ⟨i, hi, hpos, hzero⟩ | ⟨i, hi, hsum⟩
  · have := hsteps i hi hpos
    omega
  · have := hsums i hi
    omega

/-- An operation that comes to no SEND needs no bus (40_command_protocol.md R111). -/
theorem needBusIf_false (s : State) (o : Host.Outcome State Fault Refusal) : needBusIf false s o = o := rfl

theorem curveOk_of_error {curve : Curve} {e : Err} (h : gammaLevels curve = .error e) : curveOk curve = false := by
  simp [curveOk, h]

theorem gammaProgram_of_error {curve : Curve} {e : Err} (h : gammaLevels curve = .error e) (s : State) :
    gammaProgram curve s = raise e s := by
  simp [gammaProgram, h]

theorem working_of_on_or_blanked {l : Life} (h : l = .on ∨ l = .blanked) : l.working = true := by
  rcases h with rfl | rfl <;> rfl

/-- The error of the curve comes before the bus test, so that the bus need not be there (60_exceptions.md R221). -/
theorem execProgramGamma_of_error {s : State} {curve : Curve} {e : Err} (hop : s.op = none)
    (hlife : s.life = .on ∨ s.life = .blanked) (he : gammaLevels curve = .error e) :
    execProgramGamma curve s = .next { s with response := some (.err e) } := by
  have hworking : (s.latch (.programGamma curve)).life.working = true := working_of_on_or_blanked hlife
  rw [execProgramGamma, start_idle hop, needLife_of hworking, curveOk_of_error he, needBusIf_false,
    gammaProgram_of_error he]
  exact deliver_next.2 (raised_at_start hop _ e)

/-! ## An answer of `InvalidCurve` -/

/-- A plan that is delivered as an error failed on the bus (60_exceptions.md R216). -/
theorem emit_work_delivered_error {u : State} {plan : List Planned} {f : Working → Working} {e : Err}
    (hu : u.response = none) (h : ((u.emit plan).work f).delivered.response = some (.err e)) :
    e = .busTransferFailed := by
  have hstatus : ((u.emit plan).work f).status = statusAfter (issued u.answerTo u.asked plan) := rfl
  have hresponse : ((u.emit plan).work f).st.response = none := hu
  generalize (u.emit plan).work f = r at hstatus hresponse h
  obtain ⟨v, _ | e' | _⟩ := r
  · cases h
  · cases h
    exact statusAfter_raised hstatus.symm
  · cases hresponse.symm.trans h

/-- An error other than `BusTransferFailed` was raised by the curve, before anything was written. -/
theorem execProgramGamma_own_error {s t : State} {curve : Curve} {e : Err}
    (h : execProgramGamma curve s = .next t) (ht : t.response = some (.err e)) (he : e ≠ .busTransferFailed) :
    t = { s with response := t.response } := by
  have hop : s.op = none := (start_next h).1
  have hend := gamma_next h
  rcases gammaProgram_eq curve (s.latch (.programGamma curve)) with ⟨e', -, hraise⟩ | ⟨levels, f, -, hemit⟩
  · rw [hend, hraise, raised_at_start hop]
  · rw [hend, hemit] at ht
    exact absurd (emit_work_delivered_error rfl ht) he

/-- Settles O33: an invalid curve is no accepted one, so `GammaLevels` raises its error before the bus test; and an
`InvalidCurve` is never the error of a plan of bursts. -/
theorem invalidCurveIsAllOrNothing : Obligations.InvalidCurveIsAllOrNothing := by
  refine ⟨fun s curve hop hlife hfails => ?_, fun s t curve i v c h ht => execProgramGamma_own_error h ht nofun⟩
  obtain ⟨e, he⟩ := gammaLevels_invalid (not_validCurve hfails)
  obtain ⟨i, v, c, rfl⟩ := gammaLevels_error he
  exact ⟨i, v, c, he, execProgramGamma_of_error hop hlife he⟩

end Sys2Proof.Machine
end

section
/-! PROOFS of the family 43_pixel_encoder.md: what one source byte becomes, and FLUSH without one of its buffers. -/

namespace Sys2Proof.Machine

/-! ## Nibble doubling -/

/-- Settles O39: the defining expressions are the doubled nibbles, and each source byte appends its own two output bytes, by
induction on the span. -/
theorem nibbleDoublingReplicates : Obligations.NibbleDoublingReplicates :=
  ⟨fun b => ⟨rfl, rfl, dblLo_eq b, dblHi_eq b⟩, fun s a n => ⟨encodeGray4_length s a n, encodeGray4_getElem? s a n⟩⟩

/-! ## A missing buffer -/

theorem buffersPresent_eq_false {s : State} : s.buffersPresent = false ↔ s.txValid = false ∨ s.fbPresent = false :=
  Bool.and_eq_false_iff

/-- The presence test comes before the span and the bus, so that neither matters (43_pixel_encoder.md R173). -/
theorem execFlush_of_buffer_missing {s : State} (hop : s.op = none) (hmissing : s.buffersPresent = false)
    (offset len : Nat) :
    execFlush offset len s = .next { s with response := some (.err .bufferUnavailable) } := by
  have hlatched : ¬ (s.latch (.flush offset len)).buffersPresent = true := Bool.eq_false_iff.1 hmissing
  rw [execFlush, start_idle hop, if_neg hlatched]
  exact deliver_next.2 (raised_at_start hop _ _)

theorem working_eq_false {l : Life} :
    l.working = false ↔ l = .uninitialized ∨ l = .initializing ∨ l = .destroyed := by
  cases l <;> decide

/-- No state at rest is `Initializing` (10_state.md R24). -/
theorem State.Inv.life_ne_initializing {s : State} (hinv : s.Inv) (hop : s.op = none) : s.life ≠ .initializing := by
  intro hlife
  obtain ⟨w, hbusy⟩ := hinv.initializing hlife
  cases hop.symm.trans hbusy

/-- The scratch buffer of a machine at rest is missing exactly outside `On` and `Blanked` (43_pixel_encoder.md R173). -/
theorem State.Inv.txValid_eq_false_iff {s : State} (hinv : s.Inv) (hop : s.op = none) :
    s.txValid = false ↔ s.life = .uninitialized ∨ s.life = .destroyed := by
  rw [hinv.allocated, working_eq_false]
  simp [hinv.life_ne_initializing hop]

/-- Settles O43: the presence test is the first thing FLUSH does, and its error leaves the latched state as it was; the
invariant ties the allocation to the lifecycle, with `Initializing` excluded at rest. -/
theorem flushWithoutBufferUnavailable : Obligations.FlushWithoutBufferUnavailable :=
  ⟨fun _ offset len hop hmissing => execFlush_of_buffer_missing hop (buffersPresent_eq_false.2 hmissing) offset len,
    fun _ hinv hop => hinv.txValid_eq_false_iff hop⟩

end Sys2Proof.Machine
end

section
/-! PROOFS of the family 70_reset_and_hazards.md: no instruction leads out of `Destroyed`, and none changes the
configuration. -/

namespace Sys2Proof.Machine

/-! ## The configuration and the lifecycle state -/

theorem window_kept {xs ys xe ye : Byte} {s t : State} (h : execSetWindow xs ys xe ye s = .next t) :
    t.cfg = s.cfg ∧ t.life = s.life := by
  obtain ⟨hinputs, -, hlife⟩ := windowBody_kept (ys := ys) (ye := ye) (s := s.latch (.setWindow xs ys xe ye))
  rw [window_next h, Run.delivered_cfg, Run.delivered_life]
  exact ⟨hinputs.cfg, hlife⟩

/-- Only INIT, BLANK and DESTROY are transitions of the lifecycle (44_lifecycle.md R191). -/
theorem exec_cfg_life_kept {i : Instr} {s t : State} (h : exec i s = .next t) (hinit : i ≠ .init)
    (hblank : ∀ on, i ≠ .blank on) (hdestroy : i ≠ .destroy) : t.cfg = s.cfg ∧ t.life = s.life := by
  by_cases hflush : ∃ offset len, i = .flush offset len
  · obtain ⟨offset, len, rfl⟩ := hflush
    obtain ⟨hcfg, hlife, -⟩ := flush_kept h
    exact ⟨hcfg, hlife⟩
  by_cases hwindow : ∃ xs ys xe ye, i = .setWindow xs ys xe ye
  · obtain ⟨xs, ys, xe, ye, rfl⟩ := hwindow
    exact window_kept h
  push Not at hflush hwindow
  have hbus := exec_busOnly hinit hblank hdestroy hflush hwindow h
  exact ⟨hbus.inputs.cfg, hbus.life⟩

theorem destroy_life {s t : State} (h : execDestroy s = .next t) : t.life = .destroyed := by
  obtain ⟨-, -, rfl⟩ := destroy_next h
  rfl

theorem exec_cfg_kept {i : Instr} {s t : State} (h : exec i s = .next t) : t.cfg = s.cfg := by
  cases i with
  | init => exact (init_inputs h).cfg
  | blank on => exact (blank_kept h).1.cfg
  | destroy =>
    obtain ⟨-, -, rfl⟩ := destroy_next h
    rfl
  | _ => exact (exec_cfg_life_kept h nofun nofun nofun).1

/-- The three transitions of the lifecycle are not accepted in `Destroyed` (44_lifecycle.md R199), and every other
instruction keeps the lifecycle state. -/
theorem exec_destroyed_stays {i : Instr} {s t : State} (hs : s.life = .destroyed) (h : exec i s = .next t) :
    t.life = .destroyed := by
  cases i with
  | init => cases hs.symm.trans (init_next h).1
  | blank on =>
    obtain ⟨hworking, -⟩ := blank_next h
    rw [hs] at hworking
    cases hworking
  | destroy => exact destroy_life h
  | _ => exact (exec_cfg_life_kept h nofun nofun nofun).2.trans hs

/-- Settles O9: construction sets the lifecycle state, and the rest is what DESTROY does and what every instruction keeps. -/
theorem destroyedIsFinal : Obligations.DestroyedIsFinal :=
  ⟨fun _ => rfl, fun _ _ h => destroy_life h, fun _ _ _ hs h => exec_destroyed_stays hs h, fun _ _ _ h => exec_cfg_kept h⟩

end Sys2Proof.Machine
end

section
/-! PROOFS of the family other, encoding: an instruction and its record determine each other (30_encoding.md). -/

namespace Sys2Proof

open Laws

/-- Settles O2: the round trip of each constructor. -/
theorem decodeEncodeAgree : Obligations.DecodeEncodeAgree
  | .init => RoundTrip.init
  | .setWindow xs ys xe ye => RoundTrip.setWindow xs ys xe ye
  | .programGamma curve => RoundTrip.programGamma curve
  | .programPrecharge level => RoundTrip.programPrecharge level
  | .blank on => RoundTrip.blank on
  | .flush offset len => RoundTrip.flush offset len
  | .destroy => RoundTrip.destroy
  | .reserved0 => RoundTrip.reserved0
  | .reserved8 => RoundTrip.reserved8
  | .reserved9 => RoundTrip.reserved9
  | .reservedA => RoundTrip.reservedA
  | .reservedB => RoundTrip.reservedB
  | .reservedC => RoundTrip.reservedC
  | .reservedD => RoundTrip.reservedD
  | .reservedE => RoundTrip.reservedE
  | .reservedF => RoundTrip.reservedF
  | .send reg params => RoundTrip.send reg params
  | .regGamma levels => RoundTrip.regGamma levels
  | .regGammaEnd => RoundTrip.regGammaEnd
  | .regSetColumn => RoundTrip.regSetColumn
  | .regSetRow ys ye => RoundTrip.regSetRow ys ye
  | .windowTrailerFrame => RoundTrip.windowTrailerFrame
  | .regPrecharge level => RoundTrip.regPrecharge level
  | .regDisplayOff => RoundTrip.regDisplayOff
  | .regDisplayOn => RoundTrip.regDisplayOn
  | .initStep01 => RoundTrip.initStep01
  | .initStep02 => RoundTrip.initStep02
  | .initStep03 => RoundTrip.initStep03
  | .initStep04 => RoundTrip.initStep04
  | .initStep05 => RoundTrip.initStep05
  | .initStep06 => RoundTrip.initStep06
  | .initStep07 => RoundTrip.initStep07
  | .initStep08 => RoundTrip.initStep08
  | .initStep09 => RoundTrip.initStep09
  | .initStep10 => RoundTrip.initStep10
  | .initStep11 => RoundTrip.initStep11
  | .initStep12 => RoundTrip.initStep12
  | .initStep13 => RoundTrip.initStep13
  | .dataBurst nOut => RoundTrip.dataBurst nOut

/-! ## What decodes is an encoding -/

/-- The first byte of a record, from the number the decoder branches on. -/
theorem byte_eq_ofNat {b : Byte} {n : Nat} (h : b.toNat = n) : b = BitVec.ofNat 8 n := by
  rw [← h, BitVec.ofNat_toNat, BitVec.setWidth_eq]

/-- A record without operands is its first byte alone. -/
theorem decodeNullary_record {port : Port} {b : Byte} {n : Nat} {args : List Byte} {i j : Instr} (hb : b.toNat = n)
    (hi : encode i = ⟨port, [BitVec.ofNat 8 n]⟩) (h : decodeNullary i args = .ok j) :
    (⟨port, b :: args⟩ : Request) = encode j := by
  obtain ⟨rfl, rfl⟩ := decodeNullary_eq_ok h
  rw [hi, byte_eq_ofNat hb]

theorem decodeGamma_record {args : List Byte} {i : Instr} (h : decodeGamma args = .ok i) :
    (⟨.host, 0x3 :: args⟩ : Request) = encode i := by
  unfold decodeGamma at h
  split at h
  · rename_i curve hcurve
    cases h
    obtain ⟨words, hwords, hvector⟩ := Option.bind_eq_some_iff.1 hcurve
    rw [words32_eq_some hwords, vectorOf?_eq_some hvector]
    rfl
  · cases h

theorem decodePrecharge_record {args : List Byte} {i : Instr} (h : decodePrecharge args = .ok i)
    (hlevel : i ≠ .programPrecharge none) : (⟨.host, 0x4 :: args⟩ : Request) = encode i := by
  unfold decodePrecharge at h
  split at h
  · split at h
    · rename_i hflag
      cases h
      rw [decodeFlag_eq_ok hflag]
      rfl
    · cases h
      exact absurd rfl hlevel
    · cases h
  · cases h

theorem decodeBlank_record {args : List Byte} {i : Instr} (h : decodeBlank args = .ok i) :
    (⟨.host, 0x5 :: args⟩ : Request) = encode i := by
  unfold decodeBlank at h
  split at h
  · split at h
    · rename_i hflag
      cases h
      rw [decodeFlag_eq_ok hflag]
      rfl
    · cases h
  · cases h

/-- A HOSTOP record that decodes is the encoding of its instruction, but for an absent precharge level. -/
theorem decodeHost_record {op : Byte} {args : List Byte} {i : Instr} (h : decodeHost op args = .ok i)
    (hlevel : i ≠ .programPrecharge none) : (⟨.host, op :: args⟩ : Request) = encode i := by
  unfold decodeHost at h
  split at h
  case h_3 hop =>
    split at h
    · cases h
      rw [byte_eq_ofNat hop]
      rfl
    · cases h
  case h_4 hop => exact byte_eq_ofNat hop ▸ decodeGamma_record h
  case h_5 hop => exact byte_eq_ofNat hop ▸ decodePrecharge_record h hlevel
  case h_6 hop => exact byte_eq_ofNat hop ▸ decodeBlank_record h
  case h_7 hop =>
    split at h
    · cases h
      rw [byte_eq_ofNat hop, encode, le32_ofLe32, le32_ofLe32]
      rfl
    · cases h
  case h_17 => cases h
  all_goals
    rename_i hop
    exact decodeNullary_record hop rfl h

/-- A record of a named frame that decodes is the encoding of its instruction. -/
theorem decodeFrame_record {reg : Byte} {args : List Byte} {i : Instr} (h : decodeFrame reg args = .ok i) :
    (⟨.frame, reg :: args⟩ : Request) = encode i := by
  unfold decodeFrame at h
  split at h
  case h_1 hreg =>
    split at h
    · rename_i levels hlevels
      cases h
      rw [byte_eq_ofNat hreg, vectorOf?_eq_some hlevels]
      rfl
    · cases h
  case h_4 hreg =>
    split at h
    · cases h
      rw [byte_eq_ofNat hreg]
      rfl
    · cases h
  case h_6 hreg =>
    split at h
    · cases h
      rw [byte_eq_ofNat hreg]
      rfl
    · cases h
  case h_9 => cases h
  all_goals
    rename_i hreg
    exact decodeNullary_record hreg rfl h

/-- A record of a power-up step that decodes is the encoding of its instruction. -/
theorem decodeInitStep_record {n : Byte} {args : List Byte} {i : Instr} (h : decodeInitStep n args = .ok i) :
    (⟨.initStep, n :: args⟩ : Request) = encode i := by
  unfold decodeInitStep at h
  split at h
  case h_14 => cases h
  all_goals
    rename_i hn
    exact decodeNullary_record hn rfl h

theorem decodeData_record {b : Byte} {args : List Byte} {i : Instr} (h : decodeData b args = .ok i) :
    (⟨.data, b :: args⟩ : Request) = encode i := by
  unfold decodeData at h
  split at h
  · cases h
    rw [encode, le32_ofLe32]
  · cases h

/-- Settles O3: by the port of the record. -/
theorem decodedRecordIsEncoding : Obligations.DecodedRecordIsEncoding := by
  rintro ⟨port, bytes⟩ i h hlevel
  rcases bytes with _ | ⟨b, args⟩
  · cases h
  · obtain ⟨hport, -⟩ := checked_eq_ok.1 h
    cases port with
    | host => exact decodeHost_record hport hlevel
    | frame => exact decodeFrame_record hport
    | send =>
      cases hport
      rfl
    | initStep => exact decodeInitStep_record hport
    | data => exact decodeData_record hport

/-- Settles O1: the decoder run on each record. -/
theorem sampleRecordsDecode : Obligations.SampleRecordsDecode := by
  exact ⟨rfl, rfl, rfl, rfl, rfl, rfl, rfl, rfl, rfl, rfl⟩

end Sys2Proof
end

section
/-! SUPPORT. How the operations that write `life` or `win` end, and what every instruction leaves alone. -/

namespace Sys2Proof.Machine

/-! ## How INIT, SET_WINDOW and BLANK end -/

/-- The three ends of `INIT` (44_lifecycle.md R196, R200, 60_exceptions.md R233). -/
inductive InitEnded (s t : State) : Prop where
  | succeeded (response : t.response = some .ok) (op : t.op = none) (life : t.life = .on) (txValid : t.txValid = true)
      (tx : t.tx = [])
  | failed (e : Err) (response : t.response = some (.err e)) (op : t.op = none) (life : t.life = .uninitialized)
      (txValid : t.txValid = false) (tx : t.tx = s.tx)
  | waits (w : Working) (response : t.response = none) (op : t.op = some ⟨.init, w⟩) (life : t.life = .initializing)
      (txValid : t.txValid = s.txValid) (tx : t.tx = s.tx)

theorem likeLatch_beginInit (s : State) : LikeLatch s .init (s.latch .init).beginInit :=
  ⟨rfl, rfl, rfl, rfl, ⟨_, rfl⟩, rfl⟩

theorem init_ended {s t : State} (h : execInit s = .next t) : InitEnded s t ∧ t.win = none := by
  obtain ⟨-, rfl⟩ := init_next h
  have hbody := initSequence_body (likeLatch_beginInit s) rfl
  have hkept := busOnly_initSequence (s.latch .init).beginInit
  generalize runSteps initSteps (s.latch .init).beginInit = r at hbody hkept
  obtain ⟨u, _ | e | _⟩ := r
  · exact ⟨.succeeded rfl rfl rfl rfl rfl, hkept.win⟩
  · exact ⟨.failed e rfl rfl rfl rfl hkept.scratch.tx, hkept.win⟩
  · obtain ⟨w, hop⟩ := hbody.op
    exact ⟨.waits w hbody.response hop hkept.life hkept.scratch.txValid hkept.scratch.tx, hkept.win⟩

/-- The window is known exactly where `SET_WINDOW` answered `Ok` (42_window.md R150, decision D19). -/
theorem window_ended {xs ys xe ye : Byte} {s t : State} (h : execSetWindow xs ys xe ye s = .next t) :
    (t.response = some .ok ∧ t.win = some ⟨28, 91, ys, ye⟩) ∨ (t.response ≠ some .ok ∧ t.win = none) := by
  rw [window_next h, windowBody, sendFrames_eq_emit]
  generalize planOf (windowFrames (s.latch (.setWindow xs ys xe ye)).cfg ys ye) = plan
  have hwin := emit_win (s.latch (.setWindow xs ys xe ye)).forgetWin plan
  have hresponse := emit_response (s.latch (.setWindow xs ys xe ye)).forgetWin plan
  generalize (s.latch (.setWindow xs ys xe ye)).forgetWin.emit plan = r at hwin hresponse ⊢
  obtain ⟨u, _ | e | _⟩ := r
  · exact .inl ⟨rfl, rfl⟩
  · exact .inr ⟨nofun, hwin⟩
  · have hnone : u.response = none := hresponse
    exact .inr ⟨fun hok => (by cases hnone.symm.trans hok), hwin⟩

/-- `life` takes its new value exactly where `BLANK` answered `Ok` (44_lifecycle.md R197, decision D35). -/
theorem blank_ended {on : Bool} {s t : State} (h : execBlank on s = .next t) :
    (t.response = some .ok ∧ t.life = if on then .blanked else .on) ∨ (t.response ≠ some .ok ∧ t.life = s.life) := by
  rw [(blank_next h).2, blankBody, sendFrames_eq_emit]
  generalize planOf [blankFrame (s.latch (.blank on)).cfg on] = plan
  have hlife := emit_life (s.latch (.blank on)) plan
  have hresponse := emit_response (s.latch (.blank on)) plan
  generalize (s.latch (.blank on)).emit plan = r at hlife hresponse ⊢
  obtain ⟨u, _ | e | _⟩ := r
  · exact .inl ⟨rfl, rfl⟩
  · exact .inr ⟨nofun, hlife⟩
  · have hnone : u.response = none := hresponse
    exact .inr ⟨fun hok => (by cases hnone.symm.trans hok), hlife⟩

theorem takesDestroy_iff {l : Life} : l.takesDestroy = true ↔ l = .uninitialized ∨ l = .on ∨ l = .blanked := by
  cases l <;> decide

theorem working_iff {l : Life} : l.working = true ↔ l = .on ∨ l = .blanked := by
  cases l <;> decide

theorem window_accepted {xs ys xe ye : Byte} {s t : State} (h : execSetWindow xs ys xe ye s = .next t) :
    s.life.working = true :=
  (needLife_next (start_next h).2).1

/-! ## What an instruction leaves alone -/

/-- All but the five operations that write `life`, `win`, `TX` or its allocation touch the bus only; the premises in the
order in which a case of `exec` can check them. -/
theorem busOnly_of_exec {i : Instr} {s t : State} (h : exec i s = .next t) (hinit : i ≠ .init)
    (hblank : ∀ on, i ≠ .blank on) (hdestroy : i ≠ .destroy) (hflush : ∀ a n, i ≠ .flush a n)
    (hwindow : ∀ xs ys xe ye, i ≠ .setWindow xs ys xe ye) : BusOnly s t :=
  exec_busOnly hinit hblank hdestroy hflush hwindow h

theorem window_inputs_scratch {xs ys xe ye : Byte} {s t : State} (h : execSetWindow xs ys xe ye s = .next t) :
    InputsKept s t ∧ ScratchKept s t := by
  have hlatch := busOnly_latch s (.setWindow xs ys xe ye)
  obtain ⟨hinputs, hscratch, -⟩ := windowBody_kept (ys := ys) (ye := ye) (s := s.latch (.setWindow xs ys xe ye))
  have hend := busOnly_delivered (windowBody ys ye (s.latch (.setWindow xs ys xe ye)))
  rw [window_next h]
  exact ⟨(hlatch.inputs.trans hinputs).trans hend.inputs, (hlatch.scratch.trans hscratch).trans hend.scratch⟩

theorem destroy_inputs {s t : State} (h : execDestroy s = .next t) : InputsKept s t := by
  obtain ⟨-, -, rfl⟩ := destroy_next h
  constructor <;> rfl

/-- Only in a FLUSH do the host's writes of the encode step land in `FB`; no other instruction changes an input. -/
theorem exec_inputs {i : Instr} {s t : State} (hflush : ∀ a n, i ≠ .flush a n) (h : exec i s = .next t) :
    InputsKept s t := by
  cases i with
  | init => exact init_inputs h
  | blank on => exact (blank_kept h).1
  | destroy => exact destroy_inputs h
  | setWindow xs ys xe ye => exact (window_inputs_scratch h).1
  | flush a n => exact absurd rfl (hflush a n)
  | _ => exact (busOnly_of_exec h nofun nofun nofun nofun nofun).inputs

/-- Only a FLUSH writes bytes of `TX`; a successful `INIT` and `DESTROY` leave its contents unspecified. -/
theorem exec_tx {i : Instr} {s t : State} (hflush : ∀ a n, i ≠ .flush a n) (h : exec i s = .next t) :
    t.tx = s.tx ∨ t.tx = [] := by
  cases i with
  | init =>
    rcases (init_ended h).1 with ⟨_, _, _, _, htx⟩ | ⟨_, _, _, _, _, htx⟩ | ⟨_, _, _, _, _, htx⟩
    · exact .inr htx
    · exact .inl htx
    · exact .inl htx
  | blank on => exact .inl (blank_kept h).2.1.tx
  | destroy =>
    obtain ⟨-, -, rfl⟩ := destroy_next h
    exact .inr rfl
  | setWindow xs ys xe ye => exact .inl (window_inputs_scratch h).2.tx
  | flush a n => exact absurd rfl (hflush a n)
  | _ => exact .inl (busOnly_of_exec h nofun nofun nofun nofun nofun).scratch.tx

end Sys2Proof.Machine
end

section
/-! PROOFS of the family other, the invariant: construction sets it up and every step keeps it. The invariant falls into
what it says of the memories, of the lifecycle and of the bus; each part has its own lemma over the instructions. -/

namespace Sys2Proof.Machine

/-! ## The three parts of the invariant -/

/-- The invariant's part about the byte memories. -/
structure MemoryInv (s : State) : Prop where
  txForm : s.tx.wf
  fbForm : s.fb.wf
  raceForm : s.fbRace.wf
  txInside : ∀ c ∈ s.tx, c.1 < txbufSize s.cfg
  fbInside : ∀ c ∈ s.fb, c.1 < s.fbLen
  raceInside : ∀ c ∈ s.fbRace, c.1 < s.fbLen

/-- The invariant's part about the lifecycle, the allocation and the window. -/
structure LifeInv (s : State) : Prop where
  allocated : s.txValid = s.life.working
  windowColumns : ∀ w, s.win = some w → w.colStart = 28 ∧ w.colEnd = 91
  windowKnown : s.life = .uninitialized ∨ s.life = .initializing → s.win = none
  initializing : s.life = .initializing → ∃ w, s.op = some ⟨.init, w⟩

/-- The invariant's part about the bus. -/
structure BusInv (s : State) : Prop where
  framing : ∀ b ∈ s.trace, b.bytes ≠ [] ∧ (b.dc = .cmd → b.bytes.length = 1)
  answered : s.op = none → ∀ b ∈ s.trace, b.answer ≠ .never
  waiting :
    s.op ≠ none → ∃ before b, s.trace = before ++ [b] ∧ b.answer = .never ∧ ∀ x ∈ before, x.answer ≠ .never
  driven : s.trace ≠ [] → s.dc ≠ none

theorem inv_iff_parts {s : State} : s.Inv ↔ MemoryInv s ∧ LifeInv s ∧ BusInv s :=
  ⟨fun h => ⟨{ h with }, { h with }, { h with }⟩, fun ⟨hmem, hlife, hbus⟩ => { hmem, hlife, hbus with }⟩

/-! ## The memories -/

theorem MemoryInv.of_kept {s t : State} (hs : MemoryInv s) (hkept : InputsKept s t) (htx : t.tx = s.tx ∨ t.tx = []) :
    MemoryInv t where
  txForm := by
    rcases htx with h | h <;> rw [h]
    · exact hs.txForm
    · exact .nil
  fbForm := hkept.fb ▸ hs.fbForm
  raceForm := hkept.fbRace ▸ hs.raceForm
  txInside := by
    rcases htx with h | h <;> rw [h]
    · rw [hkept.cfg]
      exact hs.txInside
    · exact nofun
  fbInside := by
    rw [hkept.fb, hkept.fbLen]
    exact hs.fbInside
  raceInside := by
    rw [hkept.fbRace, hkept.fbLen]
    exact hs.raceInside

/-- The output of a legal span fits `TX` (43_pixel_encoder.md R165). -/
theorem spanOutput_le_of_spanOk {s : State} {offset len : Nat} (h : s.spanOk offset len = true) :
    spanOutput s.cfg len ≤ txbufSize s.cfg := by
  unfold spanOutput
  split
  · rename_i hfmt
    exact ((spanOk_gray4 hfmt offset len).1 h).2
  · rename_i hfmt
    obtain ⟨-, -, -, hfits⟩ := (spanOk_color16 hfmt offset len).1 h
    exact hfits

/-- The encode step writes its output inside `TX`, and the host's pending writes were inside `FB`. -/
theorem MemoryInv.encodeStep {s : State} {offset len : Nat} (hs : MemoryInv s)
    (hfits : spanOutput s.cfg len ≤ txbufSize s.cfg) : MemoryInv (encodeStep offset len s) where
  txForm := Memory.writeBytes_wf hs.txForm _ _
  fbForm := Memory.overlay_wf hs.fbForm _
  raceForm := .nil
  txInside := fun c hc => by
    rcases Memory.mem_writeBytes hc with hc | ⟨-, hc⟩
    · exact hs.txInside c hc
    · rw [encodeSpan_length, Nat.zero_add] at hc
      exact lt_of_lt_of_le hc hfits
  fbInside := fun c hc => by
    rcases Memory.mem_overlay hc with hc | ⟨d, hd, hdc⟩
    · exact hs.fbInside c hc
    · exact hdc ▸ hs.raceInside d hd
  raceInside := nofun

theorem MemoryInv.of_busOnly {s t : State} (hs : MemoryInv s) (h : BusOnly s t) : MemoryInv t :=
  hs.of_kept h.inputs (.inl h.scratch.tx)

theorem exec_memoryInv {i : Instr} {s t : State} (hs : MemoryInv s) (h : exec i s = .next t) : MemoryInv t := by
  by_cases hflush : ∃ offset len, i = .flush offset len
  · obtain ⟨offset, len, rfl⟩ := hflush
    rcases flush_next h with ⟨-, e, rfl⟩ | ⟨-, hspan, -, rfl⟩
    · exact { hs with }
    · have hlatched := hs.of_busOnly (busOnly_latch s (.flush offset len))
      exact (hlatched.encodeStep (spanOutput_le_of_spanOk hspan)).of_busOnly (flushBody_busOnly _ _ _)
  · push Not at hflush
    exact hs.of_kept (exec_inputs hflush h) (exec_tx hflush h)

/-! ## The lifecycle -/

theorem LifeInv.of_kept {s t : State} (hs : LifeInv s) (hrest : s.life ≠ .initializing) (hlife : t.life = s.life)
    (htx : t.txValid = s.txValid) (hwin : t.win = s.win) : LifeInv t where
  allocated := by rw [htx, hlife, hs.allocated]
  windowColumns := hwin ▸ hs.windowColumns
  windowKnown := by
    rw [hlife, hwin]
    exact hs.windowKnown
  initializing := fun h => absurd (hlife ▸ h) hrest

/-- In `On` and `Blanked` only the allocation and the window's columns are claimed. -/
theorem LifeInv.of_working {t : State} (hlife : t.life.working = true) (htx : t.txValid = true)
    (hwin : ∀ w, t.win = some w → w.colStart = 28 ∧ w.colEnd = 91) : LifeInv t where
  allocated := htx.trans hlife.symm
  windowColumns := hwin
  windowKnown := by
    rintro (h | h) <;> rw [h] at hlife <;> cases hlife
  initializing := fun h => by
    rw [h] at hlife
    cases hlife

theorem init_lifeInv {s t : State} (hs : LifeInv s) (h : execInit s = .next t) : LifeInv t := by
  obtain ⟨hend, hwin⟩ := init_ended h
  have hcolumns : ∀ w, t.win = some w → w.colStart = 28 ∧ w.colEnd = 91 := fun w hw => by
    cases hwin.symm.trans hw
  rcases hend with ⟨_, _, hlife, htx, _⟩ | ⟨_, _, _, hlife, htx, _⟩ | ⟨w, _, hop, hlife, htx, _⟩
  · exact .of_working (by rw [hlife]; rfl) htx hcolumns
  · exact ⟨by rw [htx, hlife]; rfl, hcolumns, fun _ => hwin, fun h => by cases hlife.symm.trans h⟩
  · have hbefore : s.txValid = false := by rw [hs.allocated, (init_next h).1]; rfl
    exact ⟨by rw [htx, hlife, hbefore]; rfl, hcolumns, fun _ => hwin, fun _ => ⟨w, hop⟩⟩

theorem window_lifeInv {xs ys xe ye : Byte} {s t : State} (hs : LifeInv s) (h : execSetWindow xs ys xe ye s = .next t) :
    LifeInv t := by
  have hworking := window_accepted h
  refine .of_working ((window_kept h).2 ▸ hworking) ?_ fun w hw => ?_
  · rw [(window_inputs_scratch h).2.txValid, hs.allocated, hworking]
  · rcases window_ended h with ⟨-, hwin⟩ | ⟨-, hwin⟩
    · cases hwin.symm.trans hw
      exact ⟨rfl, rfl⟩
    · cases hwin.symm.trans hw

theorem blank_lifeInv {on : Bool} {s t : State} (hs : LifeInv s) (h : execBlank on s = .next t) : LifeInv t := by
  obtain ⟨-, hscratch, hwin, hworking⟩ := blank_kept h
  refine .of_working hworking ?_ (hwin ▸ hs.windowColumns)
  rw [hscratch.txValid, hs.allocated, (blank_next h).1]

theorem destroy_lifeInv {s t : State} (hs : LifeInv s) (h : execDestroy s = .next t) : LifeInv t := by
  obtain ⟨-, -, rfl⟩ := destroy_next h
  exact ⟨rfl, hs.windowColumns, (by rintro (h | h) <;> cases h), nofun⟩

theorem exec_lifeInv {i : Instr} {s t : State} (hs : LifeInv s) (h : exec i s = .next t) : LifeInv t := by
  have hrest : s.life ≠ .initializing := fun hlife => by
    obtain ⟨w, hop⟩ := hs.initializing hlife
    cases (exec_effect h).1.symm.trans hop
  cases i with
  | init => exact init_lifeInv hs h
  | setWindow xs ys xe ye => exact window_lifeInv hs h
  | blank on => exact blank_lifeInv hs h
  | destroy => exact destroy_lifeInv hs h
  | flush offset len =>
    obtain ⟨-, hlife, hwin, htx, -⟩ := flush_kept h
    exact hs.of_kept hrest hlife htx hwin
  | _ =>
    have hbus := busOnly_of_exec h nofun nofun nofun nofun nofun
    exact hs.of_kept hrest hbus.life hbus.scratch.txValid hbus.win

/-! ## The bus -/

/-- The bursts an instruction plans are framed: none is empty, and a CMD burst is one byte (40_command_protocol.md R116). -/
theorem exec_effect_framed {i : Instr} {s t : State} (h : exec i s = .next t) :
    s.op = none ∧ ∃ plan, Effect s i plan t ∧ ∀ p ∈ plan, p.2 ≠ [] ∧ (p.1 = .cmd → p.2.length = 1) := by
  obtain ⟨hop, plan, heff, hplan⟩ := exec_effect h
  refine ⟨hop, plan, heff, fun p hp => ?_⟩
  rcases hplan with (rfl | ⟨bytes, hbytes, rfl⟩) | ⟨-, -, rfl⟩
  · cases hp
  · cases List.mem_singleton.1 hp
    exact ⟨hbytes, nofun⟩
  · exact mem_planOf hp

/-- The issued bursts after which the body stands still were all answered, but for the last of a stalled one. -/
theorem issued_answered {ans : Nat → BusAnswer} {n : Nat} {plan : List Planned}
    (h : statusAfter (issued ans n plan) ≠ .stalled) : ∀ b ∈ issued ans n plan, b.answer ≠ .never := by
  rcases List.eq_nil_or_concat (issued ans n plan) with hnil | ⟨before, last, hlast⟩
  · rw [hnil]
    exact nofun
  · rw [List.concat_eq_append] at hlast
    rw [hlast, statusAfter_concat, ne_eq, statusOf_eq_stalled] at h
    intro b hb
    rw [hlast] at hb
    rcases List.mem_append.1 hb with hb | hb
    · rw [issued_before_last hlast b hb]
      exact nofun
    · exact List.mem_singleton.1 hb ▸ h

/-- What the end of an instruction says about its last burst: it waits exactly where the bus never answered it. -/
theorem Ended.op_eq_none_iff {s t : State} {i : Instr} {bs : List Burst} (h : Ended s i bs t) :
    t.op = none ↔ statusAfter bs ≠ .stalled := by
  cases h with
  | done hall hop _ => simp [hop, hall]
  | failed _ hall _ hop _ => simp [hop, hall]
  | busFailed hlast hop _ => simp [hop, hlast]
  | waits hlast w hop _ => simp [hop, hlast]

theorem statusAfter_eq_stalled {bs : List Burst} :
    statusAfter bs = .stalled ↔ ∃ before b, bs = before ++ [b] ∧ b.answer = .never := by
  constructor
  · intro h
    rcases statusAfter_cases bs with ⟨hrun, -⟩ | ⟨_, _, -, -, hraised⟩ | ⟨before, b, hbs, hb, -⟩
    · cases hrun.symm.trans h
    · cases hraised.symm.trans h
    · exact ⟨before, b, hbs, hb⟩
  · rintro ⟨before, b, rfl, hb⟩
    rw [statusAfter_concat, hb]
    rfl

theorem selectAfter_ne_none {d : Option Select} {bs : List Burst} (h : bs ≠ [] ∨ d ≠ none) :
    selectAfter d bs ≠ none := by
  unfold selectAfter
  split
  · rename_i hlast
    rcases h with h | h
    · exact absurd (List.getLast?_eq_none_iff.1 hlast) h
    · exact h
  · exact nofun

theorem exec_busInv {i : Instr} {s t : State} (hs : BusInv s) (h : exec i s = .next t) : BusInv t := by
  obtain ⟨hop, plan, heff, hplan⟩ := exec_effect_framed h
  have hbefore := hs.answered hop
  refine ⟨fun b hb => ?_, fun ht b hb => ?_, fun ht => ?_, fun ht => ?_⟩
  · rw [heff.trace] at hb
    rcases List.mem_append.1 hb with hb | hb
    · exact hs.framing b hb
    · exact hplan _ (mem_issued hb)
  · rw [heff.trace] at hb
    rcases List.mem_append.1 hb with hb | hb
    · exact hbefore b hb
    · exact issued_answered (heff.ended.op_eq_none_iff.1 ht) b hb
  · rw [ne_eq, heff.ended.op_eq_none_iff, not_not] at ht
    obtain ⟨before, b, hbs, hb⟩ := statusAfter_eq_stalled.1 ht
    refine ⟨s.trace ++ before, b, by rw [heff.trace, hbs, List.append_assoc], hb, fun x hx => ?_⟩
    rcases List.mem_append.1 hx with hx | hx
    · exact hbefore x hx
    · rw [issued_before_last hbs x hx]
      exact nofun
  · rcases heff.dc with hdc | ⟨-, hdc⟩
    · rw [hdc]
      refine selectAfter_ne_none ?_
      by_cases hbs : issued s.answerTo s.asked plan = []
      · rw [heff.trace, hbs, List.append_nil] at ht
        exact .inr (hs.driven ht)
      · exact .inl hbs
    · rw [hdc]
      exact nofun

/-! ## The step -/

theorem exec_inv {i : Instr} {s t : State} (hs : s.Inv) (h : exec i s = .next t) : t.Inv := by
  obtain ⟨hmem, hlife, hbus⟩ := inv_iff_parts.1 hs
  exact inv_iff_parts.2 ⟨exec_memoryInv hmem h, exec_lifeInv hlife h, exec_busInv hbus h⟩

/-- A byte written below a length keeps a memory below it. -/
theorem Memory.write_inside {m : Memory} {n a : Nat} (hm : ∀ c ∈ m, c.1 < n) (ha : a < n) (b : Byte) :
    ∀ c ∈ m.write a b, c.1 < n := by
  intro c hc
  rcases Memory.mem_writeBytes hc with hc | ⟨-, hc⟩
  · exact hm c hc
  · exact lt_of_lt_of_le hc ha

theorem applyEvent_inv {e : Event} {s t : State} (hs : s.Inv) (h : applyEvent e s = .next t) : t.Inv := by
  cases e with
  | attachFb len cells =>
    cases h
    exact { hs with
      fbForm := Memory.ofCells_wf len cells
      raceForm := .nil
      fbInside := fun _ hc => Memory.mem_ofCells hc
      raceInside := nofun }
  | hostWrite a b =>
    rw [applyEvent] at h
    split at h
    · rename_i ha
      cases h
      exact { hs with
        fbForm := Memory.write_wf hs.fbForm a b
        fbInside := Memory.write_inside hs.fbInside ha b }
    · cases h
  | hostWriteDuringFlush a b =>
    rw [applyEvent] at h
    split at h
    · rename_i ha
      cases h
      exact { hs with
        raceForm := Memory.write_wf hs.raceForm a b
        raceInside := Memory.write_inside hs.raceInside ha b }
    · cases h
  | detachFb | acquireBus | releaseBus =>
    cases h
    exact { hs with }

/-- Settles O8: by the next input. A request runs an instruction, whose three parts of the invariant are kept each on its
own; an event writes inputs only, each inside its memory. -/
theorem stepKeepsInvariant : Obligations.StepKeepsInvariant := by
  intro s t hs h
  unfold step at h
  split at h
  · cases h
    exact hs
  · rename_i r rest _
    have hrest : ({ s with inbox := rest } : State).Inv := { hs with }
    unfold applyRequest at h
    split at h
    · exact exec_inv hrest h
    · cases h
  · rename_i e rest _
    have hrest : ({ s with inbox := rest } : State).Inv := { hs with }
    exact applyEvent_inv hrest h

theorem constructed_inv (cfg : Cfg) : (State.constructed cfg).Inv where
  txForm := .nil
  fbForm := .nil
  raceForm := .nil
  txInside := nofun
  fbInside := nofun
  raceInside := nofun
  allocated := rfl
  windowColumns := nofun
  windowKnown := fun _ => rfl
  framing := nofun
  answered := fun _ => nofun
  waiting := fun h => absurd rfl h
  initializing := nofun
  driven := fun h => absurd rfl h

/-- Settles O7: construction leaves every memory and the trace empty. -/
theorem invariantHoldsAtReset : Obligations.InvariantHoldsAtReset :=
  ⟨constructed_inv, constructed_inv _⟩

/-- Settles O6: the fields of the constructed state. -/
theorem constructedStateValues : Obligations.ConstructedStateValues :=
  fun _ => ⟨rfl, rfl, rfl, rfl, rfl, rfl, rfl, fun _ => rfl, rfl⟩

end Sys2Proof.Machine
end

section
/-! PROOFS of the family other, the whole machine: the step and its inputs, how an operation ends on the bus, what it moves
in the lifecycle, and what it leaves alone. -/

namespace Sys2Proof.Machine

/-! ## The step and the start of an operation -/

/-- Settles O4: the step unfolded for a request, and the decoder's two answers. -/
theorem stepRunsDecodedRequest : Obligations.StepRunsDecodedRequest := by
  intro s r rest hinbox
  have hstep : step s = applyRequest r { s with inbox := rest } := by rw [step, hinbox]
  refine ⟨fun i hi => ?_, fun e he => ?_⟩
  · rw [hstep, applyRequest, hi]
  · rw [hstep, applyRequest, he]

/-- An event writes fields of the host and the platform only. -/
theorem applyEvent_writes_inputs {e : Event} {s t : State} (h : applyEvent e s = .next t) :
    t = { s with
      fbPresent := t.fbPresent, fbLen := t.fbLen, fb := t.fb, fbEpoch := t.fbEpoch, fbRace := t.fbRace,
      busReady := t.busReady } := by
  cases e with
  | hostWrite a b | hostWriteDuringFlush a b =>
    rw [applyEvent] at h
    split at h
    · cases h
      rfl
    · cases h
  | attachFb | detachFb | acquireBus | releaseBus =>
    cases h
    rfl

/-- Settles O5: the step unfolded for an empty inbox and for an event. -/
theorem nothingActsWithoutRequest : Obligations.NothingActsWithoutRequest := by
  refine ⟨fun s hinbox => by rw [step, hinbox], fun s t e rest hinbox h => ?_⟩
  rw [step, hinbox] at h
  rw [applyEvent_writes_inputs h]
  exact ⟨rfl, rfl, rfl, rfl, rfl, rfl, rfl, rfl, rfl, rfl, rfl, rfl⟩

/-- Settles O20: every instruction begins as `start` does, with the test of `busy`. -/
theorem busyRefusesEveryRequest : Obligations.BusyRefusesEveryRequest := by
  intro i s hbusy
  cases i <;> exact if_pos hbusy

/-- Settles O17: every instruction begins by latching its operands, and the latched state holds no earlier result. -/
theorem noFaultIsSticky : Obligations.NoFaultIsSticky := by
  intro i s r
  cases i <;> rfl

/-! ## The end of an operation on the bus -/

/-- Settles O11: the trace and the select line of the instructions that send frames. -/
theorem traceGrowsByPlannedBursts : Obligations.TraceGrowsByPlannedBursts :=
  fun _ _ _ hflush hburst h => ⟨(frames_effect hflush hburst h).2.trace, frames_dc hflush hburst h⟩

theorem statusAfter_eq_raised {bs : List Burst} :
    statusAfter bs = .raised .busTransferFailed ↔ ∃ before b, bs = before ++ [b] ∧ b.answer = .fail := by
  constructor
  · intro h
    rcases statusAfter_cases bs with ⟨hrun, -⟩ | ⟨before, b, hbs, hb, -⟩ | ⟨_, _, -, -, hstalled⟩
    · cases hrun.symm.trans h
    · exact ⟨before, b, hbs, hb⟩
    · cases hstalled.symm.trans h
  · rintro ⟨before, b, rfl, hb⟩
    rw [statusAfter_concat, hb]
    rfl

/-- `BusTransferFailed` is the answer exactly where the last burst failed (60_exceptions.md R216). -/
theorem Ended.busTransferFailed_iff {s t : State} {i : Instr} {bs : List Burst} (h : Ended s i bs t) :
    t.response = some (.err .busTransferFailed) ↔ statusAfter bs = .raised .busTransferFailed := by
  cases h with
  | done hall _ hresponse => cases hi : isHostOp i <;> simp [hresponse, hall, hi]
  | failed e hall hown _ hresponse => simp [hresponse, hall, hown]
  | busFailed hlast _ hresponse => simp [hresponse, hlast]
  | waits hlast _ _ hresponse => simp [hresponse, hlast]

/-- Settles O12: an instruction issues a plan, whose bursts end at the first not answered `ok`. -/
theorem failedBurstEndsOperation : Obligations.FailedBurstEndsOperation := by
  intro i s t h
  obtain ⟨-, plan, heff, -⟩ := exec_effect h
  exact ⟨_, heff.trace, heff.asked, fun _ _ => issued_before_last,
    heff.ended.busTransferFailed_iff.trans statusAfter_eq_raised⟩

theorem Ended.waiting {s t : State} {i : Instr} {bs : List Burst} (h : Ended s i bs t) (hop : t.op ≠ none) :
    (∃ w, t.op = some ⟨i, w⟩) ∧ t.response = none := by
  cases h with
  | done _ hidle _ | failed _ _ _ hidle _ | busFailed _ hidle _ => exact absurd hidle hop
  | waits _ w hw hresponse => exact ⟨⟨w, hw⟩, hresponse⟩

/-- Settles O13: an instruction ends in progress exactly where the last burst of its plan was never answered. -/
theorem stalledBusLeavesOperationInProgress : Obligations.StalledBusLeavesOperationInProgress := by
  intro i s t h
  obtain ⟨-, plan, heff, -⟩ := exec_effect h
  refine ⟨?_, heff.ended.waiting⟩
  rw [ne_eq, heff.ended.op_eq_none_iff, not_not, statusAfter_eq_stalled, heff.trace]
  simp only [List.append_assoc, List.append_cancel_left_eq]

/-- Where the bus answers, an instruction does not wait for it. -/
theorem Effect.op_eq_none {s t : State} {i : Instr} {plan : List Planned} (h : Effect s i plan t)
    (hanswers : s.BusAnswers t) : t.op = none := by
  rw [h.ended.op_eq_none_iff, ne_eq, statusAfter_eq_stalled]
  rintro ⟨before, b, hbs, hb⟩
  have hmem : b ∈ issued s.answerTo s.asked plan := by simp [hbs]
  obtain ⟨k, hk, hlast, hanswer⟩ := issued_answer hmem
  exact hanswers k hk (h.asked ▸ hlast) (hanswer.symm.trans hb)

/-- A request of the host that has ended has delivered its result (10_state.md R27). -/
theorem Ended.response_of_idle {s t : State} {i : Instr} {bs : List Burst} (h : Ended s i bs t)
    (hi : isHostOp i = true) (hop : t.op = none) : ∃ r, t.response = some r := by
  cases h with
  | done _ _ hresponse => exact ⟨.ok, by rw [hresponse, if_pos hi]⟩
  | failed e _ _ _ hresponse => exact ⟨_, hresponse⟩
  | busFailed _ _ hresponse => exact ⟨_, hresponse⟩
  | waits _ _ hw _ => cases hop.symm.trans hw

/-- Settles O18: only a burst that is never answered keeps a request from its result. -/
theorem hostOperationsReturn : Obligations.HostOperationsReturn := by
  intro i s t hi h hanswers
  obtain ⟨-, plan, heff, -⟩ := exec_effect h
  have hop := heff.op_eq_none hanswers
  exact ⟨busy_eq_false hop, heff.ended.response_of_idle hi hop⟩

/-! ## The bytes that reached the controller -/

theorem delivered_prefix (n : Nat) (b : Burst) : b.delivered n <+: b.bytes := by
  unfold Burst.delivered
  split
  · exact List.prefix_rfl
  · exact List.take_prefix ..
  · exact List.take_prefix ..

theorem delivered_of_ok {n : Nat} {b : Burst} (h : b.answer = .ok) : b.delivered n = b.bytes := by
  rw [Burst.delivered, h]

/-- Later bursts reach the controller behind the earlier ones (20_memory.md R63). -/
theorem wireFrom_append (n : Nat) (bs cs : List Burst) :
    wireFrom n (bs ++ cs) = wireFrom n bs ++ wireFrom (n + bs.length) cs := by
  induction bs generalizing n with
  | nil => rfl
  | cons b bs ih =>
    simp only [List.cons_append, wireFrom, ih, List.append_assoc, List.length_cons]
    rw [Nat.add_right_comm, Nat.add_assoc]

/-- Settles O19: an instruction only appends to the trace, and the wire grows with it. -/
theorem deliveredBytesArePrefixes : Obligations.DeliveredBytesArePrefixes := by
  refine ⟨fun n b => ⟨delivered_prefix n b, delivered_of_ok⟩, fun i s t h => ?_⟩
  obtain ⟨-, plan, heff, -⟩ := exec_effect h
  rw [heff.trace, wireFrom_append]
  exact List.prefix_append ..

/-! ## The lifecycle -/

/-- Settles O10: by the ends of the three operations that write `life`. -/
theorem lifecycleTransitions : Obligations.LifecycleTransitions := by
  refine ⟨fun i s t hinit hblank hdestroy h => (exec_cfg_life_kept h hinit hblank hdestroy).2, fun s t h => ?_,
    fun on s t h => ⟨working_iff.1 (blank_next h).1, blank_ended h⟩, fun s t h => ?_⟩
  · refine ⟨(init_next h).1, ?_⟩
    rcases (init_ended h).1 with ⟨hok, _, hlife, _, _⟩ | ⟨e, herr, _, hlife, _, _⟩ | ⟨w, hnone, hop, hlife, _, _⟩
    · exact .inl ⟨hok, hlife⟩
    · exact .inr (.inl ⟨⟨e, herr⟩, hlife⟩)
    · exact .inr (.inr ⟨hnone, hop ▸ nofun, hlife⟩)
  · obtain ⟨-, haccepts, rfl⟩ := destroy_next h
    exact ⟨takesDestroy_iff.1 haccepts, rfl, rfl⟩

/-! ## Frames -/

/-- A byte of `FB` after the host's writes of the encode step have landed (20_memory.md R58). -/
theorem fbByte_of_overlay {s t : State} (hrace : s.fbRace.wf) (hfb : t.fb = s.fb.overlay s.fbRace)
    (hepoch : t.fbEpoch = s.fbEpoch) (x : Nat) : t.fbByte x = (s.fbRace.read? x).getD (s.fbByte x) := by
  rw [State.fbByte, hfb, hepoch, Memory.read?_overlay hrace, State.fbByte]
  cases s.fbRace.read? x <;> rfl

/-- What a FLUSH does to the framebuffer: nothing, or the host's pending writes land. -/
theorem flush_inputs {s t : State} {offset len : Nat} (h : execFlush offset len s = .next t) :
    (t.fbPresent = s.fbPresent ∧ t.fbLen = s.fbLen ∧ t.fbEpoch = s.fbEpoch) ∧
      (((s.buffersPresent && s.spanOk offset len) = true ∧
          t.fb = s.fb.overlay s.fbRace ∧ t.fbRace = [] ∧ t.raceDraw = s.raceDraw + 1) ∨
        ((s.buffersPresent && s.spanOk offset len) = false ∧
          t.fb = s.fb ∧ t.fbRace = s.fbRace ∧ t.raceDraw = s.raceDraw)) := by
  rcases flush_next h with ⟨hfails, e, rfl⟩ | ⟨hpresent, hspan, -, rfl⟩
  · exact ⟨⟨rfl, rfl, rfl⟩, .inr ⟨hfails, rfl, rfl, rfl⟩⟩
  · have hkept := (flushBody_busOnly offset len (s.latch (.flush offset len))).inputs
    exact ⟨⟨hkept.fbPresent, hkept.fbLen, hkept.fbEpoch⟩, .inl ⟨by rw [hpresent, hspan]; rfl, flush_fb s offset len⟩⟩

/-- Settles O15: only FLUSH touches an input, and it does so by letting the host's own writes land. -/
theorem framebufferNeverWritten : Obligations.FramebufferNeverWritten := by
  intro i s t h
  by_cases hflush : ∃ offset len, i = .flush offset len
  · obtain ⟨offset, len, rfl⟩ := hflush
    obtain ⟨⟨hpresent, hlen, hepoch⟩, hland⟩ := flush_inputs h
    refine ⟨hpresent, hlen, hepoch, fun hstable => ?_, fun hno => absurd rfl (hno offset len), fun offset' len' hi => ?_⟩
    · have hrace : s.fbRace = [] := hstable
      rcases hland with ⟨-, hfb, hempty, -⟩ | ⟨-, hfb, hkept, -⟩
      · exact ⟨by rw [hfb, hrace, Memory.overlay_nil], by rw [hempty, hrace]⟩
      · exact ⟨hfb, hkept⟩
    · cases hi
      rcases hland with ⟨hreached, hfb, hempty, hdraw⟩ | ⟨hfailed, hfb, hkept, hdraw⟩
      · exact ⟨fun _ => ⟨hfb, hempty, hdraw, fun hwf => fbByte_of_overlay hwf hfb hepoch⟩,
          fun hfailed => by cases hreached.symm.trans hfailed⟩
      · exact ⟨fun hreached => (by cases hfailed.symm.trans hreached), fun _ => ⟨hfb, hkept, hdraw⟩⟩
  · push Not at hflush
    have hkept := exec_inputs hflush h
    exact ⟨hkept.fbPresent, hkept.fbLen, hkept.fbEpoch, fun _ => ⟨hkept.fb, hkept.fbRace⟩, fun _ => hkept,
      fun offset len hi => absurd hi (hflush offset len)⟩

/-- Settles O28: a row that is no request of the host is none of the five instructions that do more than use the bus. -/
theorem frameRowsTouchOnlyTheBus : Obligations.FrameRowsTouchOnlyTheBus := by
  intro i s t hi h
  have hother : ∀ {j}, isHostOp j = true → i ≠ j := by
    rintro j hj rfl
    cases hi.symm.trans hj
  obtain ⟨hinputs, hscratch, hlife, hwin⟩ := busOnly_of_exec h (hother rfl) (fun _ => hother rfl) (hother rfl)
    (fun _ _ => hother rfl) fun _ _ _ _ => hother rfl
  exact ⟨hinputs, hscratch, hlife, hwin⟩

/-- Settles O36: both operations use the bus only. -/
theorem gammaAndPrechargeFrame : Obligations.GammaAndPrechargeFrame := by
  intro s t curve level h
  have hbus : BusOnly s t := h.elim gamma_busOnly precharge_busOnly
  exact ⟨hbus.inputs, hbus.scratch, hbus.life, hbus.win⟩

/-- Settles O38: by the end of SET_WINDOW and the frame of its body. -/
theorem setWindowFrame : Obligations.SetWindowFrame := by
  intro s t xs ys xe ye h
  obtain ⟨hinputs, hscratch⟩ := window_inputs_scratch h
  exact ⟨window_ended h, hinputs, hscratch, (window_kept h).2⟩

/-- Settles O54: by the frames of the three operations. -/
theorem lifecycleOperationsFrame : Obligations.LifecycleOperationsFrame := by
  refine ⟨fun s t h => ⟨init_inputs h, (init_ended h).2⟩, fun s t on h => ?_, fun s t h => ⟨destroy_inputs h, ?_⟩⟩
  · obtain ⟨hinputs, hscratch, hwin, -⟩ := blank_kept h
    exact ⟨hinputs, hscratch, hwin⟩
  · obtain ⟨-, -, rfl⟩ := destroy_next h
    exact ⟨⟨rfl, rfl, rfl⟩, rfl⟩

end Sys2Proof.Machine
end

section
/-! PROOFS of the family other, refusals and failures before the bus: the lifecycle test, the bus test, the operand tests. -/

namespace Sys2Proof.Machine

/-! ## The lifecycle test -/

theorem start_refused_by_life {i : Instr} {s : State} {accepts : Life → Bool}
    {body : State → Host.Outcome State Fault Refusal} (hop : s.op = none) (hlife : accepts s.life = false) :
    start i s (fun u => needLife accepts u (body u)) = .refused (.notAccepted s.life) := by
  rw [start_idle hop]
  exact needLife_not (s := s.latch i) hlife _

theorem micro_refused_by_life {s : State} (hop : s.op = none) (hlife : s.life.takesMicro = false) (i : Instr)
    (g : State → Bool) (f : State → Run) : micro i s g f = .refused (.notAccepted s.life) :=
  start_refused_by_life hop hlife

theorem working_eq_false_of_ne {l : Life} (hon : l ≠ .on) (hblanked : l ≠ .blanked) : l.working = false :=
  Bool.eq_false_iff.2 fun h => (working_iff.1 h).elim hon hblanked

theorem takesInit_eq_false {l : Life} (h : l ≠ .uninitialized) : l.takesInit = false := by
  cases l <;> trivial

theorem takesDestroy_eq_false {l : Life} (h : l = .destroyed ∨ l = .initializing) : l.takesDestroy = false := by
  rcases h with rfl | rfl <;> rfl

theorem init_refused_by_life {s : State} (hop : s.op = none) (hlife : s.life ≠ .uninitialized) :
    execInit s = .refused (.notAccepted s.life) :=
  start_refused_by_life hop (takesInit_eq_false hlife)

theorem destroy_refused_by_life {s : State} (hop : s.op = none) (hlife : s.life = .destroyed ∨ s.life = .initializing) :
    execDestroy s = .refused (.notAccepted s.life) :=
  start_refused_by_life hop (takesDestroy_eq_false hlife)

section
variable {s : State} (hop : s.op = none) (hlife : s.life.working = false)
include hop hlife

theorem window_refused_by_life (xs ys xe ye : Byte) : execSetWindow xs ys xe ye s = .refused (.notAccepted s.life) :=
  start_refused_by_life hop hlife

theorem gamma_refused_by_life (curve : Curve) : execProgramGamma curve s = .refused (.notAccepted s.life) :=
  start_refused_by_life hop hlife

theorem blank_refused_by_life (on : Bool) : execBlank on s = .refused (.notAccepted s.life) :=
  start_refused_by_life hop hlife

theorem precharge_refused_by_life (hvariant : s.cfg.hasPrecharge = true) (level : Option Byte) :
    execProgramPrecharge level s = .refused (.notAccepted s.life) := by
  rw [execProgramPrecharge, start_idle hop, State.latch_cfg, if_pos hvariant, needLife_not (by exact hlife),
    State.latch_life]

end

/-- A row that is no request of the host is refused in `Destroyed` (log entry 5). -/
theorem row_refused_in_destroyed {i : Instr} {s : State} (hop : s.op = none) (hlife : s.life = .destroyed)
    (hi : isHostOp i = false) : exec i s = .refused (.notAccepted s.life) := by
  have htakes : Life.takesMicro s.life = false := by rw [hlife]; rfl
  cases i with
  | init | setWindow | programGamma | blank | flush | destroy | reserved0 | reserved8 | reserved9 | reservedA
  | reservedB | reservedC | reservedD | reservedE | reservedF => cases hi
  | programPrecharge level => cases level <;> cases hi
  | dataBurst n =>
    show execDataBurst n s = _
    exact start_refused_by_life hop htakes
  | _ => exact micro_refused_by_life hop htakes _ _ _

/-- Settles O21: the lifecycle test of each operation at rest. -/
theorem acceptanceTableRefusals : Obligations.AcceptanceTableRefusals := by
  intro s hop
  refine ⟨fun hlife => init_refused_by_life hop hlife, fun hon hblanked => ?_,
    fun hlife => destroy_refused_by_life hop hlife, fun hlife i hi => row_refused_in_destroyed hop hlife hi⟩
  have hlife := working_eq_false_of_ne hon hblanked
  exact ⟨window_refused_by_life hop hlife, gamma_refused_by_life hop hlife, precharge_refused_by_life hop hlife,
    blank_refused_by_life hop hlife⟩

/-! ## The operand tests, and the end of life -/

/-- Settles O23: each reserved code is answered alike. -/
theorem reservedCodesAnswerInvalidParameter : Obligations.ReservedCodesAnswerInvalidParameter := by
  intro i s hi hop
  simp only [List.mem_cons, List.not_mem_nil, or_false] at hi
  rcases hi with rfl | rfl | rfl | rfl | rfl | rfl | rfl | rfl | rfl <;> exact answerInvalid_idle hop _

theorem precharge_without_variant {s : State} (hop : s.op = none) (hvariant : s.cfg.hasPrecharge = false)
    (level : Option Byte) :
    execProgramPrecharge level s = .next { s with response := some (.err .invalidParameter) } := by
  rw [execProgramPrecharge, start_idle hop, State.latch_cfg, hvariant, if_neg Bool.false_ne_true]
  exact deliver_next.2 (raised_at_start hop _ _)

theorem precharge_illegal_level {s : State} (hop : s.op = none) (hvariant : s.cfg.hasPrecharge = true)
    (hlife : s.life.working = true) {level : Option Byte}
    (hlevel : level = none ∨ ∃ l, level = some l ∧ prechargeLegal l = false) :
    execProgramPrecharge level s = .next { s with response := some (.err .invalidParameter) } := by
  rw [execProgramPrecharge, start_idle hop, State.latch_cfg, if_pos hvariant, needLife_of (by exact hlife)]
  rcases hlevel with rfl | ⟨l, rfl, hillegal⟩
  · exact deliver_next.2 (raised_at_start hop _ _)
  · simp only [hillegal, Bool.false_eq_true, if_false]
    exact deliver_next.2 (raised_at_start hop _ _)

/-- Settles O35: the variant is tested before the lifecycle, the level after it (decision D46). -/
theorem prechargeInvalidParameter : Obligations.PrechargeInvalidParameter := by
  intro s level hop h
  cases hvariant : s.cfg.hasPrecharge with
  | false => exact precharge_without_variant hop hvariant level
  | true =>
    rcases h with hno | ⟨hlife, hlevel⟩
    · cases hvariant.symm.trans hno
    · refine precharge_illegal_level hop hvariant (working_of_on_or_blanked hlife) (hlevel.imp_right ?_)
      rintro ⟨l, rfl, hl⟩
      exact ⟨l, rfl, by simp [prechargeLegal, hl]⟩

theorem spanOk_eq_false {s : State} {offset len : Nat}
    (h : s.fbLen < offset + len ∨ (s.cfg.srcFmt = .gray4 ∧ txbufSize s.cfg < 2 * len) ∨
      (s.cfg.srcFmt = .color16 ∧ (offset % 2 ≠ 0 ∨ len % stride s.cfg ≠ 0 ∨
        txbufSize s.cfg < s.cfg.width * (len / stride s.cfg)))) : s.spanOk offset len = false := by
  rw [Bool.eq_false_iff]
  intro hok
  cases hfmt : s.cfg.srcFmt with
  | gray4 =>
    obtain ⟨hinside, hfits⟩ := (spanOk_gray4 hfmt offset len).1 hok
    rcases h with h | ⟨-, h⟩ | ⟨h, -⟩
    · omega
    · omega
    · cases hfmt.symm.trans h
  | color16 =>
    obtain ⟨hinside, heven, hrows, hfits⟩ := (spanOk_color16 hfmt offset len).1 hok
    rcases h with h | ⟨h, -⟩ | ⟨-, h | h | h⟩
    · omega
    · cases hfmt.symm.trans h
    · exact h heven
    · exact h hrows
    · omega

theorem buffersPresent_of {s : State} (htx : s.txValid = true) (hfb : s.fbPresent = true) :
    s.buffersPresent = true := by
  rw [State.buffersPresent, htx, hfb]
  rfl

/-- The span test comes before the bus test (60_exceptions.md R221). -/
theorem execFlush_of_bad_span {s : State} (hop : s.op = none) (hpresent : s.buffersPresent = true) {offset len : Nat}
    (hspan : s.spanOk offset len = false) :
    execFlush offset len s = .next { s with response := some (.err .invalidParameter) } := by
  have hlatched : ¬ (s.latch (.flush offset len)).spanOk offset len = true := Bool.eq_false_iff.1 hspan
  rw [execFlush, start_idle hop, if_pos (by exact hpresent), if_neg hlatched]
  exact deliver_next.2 (raised_at_start hop _ _)

/-- Settles O44: each failure makes the span test fail. -/
theorem flushBadSpanInvalidParameter : Obligations.FlushBadSpanInvalidParameter :=
  fun _ _ _ hop htx hfb hspan => execFlush_of_bad_span hop (buffersPresent_of htx hfb) (spanOk_eq_false hspan)

/-- Settles O53: DESTROY has no test but that of the lifecycle. -/
theorem destroyReleasesTheBuffer : Obligations.DestroyReleasesTheBuffer := by
  intro s hop hlife
  have htakes : (s.latch .destroy).life.takesDestroy = true := by
    rcases hlife with h | h | h <;> rw [State.latch_life, h] <;> rfl
  show execDestroy s = _
  rw [execDestroy, start_idle hop, needLife_of htakes, deliver_next, delivered_go]
  simp [State.forgetTx, State.latch, hop]

/-! ## The bus test -/

/-- Step 3 comes to no SEND only where its curve is invalid (44_lifecycle.md R192). -/
theorem grayscaleFrames_of_no_send {s : State} (h : grayscaleSends s = false) :
    ∃ e, grayscaleFrames s.cfg = .error e := by
  cases hstep : s.cfg.grayscaleStep with
  | frames seq3 =>
    rw [grayscaleSends, hstep] at h
    cases h
  | programCurve =>
    rw [grayscaleSends, hstep] at h
    cases hlevels : gammaLevels s.cfg.curve with
    | ok levels =>
      have hok : curveOk s.cfg.curve = true := by rw [curveOk, hlevels]
      cases hok.symm.trans h
    | error e =>
      refine ⟨e, ?_⟩
      rw [grayscaleFrames, hstep]
      simp only [hlevels]

/-- A data burst of bytes that exist comes to the bus (10_state.md R33). -/
theorem execDataBurst_of_bytes {s : State} (hop : s.op = none) (hlife : s.life ≠ .destroyed) {n : Nat}
    (hsize : n ≤ txbufSize s.cfg) (hbytes : n = 0 ∨ s.txValid = true) :
    execDataBurst n s = needBus (s.latch (.dataBurst n)) (fallThrough (sendTx n (s.latch (.dataBurst n)))) := by
  have hexist : ¬ (n > 0 ∧ (s.latch (.dataBurst n)).txValid = false) := by
    rintro ⟨hpos, habsent⟩
    rcases hbytes with rfl | htx
    · omega
    · cases htx.symm.trans habsent
  rw [execDataBurst, start_idle hop, needLife_of (by exact takesMicro_of hlife), if_neg hexist,
    if_neg (by exact not_lt.2 hsize)]

section
variable {s : State} (hop : s.op = none) (hbus : s.busReady = false)
include hop hbus

theorem start_refused_by_bus {i : Instr} {accepts : Life → Bool} {body : State → Host.Outcome State Fault Refusal}
    (hlife : accepts s.life = true) :
    start i s (fun u => needLife accepts u (needBus u (body u))) = .refused .busNotAcquired := by
  rw [start_idle hop, needLife_of (by exact hlife), needBus_not (by exact hbus)]

theorem init_refused_by_bus (hlife : s.life = .uninitialized) : execInit s = .refused .busNotAcquired :=
  start_refused_by_bus hop hbus (by rw [hlife]; rfl)

theorem window_refused_by_bus (hlife : s.life.working = true) (xs ys xe ye : Byte) :
    execSetWindow xs ys xe ye s = .refused .busNotAcquired :=
  start_refused_by_bus hop hbus hlife

theorem blank_refused_by_bus (hlife : s.life.working = true) (on : Bool) :
    execBlank on s = .refused .busNotAcquired :=
  start_refused_by_bus hop hbus hlife

theorem gamma_refused_by_bus (hlife : s.life.working = true) {curve : Curve} (hvalid : ValidCurve curve) :
    execProgramGamma curve s = .refused .busNotAcquired := by
  have hok : curveOk curve = true := by rw [curveOk, gammaLevels_valid hvalid]
  rw [execProgramGamma, start_idle hop, needLife_of (by exact hlife), hok, needBusIf, if_pos rfl,
    needBus_not (by exact hbus)]

theorem precharge_refused_by_bus (hlife : s.life.working = true) (hvariant : s.cfg.hasPrecharge = true) {level : Byte}
    (hlegal : prechargeLegal level = true) : execProgramPrecharge (some level) s = .refused .busNotAcquired := by
  rw [execProgramPrecharge, start_idle hop, State.latch_cfg, if_pos hvariant, needLife_of (by exact hlife)]
  simp only [hlegal, if_true]
  exact needBus_not (s := s.latch _) hbus _

theorem flush_refused_by_bus (hpresent : s.buffersPresent = true) {offset len : Nat}
    (hspan : s.spanOk offset len = true) : execFlush offset len s = .refused .busNotAcquired := by
  rw [execFlush, start_idle hop, if_pos (by exact hpresent), if_pos (by exact hspan), needBus_not (by exact hbus)]

theorem dataBurst_refused_by_bus (hlife : s.life ≠ .destroyed) {n : Nat} (hsize : n ≤ txbufSize s.cfg)
    (hbytes : n = 0 ∨ s.txValid = true) : execDataBurst n s = .refused .busNotAcquired := by
  rw [execDataBurst_of_bytes hop hlife hsize hbytes, needBus_not (by exact hbus)]

/-- A row with a frame to send comes to a SEND. -/
theorem row_refused_by_bus (hlife : s.life ≠ .destroyed) {i : Instr}
    (hport : (encode i).port = .send ∨ (encode i).port = .frame ∨ (encode i).port = .initStep)
    (hframes : framesOf s.cfg i ≠ []) : exec i s = .refused .busNotAcquired := by
  cases i with
  | init | setWindow | programGamma | blank | flush | destroy | reserved0 | reserved8 | reserved9 | reservedA
  | reservedB | reservedC | reservedD | reservedE | reservedF | dataBurst =>
    rcases hport with h | h | h <;> cases h
  | programPrecharge level => cases level <;> rcases hport with h | h | h <;> cases h
  | windowTrailerFrame =>
    have hsends : trailerSends (s.latch .windowTrailerFrame) = true := by
      have hlist : s.cfg.windowTrailer ≠ [] := hframes
      simpa [trailerSends, List.isEmpty_iff] using hlist
    exact micro_noBus hop hbus hlife hsends _
  | initStep03 =>
    have hsends : grayscaleSends (s.latch .initStep03) = true := by
      by_contra hno
      obtain ⟨e, he⟩ := grayscaleFrames_of_no_send (Bool.eq_false_iff.2 hno)
      rw [State.latch_cfg] at he
      exact hframes (by rw [framesOf, he])
    exact micro_noBus hop hbus hlife hsends _
  | _ => exact micro_noBus hop hbus hlife rfl _

end

/-! An instruction that answers a next state without the bus came to no SEND. -/

theorem busUntouched_of_response {t : State} {r : Option Response} (h : t = { s with response := r }) :
    BusUntouched s t := by
  subst h
  exact ⟨rfl, rfl, rfl⟩

section
variable {s : State} (hbus : s.busReady = false)
include hbus

theorem no_next_with_needBus {i : Instr} {t : State} {accepts : Life → Bool}
    {body : State → Host.Outcome State Fault Refusal} :
    start i s (fun u => needLife accepts u (needBus u (body u))) ≠ .next t := by
  intro h
  have hready := (needBus_next (needLife_next (start_next h).2).2).1
  cases hbus.symm.trans hready

theorem micro_untouched {i : Instr} {t : State} {g : State → Bool} {f : State → Run} (h : micro i s g f = .next t)
    (hquiet : g (s.latch i) = false → BusUntouched s (f (s.latch i)).fallen) : BusUntouched s t := by
  obtain ⟨-, -, hready, rfl⟩ := micro_next h
  refine hquiet (Bool.eq_false_iff.2 fun hsends => ?_)
  cases hbus.symm.trans (hready hsends)

theorem gamma_untouched {t : State} {curve : Curve} (h : execProgramGamma curve s = .next t) : BusUntouched s t := by
  obtain ⟨hop, hbody⟩ := start_next h
  have hready := (needBusIf_next (needLife_next hbody).2).1
  cases hlevels : gammaLevels curve with
  | ok levels =>
    cases hbus.symm.trans (hready (by rw [curveOk, hlevels]))
  | error e =>
    rw [gamma_next h, gammaProgram_of_error hlevels, raised_at_start hop]
    exact busUntouched_of_response rfl

theorem precharge_untouched {t : State} {level : Option Byte} (h : execProgramPrecharge level s = .next t) :
    BusUntouched s t := by
  obtain ⟨hop, hbody⟩ := start_next h
  have hraised : deliver (raise .invalidParameter (s.latch (.programPrecharge level))) = .next t → BusUntouched s t := by
    intro hend
    rw [← deliver_next.1 hend, raised_at_start hop]
    exact busUntouched_of_response rfl
  split at hbody
  · obtain ⟨-, hbody⟩ := needLife_next hbody
    split at hbody
    · exact hraised hbody
    · split at hbody
      · cases hbus.symm.trans (needBus_next hbody).1
      · exact hraised hbody
  · exact hraised hbody

theorem dataBurst_needs_bus {t : State} {n : Nat} : execDataBurst n s ≠ .next t := by
  intro h
  obtain ⟨-, hbody⟩ := needLife_next (start_next h).2
  split at hbody
  · cases hbody
  · split at hbody
    · cases hbody
    · cases hbus.symm.trans (needBus_next hbody).1

theorem exec_untouched_without_bus {i : Instr} {t : State} (h : exec i s = .next t) : BusUntouched s t := by
  cases i with
  | init => exact absurd (show execInit s = .next t from h) (no_next_with_needBus hbus)
  | setWindow xs ys xe ye =>
    exact absurd (show execSetWindow xs ys xe ye s = .next t from h) (no_next_with_needBus hbus)
  | blank on => exact absurd (show execBlank on s = .next t from h) (no_next_with_needBus hbus)
  | programGamma curve => exact gamma_untouched hbus h
  | programPrecharge level => exact precharge_untouched hbus h
  | flush offset len =>
    rcases flush_next h with ⟨-, e, ht⟩ | ⟨-, -, hready, -⟩
    · exact busUntouched_of_response ht
    · cases hbus.symm.trans hready
  | destroy =>
    obtain ⟨-, -, rfl⟩ := destroy_next h
    exact ⟨rfl, rfl, rfl⟩
  | dataBurst n => exact absurd h (dataBurst_needs_bus hbus)
  | reserved0 | reserved8 | reserved9 | reservedA | reservedB | reservedC | reservedD | reservedE | reservedF =>
    exact busUntouched_of_response (answerInvalid_next h).2
  | windowTrailerFrame =>
    refine micro_untouched hbus h fun hquiet => ?_
    have hempty : s.cfg.windowTrailer = [] := by simpa [trailerSends] using hquiet
    rw [hempty]
    exact ⟨rfl, rfl, rfl⟩
  | initStep03 =>
    refine micro_untouched hbus h fun hquiet => ?_
    obtain ⟨e, he⟩ := grayscaleFrames_of_no_send hquiet
    rcases stepGrayscale_eq (s.latch .initStep03) with ⟨e', -, hraise⟩ | ⟨gray, f, hgray, -⟩
    · rw [hraise]
      exact ⟨rfl, rfl, rfl⟩
    · cases he.symm.trans hgray
  | _ => exact micro_untouched hbus h nofun

end

/-- Settles O22: each operation that comes to a SEND passes its other tests and meets the bus test. -/
theorem busNotAcquiredRefused : Obligations.BusNotAcquiredRefused := by
  intro s hop hbus
  refine ⟨fun hlife i hport hframes => row_refused_by_bus hop hbus hlife hport hframes,
    fun hlife => init_refused_by_bus hop hbus hlife, fun hlife => ?_,
    fun _ _ htx hfb hspan => flush_refused_by_bus hop hbus (buffersPresent_of htx hfb) hspan,
    fun hlife _ hsize hbytes => dataBurst_refused_by_bus hop hbus hlife hsize hbytes,
    fun _ _ h => exec_untouched_without_bus hbus h⟩
  have hworking := working_of_on_or_blanked hlife
  exact ⟨window_refused_by_bus hop hbus hworking, fun _ hvalid => gamma_refused_by_bus hop hbus hworking hvalid,
    fun _ hvariant hlevel => precharge_refused_by_bus hop hbus hworking hvariant (decide_eq_true hlevel),
    blank_refused_by_bus hop hbus hworking⟩

end Sys2Proof.Machine
end

section
/-! PROOFS of the family other, completions: what the operations and rows that send frames leave where the bus answers. -/

namespace Sys2Proof.Machine

/-! ## Plans written out -/

theorem framePlan_params {reg : Byte} {params : List Byte} (h : params ≠ []) :
    framePlan ⟨reg, params⟩ = [(.cmd, [reg]), (.data, params)] := by
  cases params with
  | nil => exact absurd rfl h
  | cons x xs => rfl

theorem planOf_single (f : Frame) : planOf [f] = framePlan f := by simp

theorem issued_single (ans : Nat → BusAnswer) (n : Nat) (p : Planned) : issued ans n [p] = [⟨p.1, p.2, ans n⟩] := by
  cases ha : ans n <;> simp [issued, ha]

theorem levelBytes_ne_nil (curve : Curve) : levelBytes curve ≠ [] := by simp [levelBytes]

/-- The bursts of `GammaProgram` of a valid curve (41_gamma.md R132). -/
theorem planOf_gammaFrames (cfg : Cfg) (curve : Curve) :
    planOf (gammaFrames cfg (levelBytes curve)) =
      [(.cmd, [0xB8]), (.data, levelBytes curve), (.cmd, [cfg.regGammaEnd])] := by
  rw [gammaFrames, planOf_cons, planOf_single, frameGamma, framePlan_params (levelBytes_ne_nil curve)]
  rfl

/-- The bursts of `SET_WINDOW` (42_window.md R150). -/
theorem planOf_windowFrames (cfg : Cfg) (ys ye : Byte) :
    planOf (windowFrames cfg ys ye) =
      [(.cmd, [cfg.regSetColumn]), (.data, [28, 91]), (.cmd, [cfg.regSetRow]), (.data, [ys, ye])] ++
        planOf cfg.windowTrailer := by
  rw [windowFrames, planOf_append]
  rfl

/-- A list of frames that ends with a command leaves the select line at CMD. -/
theorem selectAfter_command (d : Option Select) (fs : List Frame) (reg : Byte) :
    selectAfter d (okBursts (planOf (fs ++ [⟨reg, []⟩]))) = some .cmd := by
  rw [planOf_append, okBursts, List.map_append]
  exact selectAfter_concat d _ ⟨.cmd, [reg], .ok⟩

/-! ## Rows run on their own -/

section
variable {s : State} (hready : s.Ready) (hlife : s.life ≠ .destroyed)
include hready hlife

/-- A row whose bursts end with a failed one. -/
theorem row_failed {i : Instr} {g : State → Bool} {f : State → Run} {plan : List Planned} {bs : List Burst}
    (hf : f (s.latch i) = (s.latch i).emit plan) (hissued : issued s.answerTo s.asked plan = bs)
    (hfail : statusAfter bs = .raised .busTransferFailed) :
    micro i s g f = .next { s with
      dc := selectAfter s.dc bs, asked := s.asked + bs.length, response := some (.err .busTransferFailed),
      trace := s.trace ++ bs } := by
  rw [micro_ready hready hlife, hf, emit_latch_eq hissued, hfail]
  simp [Run.fallen, State.latch, hready.idle]

/-- A row that also changes the working registers, its bursts answered `ok`: these end with it. -/
theorem row_work_ready {i : Instr} {g : State → Bool} {f : State → Run} {plan : List Planned} {w : Working → Working}
    (hf : f (s.latch i) = ((s.latch i).emit plan).work w) (hok : s.NextOk plan.length) :
    micro i s g f = .next { s with
      dc := selectAfter s.dc (okBursts plan), asked := s.asked + plan.length, response := none,
      trace := s.trace ++ okBursts plan } := by
  rw [micro_ready hready hlife, hf, emit_allOk (s := s.latch i) hok]
  simp [Run.go, Run.work, Run.fallen, State.work, State.latch, hready.idle]

/-- A row of one frame with parameters, both bursts answered `ok`. -/
theorem row_params_ready (i : Instr) (g : State → Bool) {f : State → Run} {reg : Byte} {params : List Byte}
    (hparams : params ≠ []) (hf : f (s.latch i) = sendFrames [⟨reg, params⟩] (s.latch i)) (hok : s.NextOk 2) :
    micro i s g f = .next { s with
      dc := some .data, asked := s.asked + 2, response := none,
      trace := s.trace ++ [⟨.cmd, [reg], .ok⟩, ⟨.data, params, .ok⟩] } := by
  have hplan : planOf [⟨reg, params⟩] = [(.cmd, [reg]), (.data, params)] := by
    rw [planOf_single, framePlan_params hparams]
  rw [micro_frames_ready hready hlife i [⟨reg, params⟩] g f hf (hplan ▸ hok), hplan]
  rfl

/-- A row of one command, its burst answered `ok`. -/
theorem row_command_ready (i : Instr) (g : State → Bool) {f : State → Run} {reg : Byte}
    (hf : f (s.latch i) = sendFrames [⟨reg, []⟩] (s.latch i)) (hok : s.NextOk 1) :
    micro i s g f = .next { s with
      dc := some .cmd, asked := s.asked + 1, response := none, trace := s.trace ++ [⟨.cmd, [reg], .ok⟩] } :=
  micro_frames_ready hready hlife i [⟨reg, []⟩] g f hf hok

end

theorem nextOk_one {s : State} (h : s.answerTo s.asked = .ok) : s.NextOk 1 := by
  intro k hk
  rwa [Nat.lt_one_iff.1 hk]

theorem nextOk_two {s : State} (h : s.answerTo s.asked = .ok) (h' : s.answerTo (s.asked + 1) = .ok) : s.NextOk 2 := by
  intro k hk
  match k with
  | 0 => exact h
  | 1 => exact h'

theorem send_eq_sendFrames (reg : Byte) (params : List Byte) (s : State) :
    send reg params s = sendFrames [⟨reg, params⟩] s := by
  rw [sendFrames_eq_emit, planOf_single]
  exact send_eq_emit ⟨reg, params⟩ s

/-- Settles O24: the four cases are those of the bursts issued from the plan of one frame. -/
theorem sendByBusAnswers : Obligations.SendByBusAnswers := by
  intro s reg params hready hlife
  have hplan := send_eq_emit ⟨reg, params⟩ (s.latch (.send reg params))
  have hframes := send_eq_sendFrames reg params (s.latch (.send reg params))
  refine ⟨fun hfail => ?_, fun hok hparams => ?_, fun hok hparams hfail => ?_, fun hok hparams hok' => ?_⟩
  · have hissued : issued s.answerTo s.asked (framePlan ⟨reg, params⟩) = [⟨.cmd, [reg], .fail⟩] := by
      have hstop : s.answerTo s.asked ≠ .ok := by rw [hfail]; nofun
      cases params <;> rw [framePlan, issued_cons_stop hstop, hfail]
    exact row_failed hready hlife hplan hissued rfl
  · subst hparams
    exact row_command_ready hready hlife _ _ hframes (nextOk_one hok)
  · have hissued : issued s.answerTo s.asked (framePlan ⟨reg, params⟩) =
        [⟨.cmd, [reg], .ok⟩, ⟨.data, params, .fail⟩] := by
      have hstop : s.answerTo (s.asked + 1) ≠ .ok := by rw [hfail]; nofun
      rw [framePlan_params hparams, issued_cons_ok hok, issued_cons_stop hstop, hfail]
    exact row_failed hready hlife hplan hissued rfl
  · exact row_params_ready hready hlife _ _ hparams hframes (nextOk_two hok hok')

/-- Settles O25: each row is one frame. -/
theorem namedFramesComplete : Obligations.NamedFramesComplete := by
  intro s hready hlife
  refine ⟨fun hok levels => ?_, fun hok => row_command_ready hready hlife _ _ rfl hok,
    fun hok => row_params_ready hready hlife _ _ (List.cons_ne_nil _ _) rfl hok,
    fun hok _ _ => row_params_ready hready hlife _ _ (List.cons_ne_nil _ _) rfl hok,
    fun hok _ => row_params_ready hready hlife _ _ (List.cons_ne_nil _ _) rfl hok,
    fun hok => row_command_ready hready hlife _ _ rfl hok, fun hok => row_command_ready hready hlife _ _ rfl hok⟩
  have hlevels : levels.toList ≠ [] := by
    rw [← List.length_pos_iff]
    simp
  exact row_params_ready hready hlife _ _ hlevels rfl hok

theorem remapFrames_eq (cfg : Cfg) :
    remapFrames cfg = Frames.toList (if cfg.rotate = .deg0 then cfg.initSeq.remap0 else cfg.initSeq.remap180) := by
  unfold remapFrames
  cases cfg.rotate <;> rfl

/-- Settles O26: each row sends the frames of its list. -/
theorem configuredFramesComplete : Obligations.ConfiguredFramesComplete := by
  intro s i fs hready hlife hok hrow
  have hsends : ∀ {g : State → Bool} {f : State → Run}, f (s.latch i) = sendFrames fs (s.latch i) →
      micro i s g f = .next { s with
        dc := selectAfter s.dc (okBursts (planOf fs)), asked := s.asked + (planOf fs).length, response := none,
        trace := s.trace ++ okBursts (planOf fs) } :=
    fun hf => micro_frames_ready hready hlife i fs _ _ hf hok
  rw [← remapFrames_eq] at hrow
  simp only [List.mem_cons, List.not_mem_nil, or_false, Prod.mk.injEq] at hrow
  rcases hrow with ⟨rfl, rfl⟩ | ⟨rfl, rfl⟩ | ⟨rfl, rfl⟩ | ⟨rfl, rfl⟩ | ⟨rfl, rfl⟩ | ⟨rfl, rfl⟩ | ⟨rfl, rfl⟩ |
    ⟨rfl, rfl⟩ | ⟨rfl, rfl⟩ | ⟨rfl, rfl⟩ | ⟨rfl, rfl⟩ | ⟨rfl, rfl⟩ | ⟨rfl, rfl⟩
  all_goals exact hsends rfl

/-- `GammaProgram` of a valid curve is the plan of its table and terminating command. -/
theorem gammaProgram_valid {curve : Curve} (hvalid : ValidCurve curve) (s : State) :
    ∃ f, gammaProgram curve s = (s.emit (planOf (gammaFrames s.cfg (levelBytes curve)))).work f := by
  rcases gammaProgram_eq curve s with ⟨e, he, -⟩ | ⟨levels, f, hlevels, hprogram⟩
  · cases (gammaLevels_valid hvalid).symm.trans he
  · cases (gammaLevels_valid hvalid).symm.trans hlevels
    exact ⟨f, hprogram⟩

/-- Settles O27: by what the configuration has step 3 do. -/
theorem grayscaleStepByConfiguration : Obligations.GrayscaleStepByConfiguration := by
  intro s hready hlife
  refine ⟨fun hstep hvalid hok => ?_, fun hstep hinvalid => ?_, fun seq3 hstep hok => ?_⟩
  · obtain ⟨w, hprogram⟩ := gammaProgram_valid hvalid (s.latch .initStep03)
    have hplan : planOf (gammaFrames s.cfg (levelBytes s.cfg.curve)) = _ := planOf_gammaFrames s.cfg s.cfg.curve
    have hf : stepGrayscale (s.latch .initStep03) =
        ((s.latch .initStep03).emit (planOf (gammaFrames s.cfg (levelBytes s.cfg.curve)))).work w := by
      rw [stepGrayscale, State.latch_cfg, hstep]
      exact hprogram
    rw [hplan] at hf
    exact row_work_ready hready hlife hf hok
  · obtain ⟨e, he⟩ := gammaLevels_invalid hinvalid
    obtain ⟨i, v, c, rfl⟩ := gammaLevels_error he
    have hf : stepGrayscale (s.latch .initStep03) = raise (.invalidCurve i v c) (s.latch .initStep03) := by
      rw [stepGrayscale, State.latch_cfg, hstep]
      exact gammaProgram_of_error he _
    refine ⟨i, v, c, he, ?_⟩
    show execInitStep03 s = _
    rw [execInitStep03, micro_ready hready hlife, hf, raised_micro_at_start hready.idle]
  · exact micro_frames_ready hready hlife _ _ _ _ (by rw [stepGrayscale, State.latch_cfg, hstep]) hok

/-! ## The data burst -/

theorem dataBurst_ready {s : State} (hready : s.Ready) (hlife : s.life ≠ .destroyed) {n : Nat}
    (hsize : n ≤ txbufSize s.cfg) (hbytes : n = 0 ∨ s.txValid = true) :
    execDataBurst n s = .next (sendTx n (s.latch (.dataBurst n))).fallen := by
  rw [execDataBurst_of_bytes hready.idle hlife hsize hbytes, needBus_of (by exact hready.bus)]
  rfl

theorem txBytes_length (s : State) (n : Nat) : (s.txBytes n).length = n := by simp [State.txBytes]

theorem txBytes_getElem? {s : State} {n k : Nat} (h : k < n) : (s.txBytes n)[k]? = some (s.txByte k) := by
  simp [State.txBytes, h]

/-- A burst of bytes that exist, by its answer. -/
theorem dataBurst_sends {s : State} (hready : s.Ready) (hlife : s.life ≠ .destroyed) {n : Nat}
    (hsize : n ≤ txbufSize s.cfg) (hpos : 0 < n) (htx : s.txValid = true) {a : BusAnswer}
    (ha : s.answerTo s.asked = a) :
    execDataBurst n s = .next (Run.fallen ⟨{ s.latch (.dataBurst n) with
      trace := s.trace ++ [⟨.data, s.txBytes n, a⟩], asked := s.asked + 1, dc := some .data }, statusOf a⟩) := by
  have hissued : issued s.answerTo s.asked [(.data, s.txBytes n)] = [⟨.data, s.txBytes n, a⟩] := by
    rw [issued_single, ha]
  rw [dataBurst_ready hready hlife hsize (.inr htx), sendTx_pos hpos]
  exact congrArg (fun r => Host.Outcome.next (Run.fallen r)) (emit_latch_eq hissued)

/-- Settles O29: the two faults come before the bus, and the burst is one of the bytes of `TX` in address order. -/
theorem dataBurstSendsScratchBytes : Obligations.DataBurstSendsScratchBytes := by
  intro s n hready hlife hsize
  have hmicro : ∀ m, (s.latch (.dataBurst m)).life.takesMicro = true := fun _ => takesMicro_of hlife
  refine ⟨fun hzero => ?_, fun hpos htx ha => ?_, fun hpos htx ha => ?_, fun hpos htx => ?_, fun m htx hm => ?_⟩
  · subst hzero
    show execDataBurst 0 s = _
    rw [dataBurst_ready hready hlife hsize (.inl rfl), sendTx_zero, fallen_go]
    simp [State.latch, hready.idle]
  · refine ⟨s.txBytes n, txBytes_length s n, fun k hk => txBytes_getElem? hk, ?_⟩
    show execDataBurst n s = _
    rw [dataBurst_sends hready hlife hsize hpos htx ha]
    simp [Run.fallen, statusOf, State.latch, hready.idle]
  · refine ⟨s.txBytes n, txBytes_length s n, fun k hk => txBytes_getElem? hk, ?_⟩
    show execDataBurst n s = _
    rw [dataBurst_sends hready hlife hsize hpos htx ha]
    simp [Run.fallen, statusOf, State.latch, hready.idle]
  · show execDataBurst n s = _
    rw [execDataBurst, start_idle hready.idle, needLife_of (hmicro n), if_pos ⟨hpos, htx⟩]
  · have hexist : ¬ (m > 0 ∧ (s.latch (.dataBurst m)).txValid = false) := fun h => by cases htx.symm.trans h.2
    show execDataBurst m s = _
    rw [execDataBurst, start_idle hready.idle, needLife_of (hmicro m), if_neg hexist, if_pos (by exact hm)]

/-! ## Requests of the host -/

/-- A request whose body is a plan that went through. -/
theorem delivered_emit_allOk {s : State} (hop : s.op = none) (i : Instr) {plan : List Planned}
    (hok : s.NextOk plan.length) (w : Working → Working) :
    (((s.latch i).emit plan).work w).delivered = { s with
      dc := selectAfter s.dc (okBursts plan), asked := s.asked + plan.length, response := some .ok,
      trace := s.trace ++ okBursts plan } := by
  rw [emit_allOk (s := s.latch i) hok]
  simp [Run.go, Run.work, Run.delivered, State.work, State.latch, hop]

/-- Settles O32: the body is the plan of the table and the terminating command. -/
theorem programGammaCompletes : Obligations.ProgramGammaCompletes := by
  intro s curve hready hlife hvalid hok
  have hworking : (s.latch (.programGamma curve)).life.working = true := working_of_on_or_blanked hlife
  obtain ⟨w, hprogram⟩ := gammaProgram_valid hvalid (s.latch (.programGamma curve))
  rw [State.latch_cfg, planOf_gammaFrames] at hprogram
  show execProgramGamma curve s = _
  rw [execProgramGamma, start_idle hready.idle, needLife_of hworking, needBusIf_of (by exact hready.bus), hprogram]
  exact deliver_next.2 (delivered_emit_allOk hready.idle _ (by exact hok) w)

/-- Settles O34: the body is one frame with one parameter. -/
theorem programPrechargeCompletes : Obligations.ProgramPrechargeCompletes := by
  intro s level hready hlife hvariant hlevel hok
  have hworking : (s.latch (.programPrecharge (some level))).life.working = true := working_of_on_or_blanked hlife
  have hlegal : prechargeLegal level = true := decide_eq_true hlevel
  show execProgramPrecharge (some level) s = _
  rw [execProgramPrecharge, start_idle hready.idle, State.latch_cfg, if_pos hvariant, needLife_of hworking]
  simp only [hlegal, if_true]
  rw [needBus_of (by exact hready.bus), sendFrames_eq_emit]
  exact deliver_next.2 (delivered_emit_allOk hready.idle (.programPrecharge (some level))
    (plan := planOf [framePrecharge s.cfg level]) hok id)

theorem window_ready {s : State} (hready : s.Ready) (hlife : s.life.working = true) (xs ys xe ye : Byte) :
    execSetWindow xs ys xe ye s = .next (windowBody ys ye (s.latch (.setWindow xs ys xe ye))).delivered := by
  rw [execSetWindow, start_idle hready.idle, needLife_of (by exact hlife), needBus_of (by exact hready.bus)]
  rfl

/-- Settles O37: the body is the plan of the window's frames, after which the window is recorded. -/
theorem setWindowCompletes : Obligations.SetWindowCompletes := by
  intro s xs ys xe ye hready hlife hok
  have hok' : (s.latch (.setWindow xs ys xe ye)).forgetWin.NextOk (planOf (windowFrames s.cfg ys ye)).length := by
    rw [planOf_windowFrames, List.length_append]
    exact hok
  show execSetWindow xs ys xe ye s = _
  rw [window_ready hready (working_of_on_or_blanked hlife), windowBody, State.latch_cfg, sendFrames_eq_emit,
    emit_allOk hok', Run.andThen_go, delivered_go, planOf_windowFrames]
  simp [State.setWin, State.forgetWin, State.latch, hready.idle, okBursts, selectAfter_cons]
  omega

theorem blank_ready {s : State} (hready : s.Ready) (hlife : s.life.working = true) (on : Bool) :
    execBlank on s = .next (blankBody on (s.latch (.blank on))).delivered := by
  rw [execBlank, start_idle hready.idle, needLife_of (by exact hlife), needBus_of (by exact hready.bus)]
  rfl

theorem planOf_blankFrame (cfg : Cfg) (on : Bool) :
    planOf [blankFrame cfg on] = [(.cmd, [if on then cfg.regDisplayOff else cfg.regDisplayOn])] := by
  cases on <;> rfl

/-- Settles O52: the body is one command, and `life` is written behind it. -/
theorem blankByBusAnswer : Obligations.BlankByBusAnswer := by
  intro s on hready hlife
  have hworking := working_of_on_or_blanked hlife
  have hissued : ∀ a, s.answerTo s.asked = a → issued s.answerTo s.asked (planOf [blankFrame s.cfg on]) =
      [⟨.cmd, [if on then s.cfg.regDisplayOff else s.cfg.regDisplayOn], a⟩] := by
    rintro a rfl
    rw [planOf_blankFrame, issued_single]
  refine ⟨fun ha => ?_, fun ha => ?_⟩
  all_goals
    show execBlank on s = _
    rw [blank_ready hready hworking, blankBody, sendFrames_eq_emit, State.latch_cfg, emit_latch_eq (hissued _ ha)]
    simp [statusAfter, statusOf, Run.andThen, Run.go, Run.delivered, selectAfter, State.latch, hready.idle]

/-! ## INIT -/

theorem init_ready {s : State} (hready : s.Ready) (hlife : s.life = .uninitialized) :
    execInit s = .next (initEnd (runSteps initSteps (s.latch .init).beginInit)).delivered := by
  have htakes : (s.latch .init).life.takesInit = true := by rw [State.latch_life, hlife]; rfl
  rw [execInit, start_idle hready.idle, needLife_of htakes, needBus_of (by exact hready.bus)]
  rfl

theorem selectAfter_initFrames (d : Option Select) (cfg : Cfg) (gray : List Frame) :
    selectAfter d (okBursts (planOf (initFrames cfg gray))) = some .cmd := by
  rw [initFrames, initTail, ← List.append_assoc]
  exact selectAfter_command d _ cfg.regDisplayOn

theorem selectAfter_initHead (d : Option Select) (cfg : Cfg) :
    selectAfter d (okBursts (planOf (initHead cfg))) = some .cmd :=
  selectAfter_command d _ cfg.regDisplayOff

/-- Settles O50: the power-up sequence is the plan of its frames. -/
theorem initCompletes : Obligations.InitCompletes := by
  intro s gray hready hlife hgray hok
  show execInit s = _
  rw [init_ready hready hlife]
  rcases initSequence_eq (s.latch .init).beginInit with ⟨e, he, -⟩ | ⟨gray', w, hgray', hrun⟩
  · cases hgray.symm.trans he
  · cases hgray.symm.trans hgray'
    rw [hrun, emit_allOk (by exact hok)]
    simp [initEnd, Run.go, Run.work, Run.delivered, State.forgetTx, selectAfter_initFrames, State.work,
      State.beginInit, State.latch, hready.idle]

/-- Settles O51: by the ends of INIT; and where step 3 raises, the sequence is the plan of steps 1 and 2, then that error. -/
theorem failedInitReturnsToUninitialized : Obligations.FailedInitReturnsToUninitialized := by
  refine ⟨fun s t e h herr => ?_, fun s e hready hlife hgray hok => ?_⟩
  · obtain ⟨hend, hwin⟩ := init_ended h
    rcases hend with ⟨hresponse, _, _, _, _⟩ | ⟨_, _, hop, hlife, htxValid, htx⟩ | ⟨_, hresponse, _, _, _, _⟩
    · cases hresponse.symm.trans herr
    · exact ⟨hlife, htxValid, hwin, hop, htx, init_inputs h⟩
    · cases hresponse.symm.trans herr
  · show execInit s = _
    rw [init_ready hready hlife]
    rcases initSequence_eq (s.latch .init).beginInit with ⟨e', he', hrun⟩ | ⟨gray, w, hgray', -⟩
    · cases hgray.symm.trans he'
      rw [hrun, emit_allOk (by exact hok), Run.andThen_go]
      simp [initEnd, raise, Run.delivered, selectAfter_initHead, State.beginInit, State.latch, hlife, hready.idle]
    · cases hgray.symm.trans hgray'

end Sys2Proof.Machine
end

section
/-! PROOFS of the family other, the curve and the memories: which curves are accepted, which index is reported, reads after
block writes, and the events of the host and the platform. -/

namespace Sys2Proof.Machine

/-! ## The curve -/

theorem prefixSum_succ (curve : Curve) {i : Nat} (h : i + 1 < 15) :
    prefixSum curve (i + 1) = prefixSum curve i + curve[i + 1].toNat := by
  have hlen : i + 1 < curve.toList.length := by simpa using h
  rw [prefixSum, prefixSum, List.take_succ_eq_append_getElem hlen]
  simp

theorem levelBytes_getElem {curve : Curve} {i : Nat} (h : i < (levelBytes curve).length) :
    (levelBytes curve)[i] = BitVec.ofNat 8 (prefixSum curve i) := by
  simp [levelBytes]

theorem levelBytes_length (curve : Curve) : (levelBytes curve).length = 15 := by simp [levelBytes]

/-- A valid curve's sums fit a byte, so that each level is its running sum (30_encoding.md R86). -/
theorem levelBytes_toNat {curve : Curve} (hvalid : ValidCurve curve) {i : Nat} (h : i < (levelBytes curve).length) :
    (levelBytes curve)[i].toNat = prefixSum curve i := by
  have hsum := hvalid.2 i (levelBytes_length curve ▸ h)
  rw [levelBytes_getElem, BitVec.toNat_ofNat]
  omega

/-- Settles O30: the accepted curves are the valid ones, their levels are the running sums, and each step adds at least 1. -/
theorem acceptedCurvesAreTheValidOnes : Obligations.AcceptedCurvesAreTheValidOnes := by
  intro curve
  refine ⟨⟨fun hvalid => ⟨_, gammaLevels_valid hvalid⟩, fun ⟨_, hlevels⟩ => (valid_of_gammaLevels hlevels).1⟩, ?_⟩
  intro levels hlevels
  obtain ⟨hvalid, rfl⟩ := valid_of_gammaLevels hlevels
  have hlen := levelBytes_length curve
  refine ⟨hlen, fun i h => ?_, fun i h => ?_⟩
  · rw [levelBytes_toNat hvalid h]
    exact ⟨rfl, hvalid.2 i (hlen ▸ h)⟩
  · have hi : i + 1 < 15 := hlen ▸ h
    rw [levelBytes_toNat hvalid (by omega), levelBytes_toNat hvalid h, prefixSum_succ curve hi]
    have hstep := hvalid.1 (i + 1) hi (by omega)
    omega

/-- Settles O31: the loop from index 0 with the sum 0. -/
theorem firstFailingIndexReported : Obligations.FirstFailingIndexReported := by
  intro curve e h
  obtain ⟨i, v, c, rfl, hv, hearlier, hzero, hsum⟩ := gammaLoop_err (fun _ => rfl) h
  simp only [Passes, Nat.zero_add, ← prefixSum_eq] at hearlier hzero hsum ⊢
  refine ⟨i, v, c, rfl, hv, fun j hj => ?_, fun hc => ?_, fun hc => ?_⟩
  · obtain ⟨hle, hstep⟩ := hearlier j hj
    exact ⟨hle, fun hpos => hstep hpos.ne'⟩
  · exact ⟨Nat.pos_of_ne_zero (hzero hc).1, (hzero hc).2⟩
  · exact ⟨(hsum hc).1, fun hpos => (hsum hc).2 hpos.ne'⟩

/-! ## Memory -/

/-- Settles O56: the read after a block write, inside and outside the block. -/
theorem blockWriteThenRead : Obligations.BlockWriteThenRead := by
  intro m a bs
  refine ⟨fun k hk => ?_, fun x hx => ?_, fun hm => Memory.writeBytes_wf hm a bs⟩
  · rw [Memory.read?_writeBytes, if_pos ⟨by omega, by omega⟩, Nat.add_sub_cancel_left]
  · rw [Memory.read?_writeBytes, if_neg (by omega)]

theorem read?_ofCells_of_mem {len : Nat} {cells : List Host.Cell} {a : Nat} {b : Byte} (hb : (a, b) ∈ cells)
    (ha : a < len) (one : ∀ b', (a, b') ∈ cells → b' = b) : (Memory.ofCells len cells).read? a = some b := by
  refine Memory.read?_overlay_of_mem (List.mem_filter.2 ⟨hb, decide_eq_true ha⟩) fun b' hb' => one b' ?_
  exact (List.mem_filter.1 hb').1

theorem read?_ofCells_of_absent {len : Nat} {cells : List Host.Cell} {a : Nat}
    (h : len ≤ a ∨ ∀ b, (a, b) ∉ cells) : (Memory.ofCells len cells).read? a = none := by
  refine Memory.read?_overlay_of_not_mem fun b hb => ?_
  obtain ⟨hmem, hinside⟩ := List.mem_filter.1 hb
  have hinside : a < len := of_decide_eq_true hinside
  rcases h with hout | habsent
  · omega
  · exact habsent b hmem

/-! ## The events -/

section
variable {s : State} {rest : List Input} {a : Nat} {b : Byte}

theorem step_event {e : Event} (h : s.inbox = .event e :: rest) : step s = applyEvent e { s with inbox := rest } := by
  rw [step, h]

theorem step_hostWrite (h : s.inbox = .event (.hostWrite a b) :: rest) (ha : a < s.fbLen) :
    step s = .next { s with inbox := rest, fb := s.fb.write a b } := by
  rw [step_event h, applyEvent, if_pos (by exact ha)]

theorem step_hostWrite_outside (h : s.inbox = .event (.hostWrite a b) :: rest) (ha : s.fbLen ≤ a) :
    step s = .fault (.fbOutOfRange a) := by
  rw [step_event h, applyEvent, if_neg (by exact not_lt.2 ha)]

theorem step_hostWriteDuringFlush (h : s.inbox = .event (.hostWriteDuringFlush a b) :: rest) (ha : a < s.fbLen) :
    step s = .next { s with inbox := rest, fbRace := s.fbRace.write a b } := by
  rw [step_event h, applyEvent, if_pos (by exact ha)]

theorem step_hostWriteDuringFlush_outside (h : s.inbox = .event (.hostWriteDuringFlush a b) :: rest)
    (ha : s.fbLen ≤ a) : step s = .fault (.fbOutOfRange a) := by
  rw [step_event h, applyEvent, if_neg (by exact not_lt.2 ha)]

end

theorem fbByte_write (s : State) (rest : List Input) (a : Nat) (b : Byte) (x : Nat) :
    ({ s with inbox := rest, fb := s.fb.write a b } : State).fbByte x = if x = a then b else s.fbByte x := by
  simp only [State.fbByte, Memory.read?_write]
  split <;> rfl

/-- Settles O57: each event writes its own field, and the memories' reads after it. -/
theorem hostAndPlatformEvents : Obligations.HostAndPlatformEvents := by
  intro s rest
  refine ⟨fun a b h => ⟨fun ha => ?_, step_hostWrite_outside h⟩,
    fun a b h => ⟨fun ha => ?_, step_hostWriteDuringFlush_outside h⟩, fun len cells h => ?_,
    step_event, step_event, step_event⟩
  · refine ⟨_, step_hostWrite h ha, ?_, fun x hx => ?_, rfl⟩
    · rw [fbByte_write, if_pos rfl]
    · rw [fbByte_write, if_neg hx]
  · refine ⟨_, step_hostWriteDuringFlush h ha, ?_, fun x hx => ?_, rfl⟩
    · exact (Memory.read?_write ..).trans (if_pos rfl)
    · exact (Memory.read?_write ..).trans (if_neg hx)
  · refine ⟨_, step_event h, fun a b hb ha one => ?_, fun a ha => read?_ofCells_of_absent ha, rfl⟩
    exact congrArg (Option.getD · _) (read?_ofCells_of_mem hb ha one)

end Sys2Proof.Machine
end

section
/-! PROOFS of the family other, the pixel encoder: what FLUSH leaves, in both modes, and what its output is. -/

namespace Sys2Proof.Machine

/-! ## The output -/

/-- Settles O46: every output byte is a doubled nibble. -/
theorem outputIsOneDoubledBytePerPixel : Obligations.OutputIsOneDoubledBytePerPixel := by
  intro s offset len
  refine ⟨encodeSpan_length s offset len, fun b hb => ?_⟩
  obtain ⟨c, rfl | rfl⟩ := mem_encodeSpan hb
  · rw [dblLo_high, dblLo_low]
  · rw [dblHi_high, dblHi_low]

/-- Settles O48: the two answers of the free choice. -/
theorem racedBytesAreOldOrNew : Obligations.RacedBytesAreOldOrNew := by
  intro s a
  unfold State.fbSample
  cases hrace : s.fbRace.read? a with
  | none => exact ⟨.inl rfl, fun _ => rfl⟩
  | some new =>
    refine ⟨?_, nofun⟩
    cases hnew : Config.raceTakesNew s.raceDraw a with
    | true => exact .inr rfl
    | false => exact .inl rfl

/-- The output of a GRAY4 span, byte by byte, while the host writes nothing. -/
theorem encodeSpan_gray4 {s : State} (hfmt : s.cfg.srcFmt = .gray4) (hstable : s.FbStable) {offset len k : Nat}
    (hk : k < len) :
    (encodeSpan s offset len)[2 * k]? = some (dblLo (s.fbByte (offset + k))) ∧
      (encodeSpan s offset len)[2 * k + 1]? = some (dblHi (s.fbByte (offset + k))) := by
  rw [encodeSpan, hfmt, ← fbSample_stable hstable]
  exact encodeGray4_getElem? s offset len k hk

/-- The output of a COLOR16 span, byte by byte, while the host writes nothing. -/
theorem encodeSpan_color16 {s : State} (hfmt : s.cfg.srcFmt = .color16) (hstable : s.FbStable) {offset len y x : Nat}
    (hy : y < len / stride s.cfg) (hx : x < s.cfg.width) :
    (encodeSpan s offset len)[s.cfg.width * y + x]? = some
      (if s.cfg.color16Nibble = .high then dblHi (s.fbByte (offset + y * stride s.cfg + 2 * x + 1))
        else dblLo (s.fbByte (offset + y * stride s.cfg + 2 * x + 1))) := by
  rw [encodeSpan, hfmt, ← fbSample_stable hstable]
  refine (encodeColor16_getElem? s offset (stride s.cfg) s.cfg.width _ y x hy hx).trans ?_
  rw [encodePixel]
  cases s.cfg.color16Nibble <;> rfl

theorem spanOutput_gray4 {cfg : Cfg} (hfmt : cfg.srcFmt = .gray4) (len : Nat) : spanOutput cfg len = 2 * len := by
  rw [spanOutput, hfmt]

theorem spanOutput_color16 {cfg : Cfg} (hfmt : cfg.srcFmt = .color16) (len : Nat) :
    spanOutput cfg len = cfg.width * (len / stride cfg) := by
  rw [spanOutput, hfmt]

/-! ## A FLUSH that comes to the bus -/

theorem flush_ready {s : State} (hready : s.Ready) (hpresent : s.buffersPresent = true) {offset len : Nat}
    (hspan : s.spanOk offset len = true) :
    execFlush offset len s = .next (flushBody offset len (s.latch (.flush offset len))).delivered := by
  rw [execFlush, start_idle hready.idle, if_pos (by exact hpresent), if_pos (by exact hspan),
    needBus_of (by exact hready.bus)]
  rfl

/-- What FLUSH leaves where it came to the bus: the output in `TX`, one burst of it, and all else as it was. -/
structure Flushed (s : State) (offset len : Nat) (t : State) : Prop where
  dc : t.dc = some .data
  tx : ∀ k, t.tx.read? k = if k < spanOutput s.cfg len then (encodeSpan s offset len)[k]? else s.tx.read? k
  trace : t.trace = s.trace ++ (if spanOutput s.cfg len = 0 then []
    else [⟨.data, encodeSpan s offset len, s.answerTo s.asked⟩])
  fb : t.fb = s.fb.overlay s.fbRace
  cfg : t.cfg = s.cfg
  life : t.life = s.life
  win : t.win = s.win
  txValid : t.txValid = s.txValid
  txEpoch : t.txEpoch = s.txEpoch
  busReady : t.busReady = s.busReady
  busScript : t.busScript = s.busScript
  inbox : t.inbox = s.inbox

theorem flushBody_flushed (s : State) (offset len : Nat) :
    Flushed s offset len (flushBody offset len (s.latch (.flush offset len))).delivered := by
  obtain ⟨hinputs, hscratch, hlife, hwin⟩ := flushBody_busOnly offset len (s.latch (.flush offset len))
  refine ⟨?_, flush_tx rfl, ?_, hinputs.fb, hinputs.cfg, hlife, hwin, hscratch.txValid, hscratch.txEpoch,
    hinputs.busReady, hinputs.busScript, hinputs.inbox⟩
  all_goals
    rw [flush_body_eq]
    split
  · rfl
  · rw [Run.delivered_dc, State.emit, issued_single]
    rfl
  · exact (List.append_nil _).symm
  · rw [Run.delivered_trace, emit_trace, issued_single]
    rfl

/-- FLUSH answers `Ok` where its burst was answered `ok`, or none was sent (43_pixel_encoder.md R177). -/
theorem flushBody_ok {s : State} {offset len : Nat} (h : spanOutput s.cfg len = 0 ∨ s.answerTo s.asked = .ok) :
    (flushBody offset len (s.latch (.flush offset len))).delivered.response = some .ok ∧
      (flushBody offset len (s.latch (.flush offset len))).delivered.op = none := by
  rw [flush_body_eq]
  split
  · exact ⟨rfl, rfl⟩
  · rename_i hsome
    have hok := h.resolve_left hsome
    rw [emit_allOk (s := encodeStep offset len (s.latch (.flush offset len))) (by exact nextOk_one hok)]
    exact ⟨rfl, rfl⟩

/-- A FLUSH that answered `Ok` came to the bus. -/
theorem flush_ok_flushed {s t : State} {offset len : Nat} (h : execFlush offset len s = .next t)
    (hok : t.response = some .ok) : s.spanOk offset len = true ∧ Flushed s offset len t := by
  rcases flush_next h with ⟨-, e, rfl⟩ | ⟨-, hspan, -, rfl⟩
  · cases hok
  · exact ⟨hspan, flushBody_flushed s offset len⟩

theorem Flushed.fb_stable {s t : State} {offset len : Nat} (h : Flushed s offset len t) (hstable : s.FbStable) :
    t.fb = s.fb := by
  have hrace : s.fbRace = [] := hstable
  rw [h.fb, hrace, Memory.overlay_nil]

/-- The one burst of a FLUSH, answered `ok` or not sent. -/
theorem Flushed.trace_ok {s t : State} {offset len : Nat} (h : Flushed s offset len t)
    (hok : spanOutput s.cfg len = 0 ∨ s.answerTo s.asked = .ok) :
    t.trace = s.trace ++ (if spanOutput s.cfg len = 0 then [] else [⟨.data, encodeSpan s offset len, .ok⟩]) := by
  rw [h.trace]
  split
  · rfl
  · rename_i hsome
    rw [hok.resolve_left hsome]

/-- Settles O45: a FLUSH that fails before its encode step changes the result only; any other leaves what `Flushed` says. -/
theorem flushEncodesBeforeSending : Obligations.FlushEncodesBeforeSending := by
  intro s t offset len h
  rcases flush_next h with ⟨-, e, rfl⟩ | ⟨-, -, -, rfl⟩
  · exact ⟨rfl, rfl, rfl, rfl, rfl, rfl, rfl, rfl, .inl ⟨⟨rfl, rfl, rfl⟩, rfl⟩⟩
  · have hend := flushBody_flushed s offset len
    refine ⟨hend.life, hend.win, hend.txValid, hend.txEpoch, hend.cfg, hend.busReady, hend.busScript, hend.inbox,
      .inr ⟨hend.dc, fun k hk => ?_, fun k hk => ?_, hend.trace⟩⟩
    · rw [hend.tx, if_pos hk]
    · rw [hend.tx, if_neg (not_lt.2 hk)]

/-- Settles O41: the span is legal, so FLUSH comes to the bus, and its output is that of the GRAY4 encoder. -/
theorem flushGray4Completes : Obligations.FlushGray4Completes := by
  intro s offset len hready htx hfb hfmt hstable hinside hfits hanswer
  have hout := spanOutput_gray4 hfmt len
  have hanswer' : spanOutput s.cfg len = 0 ∨ s.answerTo s.asked = .ok := hanswer.imp_left (by omega)
  obtain ⟨hresponse, hop⟩ := flushBody_ok (offset := offset) hanswer'
  have hend := flushBody_flushed s offset len
  refine ⟨_, encodeSpan s offset len,
    flush_ready hready (buffersPresent_of htx hfb) ((spanOk_gray4 hfmt offset len).2 ⟨hinside, hfits⟩), hresponse,
    by rw [encodeSpan_length, hout], fun k hk => encodeSpan_gray4 hfmt hstable hk, hout ▸ hend.tx, ?_, hend.dc, hop,
    hend.life, hend.win, hend.txValid, hend.txEpoch, hend.cfg, hend.fb_stable hstable⟩
  rw [hend.trace_ok hanswer', hout]
  simp only [mul_eq_zero, OfNat.ofNat_ne_zero, false_or]

/-- Settles O42: the span is legal, so FLUSH comes to the bus, and its output is that of the COLOR16 encoder. -/
theorem flushColor16Completes : Obligations.FlushColor16Completes := by
  intro s offset len hready htx hfb hfmt hstable hinside heven hrows hfits hanswer
  have hout := spanOutput_color16 hfmt len
  have hlen : (encodeSpan s offset len).length = s.cfg.width * (len / stride s.cfg) := by rw [encodeSpan_length, hout]
  rw [← hout] at hanswer
  obtain ⟨hresponse, hop⟩ := flushBody_ok (offset := offset) hanswer
  have hend := flushBody_flushed s offset len
  refine ⟨_, encodeSpan s offset len,
    flush_ready hready (buffersPresent_of htx hfb)
      ((spanOk_color16 hfmt offset len).2 ⟨hinside, heven, hrows, hfits⟩), hresponse, hlen,
    fun y x hy hx => encodeSpan_color16 hfmt hstable hy hx, ?_, ?_, hend.dc, hop, hend.life, hend.win, hend.txValid,
    hend.cfg, hend.fb_stable hstable⟩
  · rw [encodeSpan_length]
    exact hend.tx
  · rw [encodeSpan_length]
    exact hend.trace_ok hanswer

/-! ## Reading the output back -/

/-- A byte is its high half and its low half. -/
theorem byte_eq_halves (b : Byte) : b = b.extractLsb' 4 4 ++ b.extractLsb' 0 4 := by
  revert b; decide

/-- A byte of `TX` that a FLUSH wrote. -/
theorem Flushed.txByte {s t : State} {offset len k : Nat} {b : Byte} (h : Flushed s offset len t)
    (hk : k < spanOutput s.cfg len) (hb : (encodeSpan s offset len)[k]? = some b) : t.txByte k = b := by
  rw [State.txByte, h.tx, if_pos hk, hb]
  rfl

/-- Settles O40: either half of a doubled nibble is the nibble, and the two bytes of a source byte stand side by side. -/
theorem sourceRecoverableFromOutput : Obligations.SourceRecoverableFromOutput := by
  refine ⟨fun b => ⟨dblLo_high b, dblLo_low b, dblHi_high b, dblHi_low b⟩, ?_⟩
  intro s t offset len k hfmt hstable h hok hk
  obtain ⟨-, hend⟩ := flush_ok_flushed h hok
  have hout := spanOutput_gray4 hfmt len
  obtain ⟨hlow, hhigh⟩ := encodeSpan_gray4 hfmt hstable (offset := offset) hk
  rw [hend.txByte (by omega) hhigh, hend.txByte (by omega) hlow, dblHi_high, dblLo_low]
  exact byte_eq_halves _

/-- Where the byte of a pixel of a full frame stands: rows of `2 * m` pixels are `m` bytes. -/
theorem pixel_index {m px py height : Nat} (hx : px < 2 * m) (hy : py < height) :
    py * m + px / 2 < height * m ∧ 2 * m * py + px = 2 * (py * m + px / 2) + px % 2 := by
  have hrow : (py + 1) * m ≤ height * m := Nat.mul_le_mul_right m hy
  rw [Nat.succ_mul] at hrow
  rw [Nat.mul_assoc, Nat.mul_comm m py]
  omega

/-- Settles O49: pixel (`px`, `py`) is a nibble of byte `py * STRIDE + px / 2` of the frame, and that byte's two output bytes
are those of its two pixels. -/
theorem fullFramePixelPlacement : Obligations.FullFramePixelPlacement := by
  intro s t px py hfmt hpad heven hstable h hok hx hy
  obtain ⟨-, hend⟩ := flush_ok_flushed h hok
  obtain ⟨m, hm⟩ : ∃ m, s.cfg.width = 2 * m := ⟨s.cfg.width / 2, by omega⟩
  have hstride : stride s.cfg = m := by
    simp only [stride, hfmt]
    omega
  rw [hm] at hx
  rw [hstride] at hend
  obtain ⟨hinside, hindex⟩ := pixel_index hx hy
  obtain ⟨hlow, hhigh⟩ := encodeSpan_gray4 hfmt hstable (offset := 0) hinside
  have hout := spanOutput_gray4 hfmt (s.cfg.height * m)
  rw [hm, hindex, hend.tx, if_pos (by omega), gray4Pixel, hstride]
  rw [Nat.zero_add] at hlow hhigh
  rcases Nat.mod_two_eq_zero_or_one px with hpx | hpx
  · simp only [hpx, if_true, Nat.add_zero]
    rw [hlow, dblLo_eq]
  · simp only [hpx, one_ne_zero, if_false]
    rw [hhigh, dblHi_eq]

/-! ## REDRAW -/

/-- The output of whole rows is `WIDTH` bytes for each (20_memory.md R60). -/
theorem spanOutput_rows {cfg : Cfg} (hgray : cfg.srcFmt = .gray4 → cfg.rowPad = 0 ∧ cfg.width % 2 = 0)
    (hwidth : 0 < cfg.width) (rows : Nat) : spanOutput cfg (rows * stride cfg) = cfg.width * rows := by
  cases hfmt : cfg.srcFmt with
  | gray4 =>
    obtain ⟨hpad, heven⟩ := hgray hfmt
    have hstride : 2 * stride cfg = cfg.width := by
      simp only [stride, hfmt]
      omega
    rw [spanOutput_gray4 hfmt, Nat.mul_left_comm, hstride, Nat.mul_comm]
  | color16 =>
    have hstride : 0 < stride cfg := by
      simp only [stride, hfmt]
      omega
    rw [spanOutput_color16 hfmt, Nat.mul_div_cancel _ hstride]

/-- Whole rows of the panel that lie in `FB` are a legal span (43_pixel_encoder.md R166). -/
theorem spanOk_rows {s : State} (hgray : s.cfg.srcFmt = .gray4 → s.cfg.rowPad = 0 ∧ s.cfg.width % 2 = 0)
    (hwidth : 0 < s.cfg.width) {first rows : Nat} (hpanel : rows ≤ s.cfg.height)
    (hinside : (first + rows) * stride s.cfg ≤ s.fbLen) :
    s.spanOk (first * stride s.cfg) (rows * stride s.cfg) = true := by
  have hout := spanOutput_rows hgray hwidth rows
  have hfits : spanOutput s.cfg (rows * stride s.cfg) ≤ txbufSize s.cfg := by
    rw [hout]
    exact Nat.mul_le_mul_left _ hpanel
  rw [Nat.add_mul] at hinside
  cases hfmt : s.cfg.srcFmt with
  | gray4 => exact (spanOk_gray4 hfmt _ _).2 ⟨hinside, spanOutput_gray4 hfmt _ ▸ hfits⟩
  | color16 =>
    have heven : first * stride s.cfg % 2 = 0 := by
      simp only [stride, hfmt]
      rw [Nat.mul_left_comm, Nat.mul_mod_right]
    exact (spanOk_color16 hfmt _ _).2 ⟨hinside, heven, Nat.mul_mod_left .., spanOutput_color16 hfmt _ ▸ hfits⟩

/-- A FLUSH of whole rows of the panel, its burst answered `ok`. -/
theorem flush_rows {u : State} {cfg : Cfg} (hcfg : u.cfg = cfg) (hready : u.Ready) (hpresent : u.buffersPresent = true)
    (hgray : cfg.srcFmt = .gray4 → cfg.rowPad = 0 ∧ cfg.width % 2 = 0) (hwidth : 0 < cfg.width) {first rows : Nat}
    (hrows : 0 < rows) (hpanel : rows ≤ cfg.height) (hinside : (first + rows) * stride cfg ≤ u.fbLen)
    (hok : u.answerTo u.asked = .ok) :
    ∃ t bytes, execFlush (first * stride cfg) (rows * stride cfg) u = .next t ∧ t.response = some .ok ∧
      bytes.length = cfg.width * rows ∧ t.win = u.win ∧ t.trace = u.trace ++ [⟨.data, bytes, .ok⟩] := by
  subst hcfg
  have hend := flushBody_flushed u (first * stride u.cfg) (rows * stride u.cfg)
  have hout := spanOutput_rows hgray hwidth rows
  have hsome : spanOutput u.cfg (rows * stride u.cfg) ≠ 0 := by
    rw [hout]
    exact (Nat.mul_pos hwidth hrows).ne'
  refine ⟨_, encodeSpan u (first * stride u.cfg) (rows * stride u.cfg),
    flush_ready hready hpresent (spanOk_rows hgray hwidth hpanel hinside), (flushBody_ok (.inr hok)).1,
    by rw [encodeSpan_length, hout], hend.win, ?_⟩
  rw [hend.trace_ok (.inr hok), if_neg hsome]

/-- Settles O55: SET_WINDOW completes, and in the state it leaves FLUSH of the rows does. -/
theorem redrawSendsWindowThenRows : Obligations.RedrawSendsWindowThenRows := by
  intro s ys ye hready hlife htx hfb hgray hwidth _ hle hheight hinside hok
  have hwindow := setWindowCompletes s 0 ys (BitVec.ofNat 8 (s.cfg.width - 1)) ye hready hlife
    fun k hk => hok k (by omega)
  obtain ⟨u, hwindow, hresponse, hready', hcfg, hpresent, hlen, hanswer, hwin, htrace⟩ :
      ∃ u, exec (redrawWindow s.cfg ys ye) s = .next u ∧ u.response = some .ok ∧ u.Ready ∧ u.cfg = s.cfg ∧
        u.buffersPresent = true ∧ u.fbLen = s.fbLen ∧
        u.answerTo u.asked = s.answerTo (s.asked + (4 + (planOf s.cfg.windowTrailer).length)) ∧
        u.win = some ⟨28, 91, ys, ye⟩ ∧
        u.trace = s.trace ++ ([⟨.cmd, [s.cfg.regSetColumn], .ok⟩, ⟨.data, [28, 91], .ok⟩,
          ⟨.cmd, [s.cfg.regSetRow], .ok⟩, ⟨.data, [ys, ye], .ok⟩] ++ okBursts (planOf s.cfg.windowTrailer)) :=
    ⟨_, hwindow, rfl, ⟨hready.idle, hready.bus⟩, rfl, buffersPresent_of htx hfb, rfl, rfl, rfl, rfl⟩
  obtain ⟨t, bytes, hflush, hok', hbytes, hwin', htrace'⟩ :=
    flush_rows (first := ys.toNat) (rows := ye.toNat + 1 - ys.toNat) hcfg hready' hpresent hgray hwidth (by omega)
      (by omega) (by rwa [hlen, Nat.add_sub_cancel' (by omega)]) (hanswer.trans (hok _ (by omega)))
  refine ⟨t, bytes, ?_, hok', hbytes, hwin'.trans hwin, ?_⟩
  · rw [redraw, hwindow]
    exact (if_pos hresponse).trans hflush
  · rw [htrace', htrace]
    simp only [List.append_assoc]

end Sys2Proof.Machine
end

section
/-! PROOFS of the family other, noninterference: the rotation, and the bytes of `FB` outside a span. Both are two runs that
differ in a part of the state which the bus, the encoder and the end of an operation carry along unread. -/

namespace Sys2Proof.Machine

/-! ## A change of the state that is carried along -/

/-- A run with a change of the state it reached. -/
def Run.map (g : State → State) (r : Run) : Run := ⟨g r.st, r.status⟩

/-- A change of the state that the bus primitives and the end of an operation carry along. -/
structure Carried (g : State → State) : Prop where
  latch : ∀ s i, (g s).latch i = g (s.latch i)
  drive : ∀ s c, ({ g s with dc := c } : State) = g { s with dc := c }
  emit : ∀ s plan, (g s).emit plan = (s.emit plan).map g
  txBytes : ∀ s n, (g s).txBytes n = s.txBytes n
  delivered : ∀ r : Run, (r.map g).delivered = g r.delivered

theorem Run.map_andThen {g : State → State} {k k' : State → Run} (hk : ∀ s, k' (g s) = (k s).map g) (r : Run) :
    (r.map g).andThen k' = (r.andThen k).map g := by
  obtain ⟨s, _ | e | _⟩ := r
  · exact hk s
  · rfl
  · rfl

section
variable {g : State → State} (hg : Carried g)
include hg

theorem Carried.sendFrames (fs : List Frame) (s : State) : sendFrames fs (g s) = (sendFrames fs s).map g := by
  rw [sendFrames_eq_emit, sendFrames_eq_emit, hg.emit]

theorem Carried.sendTx (n : Nat) (s : State) : sendTx n (g s) = (sendTx n s).map g := by
  rcases Nat.eq_zero_or_pos n with rfl | hn
  · rw [sendTx_zero, sendTx_zero, hg.drive]
    rfl
  · rw [sendTx_pos hn, sendTx_pos hn, hg.txBytes, hg.emit]

/-- A FLUSH carries a change along that its encode step does. -/
theorem Carried.flushBody {s : State} {offset len : Nat} (hout : spanOutput (g s).cfg len = spanOutput s.cfg len)
    (hstep : encodeStep offset len (g s) = g (encodeStep offset len s)) :
    flushBody offset len (g s) = (flushBody offset len s).map g := by
  rw [Machine.flushBody, Machine.flushBody, hout, hstep, hg.sendTx]

end

/-! ## The rotation -/

/-- The state under another rotation. -/
def State.rotated (r : Rotation) (s : State) : State := { s with cfg := { s.cfg with rotate := r } }

theorem carried_rotated (r : Rotation) : Carried (State.rotated r) where
  latch _ _ := rfl
  drive _ _ := rfl
  emit _ _ := rfl
  txBytes _ _ := rfl
  delivered := by rintro ⟨s, _ | e | _⟩ <;> rfl

/-- An outcome under another rotation. -/
def rotatedOutcome (r : Rotation) (o : Host.Outcome State Fault Refusal) : Host.Outcome State Fault Refusal :=
  match o with
  | .next t => .next (t.rotated r)
  | .fault f => .fault f
  | .refused q => .refused q

/-- A body that does the same under another rotation. -/
def IgnoresRotation (r : Rotation) (body : State → Host.Outcome State Fault Refusal) : Prop :=
  ∀ s, body (s.rotated r) = rotatedOutcome r (body s)

section
variable {r : Rotation} {body other : State → Host.Outcome State Fault Refusal}

theorem ignoresRotation_ite {test : State → Bool} (htest : ∀ s, test (s.rotated r) = test s)
    (hbody : IgnoresRotation r body) (hother : IgnoresRotation r other) :
    IgnoresRotation r fun s => if test s then body s else other s := by
  intro s
  simp only [htest]
  split
  · exact hbody s
  · exact hother s

theorem ignoresRotation_refused (q : State → Refusal) (hq : ∀ s, q (s.rotated r) = q s) :
    IgnoresRotation r fun s => .refused (q s) :=
  fun s => congrArg Host.Outcome.refused (hq s)

theorem ignoresRotation_start (i : Instr) (hbody : IgnoresRotation r body) :
    IgnoresRotation r fun s => start i s body :=
  ignoresRotation_ite (test := State.busy) (fun _ => rfl) (ignoresRotation_refused _ fun _ => rfl)
    fun s => hbody (s.latch i)

theorem ignoresRotation_needLife (accepts : Life → Bool) (hbody : IgnoresRotation r body) :
    IgnoresRotation r fun s => needLife accepts s (body s) :=
  ignoresRotation_ite (test := fun s => accepts s.life) (fun _ => rfl) hbody (ignoresRotation_refused _ fun _ => rfl)

theorem ignoresRotation_needBus (hbody : IgnoresRotation r body) : IgnoresRotation r fun s => needBus s (body s) :=
  ignoresRotation_ite (test := State.busReady) (fun _ => rfl) hbody (ignoresRotation_refused _ fun _ => rfl)

theorem ignoresRotation_needBusIf (sends : Bool) (hbody : IgnoresRotation r body) :
    IgnoresRotation r fun s => needBusIf sends s (body s) := by
  cases sends
  · exact hbody
  · exact ignoresRotation_needBus hbody

theorem ignoresRotation_deliver {f : State → Run} (hf : ∀ s, f (s.rotated r) = (f s).map (State.rotated r)) :
    IgnoresRotation r fun s => deliver (f s) :=
  fun s => (congrArg deliver (hf s)).trans (congrArg Host.Outcome.next ((carried_rotated r).delivered (f s)))

end

section
variable (r : Rotation)

theorem windowBody_rotated (ys ye : Byte) (s : State) :
    windowBody ys ye (s.rotated r) = (windowBody ys ye s).map (State.rotated r) := by
  rw [windowBody, windowBody, ← Run.map_andThen (k' := fun s => Run.go (s.setWin ys ye)) fun _ => rfl,
    ← (carried_rotated r).sendFrames]
  rfl

theorem blankBody_rotated (on : Bool) (s : State) :
    blankBody on (s.rotated r) = (blankBody on s).map (State.rotated r) := by
  rw [blankBody, blankBody, ← Run.map_andThen (k' := fun s => Run.go { s with life := if on then .blanked else .on })
    fun _ => rfl, ← (carried_rotated r).sendFrames]
  rfl

theorem gammaProgram_rotated (curve : Curve) (s : State) :
    gammaProgram curve (s.rotated r) = (gammaProgram curve s).map (State.rotated r) := by
  unfold gammaProgram
  cases gammaLevels curve with
  | error e => rfl
  | ok levels => exact (carried_rotated r).sendFrames (gammaFrames s.cfg levels) (s.storeLevels levels)

theorem encodeSpan_rotated (offset len : Nat) (s : State) :
    encodeSpan (s.rotated r) offset len = encodeSpan s offset len := by
  unfold encodeSpan
  have hfmt : (s.rotated r).cfg.srcFmt = s.cfg.srcFmt := rfl
  rw [hfmt]
  split
  · exact encodeGray4_congr fun _ _ _ => rfl
  · exact encodeColor16_congr rfl fun _ _ _ _ => rfl

theorem flushBody_rotated (offset len : Nat) (s : State) :
    flushBody offset len (s.rotated r) = (flushBody offset len s).map (State.rotated r) := by
  refine (carried_rotated r).flushBody rfl ?_
  rw [encodeStep, encodeSpan_rotated]
  rfl

theorem precharge_ignoresRotation (level : Option Byte) : IgnoresRotation r (execProgramPrecharge level) := by
  have hraise : IgnoresRotation r fun s => deliver (raise .invalidParameter s) := ignoresRotation_deliver fun _ => rfl
  refine ignoresRotation_start _ (ignoresRotation_ite (fun _ => rfl) (ignoresRotation_needLife _ ?_) hraise)
  cases level with
  | none => exact hraise
  | some l =>
    exact ignoresRotation_ite (fun _ => rfl) (ignoresRotation_needBus (ignoresRotation_deliver fun s =>
      (carried_rotated r).sendFrames [framePrecharge s.cfg l] s)) hraise

theorem flush_ignoresRotation (offset len : Nat) : IgnoresRotation r (execFlush offset len) :=
  ignoresRotation_start _ (ignoresRotation_ite (fun _ => rfl)
    (ignoresRotation_ite (fun _ => rfl)
      (ignoresRotation_needBus (ignoresRotation_deliver (flushBody_rotated r offset len)))
      (ignoresRotation_deliver fun _ => rfl))
    (ignoresRotation_deliver fun _ => rfl))

theorem destroy_ignoresRotation : IgnoresRotation r execDestroy :=
  ignoresRotation_start _ (ignoresRotation_needLife _ (ignoresRotation_deliver fun _ => rfl))

theorem answerInvalid_ignoresRotation (i : Instr) : IgnoresRotation r (answerInvalid i) :=
  ignoresRotation_start i (ignoresRotation_deliver fun _ => rfl)

/-- Only the power-up sequence reads the rotation (70_reset_and_hazards.md R260). -/
theorem exec_ignoresRotation {i : Instr} (hhost : isHostOp i = true) (hinit : i ≠ .init) :
    IgnoresRotation r (exec i) := by
  cases i with
  | init => exact absurd rfl hinit
  | setWindow xs ys xe ye =>
    exact ignoresRotation_start _ (ignoresRotation_needLife _ (ignoresRotation_needBus
      (ignoresRotation_deliver (windowBody_rotated r ys ye))))
  | programGamma curve =>
    exact ignoresRotation_start _ (ignoresRotation_needLife _ (ignoresRotation_needBusIf _
      (ignoresRotation_deliver (gammaProgram_rotated r curve))))
  | programPrecharge level => exact precharge_ignoresRotation r level
  | blank on =>
    exact ignoresRotation_start _ (ignoresRotation_needLife _ (ignoresRotation_needBus
      (ignoresRotation_deliver (blankBody_rotated r on))))
  | flush offset len => exact flush_ignoresRotation r offset len
  | destroy => exact destroy_ignoresRotation r
  | reserved0 | reserved8 | reserved9 | reservedA | reservedB | reservedC | reservedD | reservedE | reservedF =>
    exact answerInvalid_ignoresRotation r _
  | _ => cases hhost

end

/-- Settles O16: a request of the host but INIT ignores the rotation. -/
theorem rotationReadByInitOnly : Obligations.RotationReadByInitOnly := by
  intro i s t r hhost hinit h
  have hrotated := exec_ignoresRotation r hhost hinit s
  rw [h] at hrotated
  exact hrotated

/-! ## The bytes outside a span -/

/-- The state with another framebuffer. -/
def State.withFb (fb' : Memory) (s : State) : State := { s with fb := fb' }

theorem carried_withFb (fb' : Memory) : Carried (State.withFb fb') where
  latch _ _ := rfl
  drive _ _ := rfl
  emit _ _ := rfl
  txBytes _ _ := rfl
  delivered := by rintro ⟨s, _ | e | _⟩ <;> rfl

/-- The bytes the encoder reads of a row of a COLOR16 span lie in the span, at odd addresses. -/
theorem color16_address {cfg : Cfg} (hfmt : cfg.srcFmt = .color16) {offset len y x : Nat} (heven : offset % 2 = 0)
    (hrows : len % stride cfg = 0) (hy : y < len / stride cfg) (hx : x < cfg.width) :
    offset ≤ offset + y * stride cfg + 2 * x + 1 ∧ offset + y * stride cfg + 2 * x + 1 < offset + len ∧
      (offset + y * stride cfg + 2 * x + 1) % 2 = 1 := by
  have hrow : (y + 1) * stride cfg ≤ len / stride cfg * stride cfg := Nat.mul_le_mul_right _ hy
  rw [Nat.div_mul_cancel (Nat.dvd_of_mod_eq_zero hrows), Nat.succ_mul] at hrow
  have hcolumn := odd_lt_stride hfmt hx
  have hpair : y * stride cfg % 2 = 0 := by
    simp only [stride, hfmt]
    rw [Nat.mul_left_comm, Nat.mul_mod_right]
  omega

/-- The output depends on the bytes of the span only, in COLOR16 on those at odd addresses (20_memory.md R50, R57). -/
theorem encodeSpan_withFb {s : State} {fb' : Memory} {offset len : Nat} (hstable : s.FbStable)
    (hspan : s.spanOk offset len = true)
    (hagree : ∀ a, offset ≤ a → a < offset + len → (s.cfg.srcFmt = .color16 → a % 2 = 1) →
      (s.withFb fb').fbByte a = s.fbByte a) : encodeSpan (s.withFb fb') offset len = encodeSpan s offset len := by
  have hsample : ∀ a, offset ≤ a → a < offset + len → (s.cfg.srcFmt = .color16 → a % 2 = 1) →
      (s.withFb fb').fbSample a = s.fbSample a := by
    intro a hfrom hto hodd
    rw [fbSample_stable (s := s.withFb fb') hstable, fbSample_stable hstable, hagree a hfrom hto hodd]
  unfold encodeSpan
  have hcfg : (s.withFb fb').cfg = s.cfg := rfl
  rw [hcfg]
  split
  · rename_i hfmt
    exact encodeGray4_congr fun a hfrom hto => hsample a hfrom hto fun hcolor => by cases hfmt.symm.trans hcolor
  · rename_i hfmt
    obtain ⟨-, heven, hrows, -⟩ := (spanOk_color16 hfmt offset len).1 hspan
    refine encodeColor16_congr rfl fun y x hy hx => ?_
    obtain ⟨hfrom, hto, hodd⟩ := color16_address hfmt heven hrows hy hx
    exact hsample _ hfrom hto fun _ => hodd

theorem encodeStep_withFb {s : State} {fb' : Memory} {offset len : Nat} (hstable : s.FbStable)
    (hsame : encodeSpan (s.withFb fb') offset len = encodeSpan s offset len) :
    encodeStep offset len (s.withFb fb') = (encodeStep offset len s).withFb fb' := by
  have hrace : s.fbRace = [] := hstable
  rw [encodeStep, hsame]
  simp [encodeStep, State.withFb, State.endBorrow, State.storeCount, State.work, State.storeTx, hrace]

/-- Settles O47: the tests of FLUSH read no byte of `FB`, and its output depends on the span's bytes only. -/
theorem flushReadsOnlyItsSpan : Obligations.FlushReadsOnlyItsSpan := by
  intro s offset len fb' t hstable hagree h
  replace h : execFlush offset len s = .next t := h
  have hop : s.op = none := (start_next h).1
  cases hpresent : s.buffersPresent with
  | false =>
    cases h.symm.trans (execFlush_of_buffer_missing hop hpresent offset len)
    exact execFlush_of_buffer_missing (s := s.withFb fb') hop hpresent offset len
  | true =>
    cases hspan : s.spanOk offset len with
    | false =>
      cases h.symm.trans (execFlush_of_bad_span hop hpresent hspan)
      exact execFlush_of_bad_span (s := s.withFb fb') hop hpresent hspan
    | true =>
      rcases flush_next h with ⟨hfails, -⟩ | ⟨-, -, hbus, rfl⟩
      · rw [hpresent, hspan] at hfails
        cases hfails
      · have hbody := (carried_withFb fb').flushBody (s := s.latch (.flush offset len)) rfl
          (encodeStep_withFb hstable (encodeSpan_withFb hstable hspan hagree))
        refine (flush_ready (s := s.withFb fb') ⟨hop, hbus⟩ hpresent hspan).trans ?_
        rw [(carried_withFb fb').latch, hbody, (carried_withFb fb').delivered]
        rfl

end Sys2Proof.Machine
end
